-- ==== Sys2Proof/Word.lean ====
section
/-! DEFINITION. The word types of the host port (spec/20_memory.md R60, spec/30_encoding.md R90)
and the type of bit sequences (spec/00_scope.md section 6). -/

namespace Sys2Proof

/-- A 32-bit data word: write data, read data, a control register, a memory entry zero-extended. -/
abbrev Word := BitVec 32

/-- A 20-bit host word address (R60). -/
abbrev Addr := BitVec 20

/-- A host transaction as the 53-bit word `kind, addr, data`, `kind` the most significant (R90, R93). -/
abbrev Triple := BitVec 53

/-- A bit sequence, first bit first (00_scope.md section 6: codewords and the packed stream). -/
abbrev Bits := List Bool

end Sys2Proof
end

