-- ==== Sys2Proof/Config.lean ====
section
/-! DEFINITION. The implementation parameters of the core (spec/00_scope.md R5, R7). The spec
leaves no value open (R14; 93_implementation_defined.md Part 1), so there is no free value here. -/

namespace Sys2Proof

/-- The named parameters of R5. `N_SYM` is always `2^SYMW`, hence `Params.nSym` and no field. -/
structure Params where
  /-- `SYMW`: width of a symbol in bits. -/
  symw : Nat
  /-- `CNTW`: width of a frequency count in bits. -/
  cntw : Nat
  /-- `MAXLEN`: greatest codeword length in bits. -/
  maxlen : Nat
  /-- `TEXT_CAP`: capacity of the TEXT memory in symbols. -/
  textCap : Nat
  /-- `BITS_CAP`: capacity of the BITS memory in bytes. -/
  bitsCap : Nat
  deriving DecidableEq, Repr

/-- The default column of R5. -/
def Params.defaults : Params :=
  { symw := 8, cntw := 24, maxlen := 32, textCap := 65536, bitsCap := 65536 }

/-- `N_SYM`, the alphabet size (R5). -/
def Params.nSym (p : Params) : Nat := 2 ^ p.symw

/-- Depth of the node arena, `2*N_SYM - 1` entries (R7, R33). -/
def Params.arenaDepth (p : Params) : Nat := 2 * p.nSym - 1

/-- `WW`, the width of a weight (R7). -/
def Params.weightWidth (p : Params) : Nat := p.cntw + p.symw

end Sys2Proof
end

