-- ==== Sys2Proof/Syntax.lean ====
section
/-! DEFINITION. The instructions: the ten command words (format CMD) and the two host
transactions (format BUS) of spec/opcode_table.json; spec/30_encoding.md R90, R92, R93. -/

namespace Sys2Proof

/-- One constructor per row of the opcode table. The commands carry no operand (R92). -/
inductive Instr where
  /-- NOP, command word 0x00000000 (R231). -/
  | nop
  /-- FREQ, command word 0x00000001 (R140). -/
  | freq
  /-- TREE, command word 0x00000002 (R153). -/
  | tree
  /-- DERIVE, command word 0x00000003 (R170). -/
  | derive
  /-- BUILD, command word 0x00000004 (R190). -/
  | build
  /-- ENCODE, command word 0x00000005 (R200). -/
  | encode
  /-- DECODE, command word 0x00000006 (R215). -/
  | decode
  /-- CTCLR, command word 0x00000007 (R180). -/
  | ctclr
  /-- CTCHK, command word 0x00000008 (R176). -/
  | ctchk
  /-- RESET, command word 0x0000000F (R232). -/
  | reset
  /-- RD, the host read of one word address (R121); a read's data field is ignored (R90). -/
  | rd (addr : Addr)
  /-- WR, the host write of one word address (R125). -/
  | wr (addr : Addr) (data : Word)
  deriving DecidableEq, Repr

end Sys2Proof
end

