-- ==== Sys2Proof/WellFormed.lean ====
section
/-! DEFINITION. Well-formedness: of an instruction, and of a parameter set (spec/00_scope.md R6). -/

namespace Sys2Proof

/-- Every instruction term is well-formed: the commands have no operand (R92), and the operands of
RD and WR have exactly the widths of R90, so no term outside the encodable ones can be written. -/
def Instr.wf : Instr → Bool
  | .nop => true
  | .freq => true
  | .tree => true
  | .derive => true
  | .build => true
  | .encode => true
  | .decode => true
  | .ctclr => true
  | .ctchk => true
  | .reset => true
  | .rd _ => true
  | .wr _ _ => true

/-- The constraints of R6; "a parameter set that breaks one is not an instance of this hardware". -/
abbrev Params.WF (p : Params) : Prop :=
  1 ≤ p.symw ∧ p.symw ≤ 15 ∧
  1 ≤ p.cntw ∧ p.cntw + p.symw ≤ 32 ∧
  1 ≤ p.maxlen ∧ p.maxlen ≤ 32 ∧
  1 ≤ p.textCap ∧ p.textCap ≤ 65536 ∧ p.textCap ≤ 2 ^ p.cntw - 1 ∧
  1 ≤ p.bitsCap ∧ p.bitsCap ≤ 65536

/-- One piece of this hardware: a parameter set that meets R6. A set that breaks R6 cannot be put
in a state (93_implementation_defined.md Part 2 asks a model to refuse it). -/
structure Hardware extends Params where
  /-- The parameters meet R6. -/
  ok : toParams.WF
  deriving DecidableEq, Repr

/-- The hardware with the default parameters of R5. -/
def Hardware.defaults : Hardware := { toParams := Params.defaults, ok := by decide }

end Sys2Proof
end

