-- ==== Sys2Proof/Decode.lean ====
section
/-! DEFINITION. Decoding and encoding of the two formats (spec/30_encoding.md R90, R93, R94, R96;
spec/40_host_access.md R124). The command decoder is the ten-row table of R93 and nothing else;
a host transaction is told by its `kind` bit alone. -/

namespace Sys2Proof

/-- An encoded instruction in one of the two formats of R90, each of one fixed length. -/
inductive Encoded where
  /-- Format CMD: a 32-bit command word, `op` in bits 7:0 and `zero` in bits 31:8. -/
  | cmd (w : Word)
  /-- Format BUS: the 53-bit triple. -/
  | bus (t : Triple)
  deriving DecidableEq, Repr

/-- Why a word is no instruction. -/
inductive Reject where
  /-- A command word with bits 31:8 not zero (R94). -/
  | zeroFieldSet
  /-- A command word whose opcode is none of the ten (R94). -/
  | unknownOpcode
  /-- A number wider than its format. -/
  | tooWide
  deriving DecidableEq, Repr

/-- The command decoder, in the order of tests of R124: `zero` first, then `op`. -/
def decodeCommand (w : Word) : Except Reject Instr :=
  if w.extractLsb' 8 24 ≠ 0#24 then .error .zeroFieldSet
  else
    match (w.extractLsb' 0 8).toNat with
    | 0x00 => .ok .nop
    | 0x01 => .ok .freq
    | 0x02 => .ok .tree
    | 0x03 => .ok .derive
    | 0x04 => .ok .build
    | 0x05 => .ok .encode
    | 0x06 => .ok .decode
    | 0x07 => .ok .ctclr
    | 0x08 => .ok .ctchk
    | 0x0F => .ok .reset
    | _ => .error .unknownOpcode

/-- The transaction decoder: `kind` is bit 52, `addr` bits 51:32, `data` bits 31:0 (R90). Every
triple is a transaction. -/
def decodeBus (t : Triple) : Instr :=
  if t.getLsbD 52 then .wr (t.extractLsb' 32 20) (t.extractLsb' 0 32)
  else .rd (t.extractLsb' 32 20)

/-- The decoder of both formats, total. -/
def decode : Encoded → Except Reject Instr
  | .cmd w => decodeCommand w
  | .bus t => .ok (decodeBus t)

/-- A triple from its fields (R90). -/
def triple (kind : Bool) (addr : Addr) (data : Word) : Triple :=
  BitVec.ofBool kind ++ addr ++ data

/-- The address of the CMD register (R22, R90). -/
def cmdAddr : Addr := 0x00000#20

/-- The encoder, from the table of R93 and the fields of R90. A read's ignored data is written 0. -/
def encode : Instr → Encoded
  | .nop => .cmd 0x00000000#32
  | .freq => .cmd 0x00000001#32
  | .tree => .cmd 0x00000002#32
  | .derive => .cmd 0x00000003#32
  | .build => .cmd 0x00000004#32
  | .encode => .cmd 0x00000005#32
  | .decode => .cmd 0x00000006#32
  | .ctclr => .cmd 0x00000007#32
  | .ctchk => .cmd 0x00000008#32
  | .reset => .cmd 0x0000000F#32
  | .rd a => .bus (triple false a 0#32)
  | .wr a v => .bus (triple true a v)

/-- The host transaction that carries an encoded instruction: a command word travels as the data
of a write to address `0x00000` (R90), a triple is a transaction itself. -/
def carrier : Encoded → Triple
  | .cmd w => triple true cmdAddr w
  | .bus t => t

/-- The encoded instruction that a table row's number stands for: rows of 32 bits are command
words, wider rows are triples. -/
def encodedOfTable (nbits w : Nat) : Except Reject Encoded :=
  if nbits ≤ 32 then
    if w < 2 ^ 32 then .ok (.cmd (BitVec.ofNat 32 w)) else .error .tooWide
  else
    if w < 2 ^ 53 then .ok (.bus (BitVec.ofNat 53 w)) else .error .tooWide

/-- The decoder read through the opcode table's numbering. -/
def decodeTableWord (nbits w : Nat) : Option Instr :=
  match encodedOfTable nbits w with
  | .error _ => none
  | .ok e =>
    match decode e with
    | .ok i => some i
    | .error _ => none

/-- The transaction that carries a table row's number (a number too wide keeps its low bits). -/
def carrierOfTable (nbits w : Nat) : Triple :=
  if nbits ≤ 32 then carrier (.cmd (BitVec.ofNat 32 w)) else carrier (.bus (BitVec.ofNat 53 w))

end Sys2Proof
end

