-- ==== Sys2Proof/Machine/State.lean ====
section
/-! DEFINITION. The state as plain data (spec/10_state.md), the reasons to stop, and reset (R44). -/

namespace Sys2Proof.Machine

/-- One of the seven memories of R33: (index, entry) pairs, indexes strictly rising, no entry equal
to what an unlisted index reads as. An entry is held as the word a host read returns. -/
structure Memory where
  /-- The listed entries. -/
  cells : List (Nat × Word)
  deriving DecidableEq, Repr

/-- The result codes of R240. Codes 11 to 15 are never written, so they have no constructor
(93_implementation_defined.md Part 2). -/
inductive ErrCode where
  /-- 0, OK. -/
  | ok
  /-- 1, ERR_ILLCMD. -/
  | illCmd
  /-- 2, ERR_EMPTY. -/
  | empty
  /-- 3, ERR_SYMBOL. -/
  | symbol
  /-- 4, ERR_NOTABLE. -/
  | noTable
  /-- 5, ERR_NOTREE. -/
  | noTree
  /-- 6, ERR_DEPTH. -/
  | depth
  /-- 7, ERR_OVERFLOW. -/
  | overflow
  /-- 8, ERR_LENGTH. -/
  | length
  /-- 9, ERR_PREFIX. -/
  | prefixClash
  /-- 10, ERR_ENTRY. -/
  | entry
  deriving DecidableEq, Repr

/-- The architectural state of the core: every register, flag and memory that holds a value
(R22, R24 to R30, R33, R40, R41). CMD holds no value (R23), STATUS is read from `ctValid`,
`treeValid` and `err` (R24), and ID, CFG, TEXT_CAP and BITS_CAP are constants (R31, R32). -/
structure Arch where
  /-- STATUS.CT_VALID, the code table is a checked prefix code (R40). -/
  ctValid : Bool
  /-- STATUS.TREE_VALID, the arena matches FREQ (R41). -/
  treeValid : Bool
  /-- STATUS.ERR, result code of the most recent command (R24, R240). -/
  err : ErrCode
  /-- ERRINFO (R25). -/
  errInfo : Word
  /-- TEXT_LEN (R26). -/
  textLen : Word
  /-- BIT_LEN (R27). -/
  bitLen : Word
  /-- RESID (R28). -/
  resid : Word
  /-- ROOT (R29). -/
  root : Word
  /-- NLEAF (R30). -/
  nleaf : Word
  /-- TEXT (R34). -/
  text : Memory
  /-- BITS, one byte an entry (R35). -/
  bits : Memory
  /-- FREQ (R36). -/
  freq : Memory
  /-- CT_LEN (R37). -/
  ctLen : Memory
  /-- CT_CODE (R37). -/
  ctCode : Memory
  /-- NODE_W (R39). -/
  nodeW : Memory
  /-- NODE_LR, left child in bits 15:0, right child in bits 31:16 (R39). -/
  nodeLR : Memory
  deriving DecidableEq, Repr

/-- The response of a transaction (R60, R120). -/
inductive Response where
  | okay
  | error
  deriving DecidableEq, Repr

/-- What one transaction returns: the response and the read word, 0 for a write and for `ERROR`
(R60, R120). -/
structure Reply where
  response : Response
  data : Word
  deriving DecidableEq, Repr

/-- What the outside world can do to the core between two steps. -/
inductive Input where
  /-- A host transaction (R90). -/
  | transaction (t : Triple)
  /-- The hardware reset event, which is no transaction and has no response (R270). -/
  | hardwareReset
  deriving DecidableEq, Repr

/-- Everything a step reads or writes: the core's own state, and the two ends of its host port. -/
structure State where
  /-- The parameters of this instance (R5); no step changes them. -/
  hw : Hardware
  /-- The architectural state of the core. -/
  arch : Arch
  /-- The host's transactions and reset events still to come, next one first (R11, R286). -/
  requests : List Input
  /-- The replies given so far, oldest first (R286). -/
  replies : List Reply
  deriving DecidableEq, Repr

/-- The reasons to stop with a fault: none. "The core never hangs and is never stuck: every
transaction has exactly one outcome" (R13); a command error and an `ERROR` response are results
(R240, R244). Nothing raises one, which is exact, hence safe. -/
inductive Fault where
  deriving DecidableEq, Repr

/-- The reasons to refuse an instruction. -/
inductive Refusal where
  /-- Raised by an arm of `exec` for an instruction that has no meaning yet, by its mnemonic in the
  opcode table (safe: a stop). Every arm has its meaning, so nothing raises it. -/
  | notModelled (mnemonic : String)
  deriving DecidableEq, Repr

/-- The contents of a memory after reset: every entry 0, that is, nothing listed (R44). -/
def Memory.empty : Memory := { cells := [] }

/-- The architectural state after hardware reset and after the RESET command (R44). -/
def Arch.reset : Arch :=
  { ctValid := false, treeValid := false, err := .ok, errInfo := 0#32
    textLen := 0#32, bitLen := 0#32, resid := 0#32, root := 0#32, nleaf := 0#32
    text := .empty, bits := .empty, freq := .empty, ctLen := .empty, ctCode := .empty
    nodeW := .empty, nodeLR := .empty }

/-- The machine right after reset, for any instance: no transaction issued yet, none answered. -/
def State.resetOf (hw : Hardware) : State :=
  { hw := hw, arch := Arch.reset, requests := [], replies := [] }

/-- The machine right after reset, with the default parameters of R5. -/
def State.reset : State := State.resetOf Hardware.defaults

end Sys2Proof.Machine
end

