-- ==== Sys2Proof/Machine/Ops.lean ====
section
/-! DEFINITION. The named operations over memories and registers, and the one operation that
ends a command with an error (spec/10_state.md R33; spec/20_memory.md R73; spec/60_exceptions.md
R246; spec/40_host_access.md R124). -/

namespace Sys2Proof.Machine

/-! ### Memories -/

/-- What an entry nothing has written reads as: 0, the reset value of every entry (R44). -/
abbrev Memory.unlisted : Word := 0#32

/-- `MemRead(M, i)` (00_scope.md section 6). -/
def Memory.read (m : Memory) (i : Nat) : Word := (m.cells.lookup i).getD Memory.unlisted

/-- The entries to list for the values `vs` at indexes `lo, lo+1, ...`. -/
def Memory.blockCells : Nat → List Word → List (Nat × Word)
  | _, [] => []
  | lo, v :: vs =>
    if v = Memory.unlisted then Memory.blockCells (lo + 1) vs
    else (lo, v) :: Memory.blockCells (lo + 1) vs

/-- `MemWrite(M, lo + j, vs[j])` for every `j < |vs|`; every other entry is kept. -/
def Memory.writeBlock (m : Memory) (lo : Nat) (vs : List Word) : Memory :=
  { cells :=
      m.cells.filter (fun c => decide (c.1 < lo)) ++ Memory.blockCells lo vs ++
        m.cells.filter (fun c => decide (lo + vs.length ≤ c.1)) }

/-- `MemWrite(M, i, v)` (00_scope.md section 6). -/
def Memory.write (m : Memory) (i : Nat) (v : Word) : Memory := m.writeBlock i [v]

/-- Indexes strictly rise along the list, all above a bound. -/
def Memory.rising : Option Nat → List (Nat × Word) → Bool
  | _, [] => true
  | none, c :: cs => Memory.rising (some c.1) cs
  | some k, c :: cs => decide (k < c.1) && Memory.rising (some c.1) cs

/-- The canonical form: indexes strictly rising, no entry equal to what an unlisted index reads as. -/
def Memory.wf (m : Memory) : Bool :=
  Memory.rising none m.cells && m.cells.all (fun c => decide (c.2 ≠ Memory.unlisted))

/-- Every listed entry is inside the depth and fits the entry width (R33). -/
def Memory.fits (m : Memory) (depth width : Nat) : Bool :=
  m.cells.all (fun c => decide (c.1 < depth) && decide (c.2.toNat < 2 ^ width))

/-! ### The end of a command -/

/-- How a command, or a stage of BUILD, ends. -/
inductive Result where
  /-- It ends without `raise`. -/
  | done (c : Arch)
  /-- It ends by `raise e(info)`; `c` holds what was committed before. -/
  | raised (e : ErrCode) (info : Word) (c : Arch)
  deriving DecidableEq, Repr

/-- The next stage runs on the state the one before it left, and only if that one did not raise
(R190). -/
def Result.andThen : Result → (Arch → Result) → Result
  | .done c, f => f c
  | .raised e info c, _ => .raised e info c

/-- `STATUS.ERR <- e`, `REG.ERRINFO <- info`. -/
def Arch.record (c : Arch) (e : ErrCode) (info : Word) : Arch :=
  { c with err := e, errInfo := info }

/-- The end of every command, the core's only form of exception: `raise` records the code and the
detail and changes nothing else (R246); a command that ends without `raise` records OK and 0
(R124). Nothing is saved and no control goes anywhere, so there is no return (R247). -/
def Result.commit : Result → Arch
  | .done c => c.record .ok 0#32
  | .raised e info c => c.record e info

/-! ### The host port -/

/-- Answer the transaction in progress. -/
def State.reply (s : State) (r : Reply) : State := { s with replies := s.replies ++ [r] }

/-- The reply of an accepted write: `OKAY`, read word 0 (R120). -/
def Reply.accepted : Reply := { response := .okay, data := 0#32 }

/-- The `ERROR` reply, read word 0 (R60). -/
def Reply.refused : Reply := { response := .error, data := 0#32 }

/-- The reply of a read that finds `w`. -/
def Reply.found (w : Word) : Reply := { response := .okay, data := w }

/-- Run a command inside the CMD write that starts it (R8, R124): the write is answered `OKAY`
whatever the command's own result (R126). -/
def State.runCommand (s : State) (command : Hardware → Arch → Result) : State :=
  { s with arch := (command s.hw s.arch).commit }.reply Reply.accepted

/-- What the next step finds at the host port. -/
inductive Fetched where
  /-- No transaction and no event is pending. -/
  | idle
  /-- A hardware reset; the state after it. -/
  | afterReset (s : State)
  /-- An instruction, and the state with its transaction taken from the port. -/
  | instruction (i : Instr) (s : State)
  deriving DecidableEq, Repr

/-- Take the next input from the port (R70: in the order of issue). -/
def State.fetch (s : State) : Fetched :=
  match s.requests with
  | [] => .idle
  | .hardwareReset :: rest => .afterReset { s with arch := Arch.reset, requests := rest }
  | .transaction t :: rest => .instruction (decodeBus t) { s with requests := rest }

/-- Put a transaction before everything else at the port. -/
def State.offer (s : State) (t : Triple) : State :=
  { s with requests := .transaction t :: s.requests }

end Sys2Proof.Machine
end

