-- ==== Sys2Proof/Machine/Operands.lean ====
section
/-! DEFINITION. The operand forms: the address of a transaction (spec/20_memory.md R62, R67, R68),
and the implicit operands of the commands (spec/30_encoding.md R92, R100, R101; 10_state.md R34 to
R37), with the bit-sequence notation of spec/00_scope.md section 6. -/

namespace Sys2Proof.Machine

/-! ### Addresses and data words -/

/-- `a[19:16]`, the region of an address (R62). -/
def region (a : Addr) : Nat := (a.extractLsb' 16 4).toNat

/-- `a[15:0]`, the offset in the region (R62). -/
def offset (a : Addr) : Nat := (a.extractLsb' 0 16).toNat

/-- `v[n-1:0]`: what a write to an entry of width `n` stores (R68). -/
def lowBits (n : Nat) (v : Word) : Word := BitVec.ofNat 32 (v.toNat % 2 ^ n)

/-- The word with `hi` in bits 31:16 and `lo` in bits 15:0 (R39, R241). -/
def halves (hi lo : Nat) : Word := BitVec.ofNat 16 hi ++ BitVec.ofNat 16 lo

/-- `w[31:16]`. -/
def highHalf (w : Word) : Nat := (w.extractLsb' 16 16).toNat

/-- `w[15:0]`. -/
def lowHalf (w : Word) : Nat := (w.extractLsb' 0 16).toNat

/-- The word read at ID (R31). -/
def idWord : Word := 0x48434301#32

/-- The word read at CFG (R32, R121). -/
def cfgWord (hw : Hardware) : Word :=
  BitVec.ofNat 32 (hw.symw + (hw.maxlen <<< 5) + (hw.cntw <<< 11))

/-! ### Bit sequences -/

/-- `val(q)`: the first bit is the most significant. -/
def bitsVal (q : Bits) : Nat := q.foldl (fun v b => 2 * v + b.toNat) 0

/-- `seq(v, n)`: the `n`-bit sequence with value `v`. -/
def bitsSeq (v n : Nat) : Bits := (List.range n).map (fun i => v.testBit (n - 1 - i))

/-- `cw(s) = seq(CT_CODE[s], CT_LEN[s])` (R37). -/
def Arch.codeword (c : Arch) (s : Nat) : Bits :=
  bitsSeq (c.ctCode.read s).toNat (c.ctLen.read s).toNat

/-- The symbols with a codeword, ascending (00_scope.md section 8: present symbol). -/
def Arch.coded (hw : Hardware) (c : Arch) : List Nat :=
  (List.range hw.nSym).filter (fun s => decide (0 < (c.ctLen.read s).toNat))

/-- The symbols in the frequency map, ascending (R36, R151). -/
def Arch.counted (hw : Hardware) (c : Arch) : List Nat :=
  (List.range hw.nSym).filter (fun s => decide (0 < (c.freq.read s).toNat))

/-! ### The buffers -/

/-- `TEXT[i]` as a symbol (R34). -/
def Arch.symbolAt (c : Arch) (i : Nat) : Nat := (c.text.read i).toNat

/-- The current text, `TEXT[0 .. TEXT_LEN-1]` (R26). -/
def Arch.currentText (c : Arch) : List Nat := (List.range c.textLen.toNat).map c.symbolAt

/-- Stream bit `j`: bit `7 - (j mod 8)` of `BITS[j div 8]` (R100). -/
def Arch.streamBit (c : Arch) (j : Nat) : Bool := (c.bits.read (j / 8)).getLsbD (7 - j % 8)

/-- The current packed bit sequence, stream bits `0 .. BIT_LEN-1` (R27, R217). -/
def Arch.currentBits (c : Arch) : Bits := (List.range c.bitLen.toNat).map c.streamBit

/-- `ceil(L / 8)` (R100). -/
def byteCount (len : Nat) : Nat := (len + 7) / 8

/-- The next eight bits of a sequence as one byte, zeros beyond its end (R205). -/
def packByte (q : Bits) : Word :=
  BitVec.ofNat 32 (bitsVal ((q.take 8) ++ List.replicate (8 - q.length) false))

/-- The first `n` bytes of a packed sequence (R200, R205). -/
def packBytes : Nat → Bits → List Word
  | 0, _ => []
  | n + 1, q => packByte q :: packBytes n (q.drop 8)

end Sys2Proof.Machine
end

