-- ==== Sys2Proof/Machine/Flags.lean ====
section
/-! DEFINITION. The STATUS word and the two validity flags (spec/10_state.md R24, R40, R41;
spec/60_exceptions.md R240). -/

namespace Sys2Proof.Machine

/-- The number of a result code (R240). -/
def ErrCode.code : ErrCode → BitVec 4
  | .ok => 0#4
  | .illCmd => 1#4
  | .empty => 2#4
  | .symbol => 3#4
  | .noTable => 4#4
  | .noTree => 5#4
  | .depth => 6#4
  | .overflow => 7#4
  | .length => 8#4
  | .prefixClash => 9#4
  | .entry => 10#4

/-- The word read at STATUS: ERR in bits 11:8, TREE_VALID bit 2, CT_VALID bit 1, BUSY bit 0, which
always reads 0; reserved bits read 0 (R24, R121). -/
def Arch.statusWord (c : Arch) : Word :=
  0#20 ++ c.err.code ++ 0#5 ++ BitVec.ofBool c.treeValid ++ BitVec.ofBool c.ctValid ++ 0#1

/-- The arena matches FREQ: a successful TREE (R41). -/
def Arch.treeMade (c : Arch) : Arch := { c with treeValid := true }

/-- FREQ has changed: a host write to it, or a successful FREQ (R41). -/
def Arch.freqChanged (c : Arch) : Arch := { c with treeValid := false }

/-- The table is a checked prefix code: a successful DERIVE or CTCHK (R40). -/
def Arch.tableChecked (c : Arch) : Arch := { c with ctValid := true }

/-- The table has been touched: a host write to it, or CTCLR (R40). -/
def Arch.tableTouched (c : Arch) : Arch := { c with ctValid := false }

end Sys2Proof.Machine
end

