-- ==== Sys2Proof/Machine/CodeTable.lean ====
section
/-! DEFINITION. The Code Table Deriver and table maintenance: DERIVE, CTCHK, CTCLR
(spec/43_code_table.md). -/

namespace Sys2Proof.Machine

/-! ### DERIVE -/

/-- The bindings `code(n) <- q` made so far, newest first. -/
abbrev Codes := List (Nat × Bits)

/-- `code(n)`. A node that was never bound reads as the empty sequence; while TREE_VALID holds
every node the walk of R170 looks at is bound (R175; DESIGN CHOICE, assumption 7). -/
def codeOf (codes : Codes) (n : Nat) : Bits := (codes.lookup n).getD []

/-- The loop of R170 over the internal nodes `N_SYM + count - 1` down to `N_SYM`. The left edge
contributes 1, the right edge 0 (R171). -/
def walkDown (hw : Hardware) (c : Arch) : Nat → Codes → Codes
  | 0, codes => codes
  | count + 1, codes =>
    let n := hw.nSym + count
    let children := c.nodeLR.read n
    walkDown hw c count
      ((highHalf children, codeOf codes n ++ [false]) ::
        (lowHalf children, codeOf codes n ++ [true]) :: codes)

/-- The codes of all nodes, with the lone leaf of R172. -/
def treeCodes (hw : Hardware) (c : Arch) : Codes :=
  let r := c.root.toNat
  if r < hw.nSym then [(r, [true])] else walkDown hw c (r - hw.nSym + 1) [(r, [])]

/-- `P`, the leaves of the tree, ascending (R170). -/
def treeLeaves (hw : Hardware) (c : Arch) : List Nat :=
  (List.range hw.nSym).filter (fun s => decide (0 < (c.nodeW.read s).toNat))

/-- The entries of CT_LEN and of CT_CODE for every symbol: `f` of its code for a leaf of the tree,
0 for any other symbol (R170). -/
def tableColumn (hw : Hardware) (c : Arch) (codes : Codes) (f : Bits → Nat) : List Word :=
  (List.range hw.nSym).map fun s =>
    if 0 < (c.nodeW.read s).toNat then BitVec.ofNat 32 (f (codeOf codes s)) else 0#32

/-- DERIVE (R170), with the depth bound of R173. -/
def deriveStage (hw : Hardware) (c : Arch) : Result :=
  if !c.treeValid then .raised .noTree 0#32 c
  else
    let codes := treeCodes hw c
    match (treeLeaves hw c).find? (fun s => decide (hw.maxlen < (codeOf codes s).length)) with
    | some s => .raised .depth (halves (codeOf codes s).length s) c
    | none =>
      .done { c with
        ctLen := c.ctLen.writeBlock 0 (tableColumn hw c codes List.length)
        ctCode := c.ctCode.writeBlock 0 (tableColumn hw c codes bitsVal) }.tableChecked

/-- DERIVE, command word 0x00000003. -/
def execDerive (s : State) : Host.Outcome State Fault Refusal :=
  .next (s.runCommand deriveStage)

/-! ### CTCHK -/

/-- Clauses (a) and (b) of CTOK fail at `s` (R42, R176). -/
def entryMalformed (hw : Hardware) (c : Arch) (s : Nat) : Bool :=
  decide (hw.maxlen < (c.ctLen.read s).toNat ∨
    2 ^ (c.ctLen.read s).toNat ≤ (c.ctCode.read s).toNat)

/-- The least `t` other than `s` whose codeword has `cw(s)` as a prefix (R176). -/
def prefixVictim (hw : Hardware) (c : Arch) (s : Nat) : Option Nat :=
  (c.coded hw).find? fun t => decide (t ≠ s) && (c.codeword s).isPrefixOf (c.codeword t)

/-- The first pair `(s, t)` of CTCHK's double loop with `prefix(cw(s), cw(t))` (R176). -/
def prefixPair (hw : Hardware) (c : Arch) : Option (Nat × Nat) :=
  (c.coded hw).findSome? fun s => (prefixVictim hw c s).map fun t => (s, t)

/-- CTCHK (R176). -/
def ctchkStage (hw : Hardware) (c : Arch) : Result :=
  match (List.range hw.nSym).find? (entryMalformed hw c) with
  | some s => .raised .entry (BitVec.ofNat 32 s) c
  | none =>
    if (c.coded hw).isEmpty then .raised .empty 0#32 c
    else
      match prefixPair hw c with
      | some (s, t) => .raised .prefixClash (halves t s) c
      | none => .done c.tableChecked

/-- CTCHK, command word 0x00000008. -/
def execCtchk (s : State) : Host.Outcome State Fault Refusal :=
  .next (s.runCommand ctchkStage)

/-! ### CTCLR -/

/-- CTCLR (R180). -/
def ctclrStage (hw : Hardware) (c : Arch) : Result :=
  .done { c with
    ctLen := c.ctLen.writeBlock 0 (List.replicate hw.nSym 0#32)
    ctCode := c.ctCode.writeBlock 0 (List.replicate hw.nSym 0#32) }.tableTouched

/-- CTCLR, command word 0x00000007. -/
def execCtclr (s : State) : Host.Outcome State Fault Refusal :=
  .next (s.runCommand ctclrStage)

end Sys2Proof.Machine
end

