-- ==== Sys2Proof/Machine/Frequency.lean ====
section
/-! DEFINITION. The Frequency Counter: FREQ (spec/41_frequency.md). -/

namespace Sys2Proof.Machine

/-- FREQ (R140), with the length check of R141. The counts start from zero. -/
def freqStage (hw : Hardware) (c : Arch) : Result :=
  if hw.textCap < c.textLen.toNat then .raised .length c.textLen c
  else
    let counts := (List.range hw.nSym).map fun s => BitVec.ofNat 32 (c.currentText.count s)
    .done { c with freq := c.freq.writeBlock 0 counts }.freqChanged

/-- FREQ, command word 0x00000001. -/
def execFreq (s : State) : Host.Outcome State Fault Refusal :=
  .next (s.runCommand freqStage)

end Sys2Proof.Machine
end

