-- ==== Sys2Proof/Machine/TreeBuilder.lean ====
section
/-! DEFINITION. The Tree Builder and its priority queue: TREE (spec/42_tree_builder.md). -/

namespace Sys2Proof.Machine

/-- A pair `(weight, id)` of the priority queue (R150). -/
structure Key where
  weight : Nat
  id : Nat
  deriving DecidableEq, Repr

/-- The order of R10, lexicographic on `(weight, id)`: the tie-break of R156. -/
def Key.before (a b : Key) : Bool :=
  decide (a.weight < b.weight ∨ a.weight = b.weight ∧ a.id < b.id)

/-- `push(w, id)` (R150). The queue is held in the order of R10, so `popmin()` takes its head. -/
def queuePush (k : Key) : List Key → List Key
  | [] => [k]
  | x :: xs => if k.before x then k :: x :: xs else x :: queuePush k xs

/-- An internal node: combined weight, left child (first popped), right child (second popped). -/
structure Merged where
  weight : Nat
  left : Nat
  right : Nat
  deriving DecidableEq, Repr

/-- At most `rounds` rounds of the merge loop of R153, the first new node having id `fresh`: the
nodes created, in order, and the queue that is left. -/
def mergeRounds : Nat → Nat → List Key → List Merged × List Key
  | rounds + 1, fresh, a :: b :: queue =>
    let node : Merged := { weight := a.weight + b.weight, left := a.id, right := b.id }
    let rest := mergeRounds rounds (fresh + 1) (queuePush { weight := node.weight, id := fresh } queue)
    (node :: rest.1, rest.2)
  | _, _, queue => ([], queue)

/-- The queue of the leaves, pushed in ascending symbol order (R152). -/
def leafQueue (hw : Hardware) (c : Arch) : List Key :=
  (c.counted hw).foldl (fun q s => queuePush { weight := (c.freq.read s).toNat, id := s } q) []

/-- The whole merge of R153: `k` leaves leave one node after `k - 1` rounds. -/
def mergeAll (hw : Hardware) (c : Arch) : List Merged × List Key :=
  mergeRounds ((leafQueue hw c).length - 1) hw.nSym (leafQueue hw c)

/-- The entries to write to NODE_W, from id 0: leaf weights, created nodes, zeros (R153). -/
def arenaWeights (hw : Hardware) (c : Arch) (nodes : List Merged) : List Word :=
  (List.range hw.nSym).map c.freq.read ++ nodes.map (fun n => BitVec.ofNat 32 n.weight) ++
    List.replicate (hw.nSym - 1 - nodes.length) 0#32

/-- The entries to write to NODE_LR, from id 0: zeros for the leaves, the children of the created
nodes (left in bits 15:0), zeros (R153). -/
def arenaChildren (hw : Hardware) (nodes : List Merged) : List Word :=
  List.replicate hw.nSym 0#32 ++ nodes.map (fun n => halves n.right n.left) ++
    List.replicate (hw.nSym - 1 - nodes.length) 0#32

/-- TREE (R153), with the empty map of R154. -/
def treeStage (hw : Hardware) (c : Arch) : Result :=
  match mergeAll hw c with
  | (_, []) => .raised .empty 0#32 c
  | (nodes, last :: _) =>
    .done { c with
      nodeW := c.nodeW.writeBlock 0 (arenaWeights hw c nodes)
      nodeLR := c.nodeLR.writeBlock 0 (arenaChildren hw nodes)
      root := BitVec.ofNat 32 last.id
      nleaf := BitVec.ofNat 32 (c.counted hw).length }.treeMade

/-- TREE, command word 0x00000002. -/
def execTree (s : State) : Host.Outcome State Fault Refusal :=
  .next (s.runCommand treeStage)

end Sys2Proof.Machine
end

