-- ==== Sys2Proof/Machine/Construction.lean ====
section
/-! DEFINITION. Codec construction: BUILD (spec/44_construction.md). -/

namespace Sys2Proof.Machine

/-- BUILD (R190): FREQ, TREE and DERIVE in one step, each on the state the one before it left; the
first stage that raises ends it, and the finished stages keep their effects (R191). -/
def buildStage (hw : Hardware) (c : Arch) : Result :=
  ((freqStage hw c).andThen (treeStage hw)).andThen (deriveStage hw)

/-- BUILD, command word 0x00000004. -/
def execBuild (s : State) : Host.Outcome State Fault Refusal :=
  .next (s.runCommand buildStage)

end Sys2Proof.Machine
end

