-- ==== Sys2Proof/Machine/Control.lean ====
section
/-! DEFINITION. The control commands: NOP, RESET (spec/47_control.md). -/

namespace Sys2Proof.Machine

/-- NOP (R231). -/
def nopStage (_ : Hardware) (c : Arch) : Result := .done c

/-- NOP, command word 0x00000000. -/
def execNop (s : State) : Host.Outcome State Fault Refusal :=
  .next (s.runCommand nopStage)

/-- RESET (R232): the state after it is the state after hardware reset. -/
def resetStage (_ : Hardware) (_ : Arch) : Result := .done Arch.reset

/-- RESET, command word 0x0000000F. -/
def execReset (s : State) : Host.Outcome State Fault Refusal :=
  .next (s.runCommand resetStage)

end Sys2Proof.Machine
end

