-- ==== Sys2Proof/Machine/Decoder.lean ====
section
/-! DEFINITION. The Decoder: DECODE (spec/46_decode.md). -/

namespace Sys2Proof.Machine

/-- The symbol whose codeword is exactly `acc` (R218). At most one exists while CT_VALID holds; the
least is taken otherwise (DESIGN CHOICE, assumption 8). -/
def matchSymbol (hw : Hardware) (c : Arch) (acc : Bits) : Option Nat :=
  (List.range hw.nSym).find? fun s =>
    decide ((c.ctLen.read s).toNat = acc.length ∧ (c.ctCode.read s).toNat = bitsVal acc)

/-- The loop of R215 over the bits still to read, with accumulator `acc`: the symbols emitted and
the bits left in the accumulator at the end (the residue, R219). -/
def decodeBits (hw : Hardware) (c : Arch) : Bits → Bits → List Nat × Bits
  | [], acc => ([], acc)
  | b :: rest, acc =>
    match matchSymbol hw c (acc ++ [b]) with
    | some s =>
      let tail := decodeBits hw c rest []
      (s :: tail.1, tail.2)
    | none => decodeBits hw c rest (acc ++ [b])

/-- DECODE (R215), its tests in the order of R245; every test comes before the first write. -/
def decodeStage (hw : Hardware) (c : Arch) : Result :=
  if !c.ctValid then .raised .noTable 0#32 c
  else if 8 * hw.bitsCap < c.bitLen.toNat then .raised .length c.bitLen c
  else
    let out := decodeBits hw c c.currentBits []
    if hw.textCap < out.1.length then .raised .overflow (BitVec.ofNat 32 out.1.length) c
    else
      .done { c with
        text := c.text.writeBlock 0 (out.1.map (BitVec.ofNat 32))
        textLen := BitVec.ofNat 32 out.1.length
        resid := BitVec.ofNat 32 out.2.length }

/-- DECODE, command word 0x00000006. -/
def execDecode (s : State) : Host.Outcome State Fault Refusal :=
  .next (s.runCommand decodeStage)

end Sys2Proof.Machine
end

