-- ==== Sys2Proof/Machine/Encoder.lean ====
section
/-! DEFINITION. The Encoder: ENCODE (spec/45_encode.md). -/

namespace Sys2Proof.Machine

/-- The lowest index of the text whose symbol has no codeword (R202). -/
def firstUnencodable (c : Arch) : Option Nat :=
  (List.range c.textLen.toNat).find? fun i =>
    decide ((c.ctLen.read (c.symbolAt i)).toNat = 0)

/-- `L`, the exact number of bits of the output (R204). -/
def encodedLength (c : Arch) : Nat :=
  (c.currentText.map fun s => (c.ctLen.read s).toNat).sum

/-- The output bit sequence: the codewords in input order, nothing between them (R203). -/
def encodedBits (c : Arch) : Bits := c.currentText.flatMap c.codeword

/-- ENCODE (R200), its tests in the order of R245; every test comes before the first write. -/
def encodeStage (hw : Hardware) (c : Arch) : Result :=
  if !c.ctValid then .raised .noTable 0#32 c
  else if hw.textCap < c.textLen.toNat then .raised .length c.textLen c
  else
    match firstUnencodable c with
    | some i => .raised .symbol (halves i (c.symbolAt i)) c
    | none =>
      let len := encodedLength c
      if 8 * hw.bitsCap < len then .raised .overflow (BitVec.ofNat 32 len) c
      else
        .done { c with
          bits := c.bits.writeBlock 0 (packBytes (byteCount len) (encodedBits c))
          bitLen := BitVec.ofNat 32 len }

/-- ENCODE, command word 0x00000005. -/
def execEncode (s : State) : Host.Outcome State Fault Refusal :=
  .next (s.runCommand encodeStage)

end Sys2Proof.Machine
end

