-- ==== Sys2Proof/Machine/HostAccess.lean ====
section
/-! DEFINITION. The host transactions RD and WR, and the dispatch of a command word
(spec/40_host_access.md; address map spec/20_memory.md R62, R63). -/

namespace Sys2Proof.Machine

/-! ### RD -/

/-- A control register (region 0) as read; nothing at an offset the table of R22 lacks. -/
def readRegister (hw : Hardware) (c : Arch) (off : Nat) : Option Word :=
  match off with
  | 0x0 => some 0#32
  | 0x1 => some c.statusWord
  | 0x2 => some c.errInfo
  | 0x3 => some c.textLen
  | 0x4 => some c.bitLen
  | 0x5 => some c.resid
  | 0x6 => some c.root
  | 0x7 => some c.nleaf
  | 0x8 => some idWord
  | 0x9 => some (cfgWord hw)
  | 0xA => some (BitVec.ofNat 32 hw.textCap)
  | 0xB => some (BitVec.ofNat 32 hw.bitsCap)
  | _ => none

/-- An entry of a memory of a given depth as read; nothing at or beyond the depth (R123). -/
def readEntry (m : Memory) (depth off : Nat) : Option Word :=
  if off < depth then some (m.read off) else none

/-- What a read of an address finds; nothing at an unmapped address (R62, R121, R123). -/
def hostRead (hw : Hardware) (c : Arch) (a : Addr) : Option Word :=
  match region a with
  | 0x0 => readRegister hw c (offset a)
  | 0x1 => readEntry c.text hw.textCap (offset a)
  | 0x2 => readEntry c.bits hw.bitsCap (offset a)
  | 0x3 => readEntry c.freq hw.nSym (offset a)
  | 0x4 => readEntry c.ctLen hw.nSym (offset a)
  | 0x5 => readEntry c.ctCode hw.nSym (offset a)
  | 0x6 => readEntry c.nodeW hw.arenaDepth (offset a)
  | 0x7 => readEntry c.nodeLR hw.arenaDepth (offset a)
  | _ => none

/-- The reply of a read (R121). -/
def readReply : Option Word → Reply
  | some w => Reply.found w
  | none => Reply.refused

/-- RD (R121). -/
def execRd (a : Addr) (s : State) : Host.Outcome State Fault Refusal :=
  .next (s.reply (readReply (hostRead s.hw s.arch a)))

/-! ### WR -/

/-- The state after an accepted write to an address other than CMD; nothing where the write is
refused, at a read-only (R122) or unmapped (R123) address. Writes to FREQ clear TREE_VALID, writes
to the code table clear CT_VALID (R125). -/
def hostWrite (hw : Hardware) (c : Arch) (a : Addr) (v : Word) : Option Arch :=
  let off := offset a
  match region a with
  | 0x0 =>
    match off with
    | 0x3 => some { c with textLen := v }
    | 0x4 => some { c with bitLen := v }
    | _ => none
  | 0x1 =>
    if off < hw.textCap then some { c with text := c.text.write off (lowBits hw.symw v) } else none
  | 0x2 =>
    if off < hw.bitsCap then some { c with bits := c.bits.write off (lowBits 8 v) } else none
  | 0x3 =>
    if off < hw.nSym then
      some { c with freq := c.freq.write off (lowBits hw.cntw v) }.freqChanged
    else none
  | 0x4 =>
    if off < hw.nSym then
      some { c with ctLen := c.ctLen.write off (lowBits 6 v) }.tableTouched
    else none
  | 0x5 =>
    if off < hw.nSym then
      some { c with ctCode := c.ctCode.write off (lowBits hw.maxlen v) }.tableTouched
    else none
  | _ => none

/-- An illegal command word: `raise ERR_ILLCMD(w)` (R94, R124, R242). -/
def illegalStage (w : Word) (_ : Hardware) (c : Arch) : Result := .raised .illCmd w c

/-- DISPATCH (R124): the write of `w` to CMD runs the command that `w` encodes. -/
def dispatchCommand (w : Word) (s : State) : Host.Outcome State Fault Refusal :=
  match decodeCommand w with
  | .ok .nop => execNop s
  | .ok .freq => execFreq s
  | .ok .tree => execTree s
  | .ok .derive => execDerive s
  | .ok .build => execBuild s
  | .ok .encode => execEncode s
  | .ok .decode => execDecode s
  | .ok .ctclr => execCtclr s
  | .ok .ctchk => execCtchk s
  | .ok .reset => execReset s
  | .ok (.rd _) => .next (s.runCommand (illegalStage w))
  | .ok (.wr _ _) => .next (s.runCommand (illegalStage w))
  | .error _ => .next (s.runCommand (illegalStage w))

/-- The state and reply after a write to an address other than CMD (R122, R123, R125). -/
def State.write (s : State) (a : Addr) (v : Word) : State :=
  match hostWrite s.hw s.arch a v with
  | some c => { s with arch := c }.reply Reply.accepted
  | none => s.reply Reply.refused

/-- WR (R125). -/
def execWr (a : Addr) (v : Word) (s : State) : Host.Outcome State Fault Refusal :=
  if a = cmdAddr then dispatchCommand v s else .next (s.write a v)

end Sys2Proof.Machine
end

