-- ==== Sys2Proof/Machine/Step.lean ====
section
/-! DEFINITION. The step: one input taken from the host port (spec/00_scope.md R8;
spec/40_host_access.md R120; spec/70_reset_and_hazards.md R270, R286). -/

namespace Sys2Proof.Machine

/-- One step. With nothing pending at the port nothing happens (assumption 3). -/
def step (s : State) : Host.Outcome State Fault Refusal :=
  match s.fetch with
  | .idle => .next s
  | .afterReset s' => .next s'
  | .instruction i s' => exec i s'

/-- `s` with the transaction that carries a table row's number put first at the host port, where
`step` takes its next input. -/
def State.withFetchWord (s : State) (nbits w : Nat) : State := s.offer (carrierOfTable nbits w)

end Sys2Proof.Machine
end

