-- ==== Sys2Proof/Safety.lean ====
section
/-! DEFINITION. What counts as a good state and a completed command, in the terms the statements
use: the form of the memories (spec/10_state.md R33), CTOK (R42), the arena invariant (R43), and
the address map by numbers (spec/20_memory.md R62, spec/40_host_access.md R122). -/

namespace Sys2Proof.Machine

/-! ### Invariants -/

/-- One memory: canonical form, indexes inside the depth, entries of the width (R33). -/
abbrev Memory.Ok (m : Memory) (depth width : Nat) : Prop :=
  m.wf = true ∧ m.fits depth width = true

/-- The seven memories, with the depths and widths of R33. -/
structure Arch.MemoriesOk (hw : Hardware) (c : Arch) : Prop where
  text : c.text.Ok hw.textCap hw.symw
  bits : c.bits.Ok hw.bitsCap 8
  freq : c.freq.Ok hw.nSym hw.cntw
  ctLen : c.ctLen.Ok hw.nSym 6
  ctCode : c.ctCode.Ok hw.nSym hw.maxlen
  nodeW : c.nodeW.Ok hw.arenaDepth hw.weightWidth
  nodeLR : c.nodeLR.Ok hw.arenaDepth 32

/-- ROOT and NLEAF hold values of `SYMW + 1` bits; the upper bits read 0 (R29, R30). -/
structure Arch.RegistersOk (hw : Hardware) (c : Arch) : Prop where
  root : c.root.toNat < 2 ^ (hw.symw + 1)
  nleaf : c.nleaf.toNat < 2 ^ (hw.symw + 1)

/-- CTOK, clauses (a) to (d) of R42 in order. -/
structure Arch.CtOk (hw : Hardware) (c : Arch) : Prop where
  lengths : ∀ s < hw.nSym, (c.ctLen.read s).toNat ≤ hw.maxlen
  codes : ∀ s < hw.nSym, (c.ctCode.read s).toNat < 2 ^ (c.ctLen.read s).toNat
  nonempty : ∃ s < hw.nSym, 0 < (c.ctLen.read s).toNat
  prefixFree : ∀ s < hw.nSym, ∀ t < hw.nSym, s ≠ t →
    0 < (c.ctLen.read s).toNat → 0 < (c.ctLen.read t).toNat →
    ¬ (c.codeword s <+: c.codeword t)

/-- The left child of node `n`, `NODE_LR[n][15:0]` (R39). -/
def Arch.leftOf (c : Arch) (n : Nat) : Nat := lowHalf (c.nodeLR.read n)

/-- The right child of node `n`, `NODE_LR[n][31:16]` (R39). -/
def Arch.rightOf (c : Arch) (n : Nat) : Nat := highHalf (c.nodeLR.read n)

/-- `NODE_W[n]` as a number. -/
def Arch.weightOf (c : Arch) (n : Nat) : Nat := (c.nodeW.read n).toNat

/-- `x` is a present leaf or an internal node of the tree with root ROOT (R43). -/
abbrev Arch.IsNode (hw : Hardware) (c : Arch) (x : Nat) : Prop :=
  (x < hw.nSym ∧ 0 < (c.freq.read x).toNat) ∨ (hw.nSym ≤ x ∧ x ≤ c.root.toNat)

/-- The children of the internal nodes `N_SYM .. ROOT` in order of id, left before right: the
order in which the merge popped them. -/
def Arch.childIds (hw : Hardware) (c : Arch) : List Nat :=
  (List.range (c.root.toNat + 1 - hw.nSym)).flatMap fun i =>
    [c.leftOf (hw.nSym + i), c.rightOf (hw.nSym + i)]

/-- The arena invariant: clauses (a) to (f) of R43, and NODE_LR of the leaves (R39). -/
structure Arch.ArenaOk (hw : Hardware) (c : Arch) : Prop where
  /-- (a) -/
  leafCount : c.nleaf.toNat = (c.counted hw).length ∧ 1 ≤ (c.counted hw).length
  /-- (a) -/
  leafWeights : ∀ s < hw.nSym, c.nodeW.read s = c.freq.read s
  /-- (b) -/
  loneRoot : (c.counted hw).length = 1 → c.counted hw = [c.root.toNat]
  /-- (b) -/
  lastRoot : 2 ≤ (c.counted hw).length → c.root.toNat = hw.nSym + (c.counted hw).length - 2
  /-- (c) -/
  children : ∀ n ≤ c.root.toNat, hw.nSym ≤ n →
    (c.leftOf n < n ∧ c.IsNode hw (c.leftOf n)) ∧ (c.rightOf n < n ∧ c.IsNode hw (c.rightOf n)) ∧
    c.weightOf n = c.weightOf (c.leftOf n) + c.weightOf (c.rightOf n)
  /-- (d) -/
  oneParent : ∀ x ≤ c.root.toNat, c.IsNode hw x → x ≠ c.root.toNat → (c.childIds hw).count x = 1
  /-- (d) -/
  rootNoChild : (c.childIds hw).count c.root.toNat = 0
  /-- (e) -/
  rootWeight :
    c.weightOf c.root.toNat = ((c.counted hw).map fun s => (c.freq.read s).toNat).sum
  /-- (f) -/
  cleared : ∀ n < hw.arenaDepth, hw.nSym ≤ n → c.root.toNat < n →
    c.nodeW.read n = 0#32 ∧ c.nodeLR.read n = 0#32
  /-- R39 -/
  leafChildren : ∀ s < hw.nSym, c.nodeLR.read s = 0#32

/-- `code` gives every node of the tree with root ROOT its path: left edge 1 and right edge 0, root
edge first (R170, R171), and the lone leaf `[1]` (R172). -/
structure Arch.PathCodes (hw : Hardware) (c : Arch) (code : Nat → Bits) : Prop where
  loneLeaf : c.root.toNat < hw.nSym → code c.root.toNat = [true]
  root : hw.nSym ≤ c.root.toNat → code c.root.toNat = []
  edges : ∀ n ≤ c.root.toNat, hw.nSym ≤ n →
    code (c.leftOf n) = code n ++ [true] ∧ code (c.rightOf n) = code n ++ [false]

/-- The invariant of the machine. -/
structure State.Inv (s : State) : Prop where
  memories : s.arch.MemoriesOk s.hw
  registers : s.arch.RegistersOk s.hw
  /-- "STATUS.CT_VALID = 1 implies CTOK" (R42). -/
  table : s.arch.ctValid = true → s.arch.CtOk s.hw
  /-- The arena "while STATUS.TREE_VALID = 1" (R43). -/
  arena : s.arch.treeValid = true → s.arch.ArenaOk s.hw

/-! ### How an instruction ends -/

/-- The state after a command or an accepted write that leaves the architectural state `c`: the
transaction is answered `OKAY` with word 0, and nothing else of the port or the hardware changes. -/
def State.finished (s : State) (c : Arch) : State :=
  { s with arch := c, replies := s.replies ++ [Reply.accepted] }

/-- The state after a transaction answered `ERROR`: only the reply is new. -/
def State.turnedAway (s : State) : State :=
  { s with replies := s.replies ++ [Reply.refused] }

/-- The state after a read that found `w`: only the reply is new. -/
def State.told (s : State) (w : Word) : State :=
  { s with replies := s.replies ++ [Reply.found w] }

/-- `after` reads as `before` everywhere but at the indexes `lo .. hi-1`. -/
def Memory.SameOutside (before after : Memory) (lo hi : Nat) : Prop :=
  ∀ i, ¬ (lo ≤ i ∧ i < hi) → after.read i = before.read i

/-! ### The address map by numbers -/

/-- The addresses R62 calls unmapped. -/
abbrev Unmapped (hw : Hardware) (a : Nat) : Prop :=
  (0x0000C ≤ a ∧ a < 0x10000) ∨ (0x10000 + hw.textCap ≤ a ∧ a < 0x20000) ∨
  (0x20000 + hw.bitsCap ≤ a ∧ a < 0x30000) ∨ (0x30000 + hw.nSym ≤ a ∧ a < 0x40000) ∨
  (0x40000 + hw.nSym ≤ a ∧ a < 0x50000) ∨ (0x50000 + hw.nSym ≤ a ∧ a < 0x60000) ∨
  (0x60000 + hw.arenaDepth ≤ a ∧ a < 0x70000) ∨ (0x70000 + hw.arenaDepth ≤ a ∧ a < 0x80000) ∨
  0x80000 ≤ a

/-- The read-only locations of R122, mapped or not in regions 0x6 and 0x7. -/
abbrev ReadOnly (a : Nat) : Prop :=
  a = 0x1 ∨ a = 0x2 ∨ (0x5 ≤ a ∧ a ≤ 0xB) ∨ (0x60000 ≤ a ∧ a < 0x80000)

/-- The ten command words and their commands, the table of R93. -/
def commandWords : List (Word × Instr) :=
  [(0x00000000#32, .nop), (0x00000001#32, .freq), (0x00000002#32, .tree), (0x00000003#32, .derive),
   (0x00000004#32, .build), (0x00000005#32, .encode), (0x00000006#32, .decode),
   (0x00000007#32, .ctclr), (0x00000008#32, .ctchk), (0x0000000F#32, .reset)]

/-- The command constructors. -/
def commands : List Instr := commandWords.map Prod.snd

/-- The word address `base + i` of entry `i` of the memory whose region starts at `base` (R63). -/
def entryAddr (base i : Nat) : Addr := BitVec.ofNat 20 (base + i)

end Sys2Proof.Machine
end

