-- ==== Sys2Proof/Certificates/Slice0/Obligations.lean ====
section
/-! DEFINITION. The statements for the provers. In each one `s.finished c` says that the transaction
was answered `OKAY` with word 0, that the architectural state is `c`, and that nothing else of the
port and no parameter changed; a record update `c with ...` names every field that may differ. -/

open Sys2Proof Sys2Proof.Machine

/-! ### Encodings and the step -/

/-- Words written out from the tables of R93 and R90 decode to what they stand for. -/
def Obligations.SampleWordsDecode : Prop :=
  decodeCommand 0x00000000#32 = .ok .nop ∧ decodeCommand 0x00000001#32 = .ok .freq ∧
  decodeCommand 0x00000002#32 = .ok .tree ∧ decodeCommand 0x00000004#32 = .ok .build ∧
  decodeCommand 0x00000008#32 = .ok .ctchk ∧ decodeCommand 0x0000000F#32 = .ok .reset ∧
  decodeBus 0x10000300000017#53 = .wr 0x00003#20 23#32 ∧
  decodeBus 0x14006100000001#53 = .wr 0x40061#20 1#32 ∧
  decodeBus 0x00000900000000#53 = .rd 0x00009#20

/-- Decode and encode agree on every well-formed instruction, also through the transaction that
carries a command word. -/
def Obligations.DecodeOfEncodeAgrees : Prop :=
  ∀ i : Instr, i.wf = true →
    decode (encode i) = .ok i ∧
    (i ∈ commands →
      ∃ w, encode i = .cmd w ∧ (w, i) ∈ commandWords ∧
        decodeBus (carrier (encode i)) = .wr 0x00000#20 w) ∧
    (i ∉ commands → decodeBus (carrier (encode i)) = i)

/-- No bit of an encoding is dropped but the ignored data of a read (R90). -/
def Obligations.EncodeOfDecodeAgrees : Prop :=
  (∀ w i, decode (.cmd w) = .ok i → encode i = .cmd w) ∧
  (∀ (t : Triple) i, t.getLsbD 52 = true → decode (.bus t) = .ok i → encode i = .bus t) ∧
  (∀ (t : Triple) i, t.getLsbD 52 = false → decode (.bus t) = .ok i →
    encode i = .bus (t &&& 0x0FFFFF00000000#53))

/-- A write of exactly a command word to CMD runs that command, and the two transactions are told
apart by the `kind` bit of the triple (R93). -/
def Obligations.CommandWordsRunTheirCommands : Prop :=
  (∀ (s : State), ∀ p ∈ commandWords, exec (.wr 0x00000#20 p.1) s = exec p.2 s) ∧
  (∀ t : Triple,
    (t.getLsbD 52 = false → decodeBus t = .rd (t.extractLsb' 32 20)) ∧
    (t.getLsbD 52 = true → decodeBus t = .wr (t.extractLsb' 32 20) (t.extractLsb' 0 32)))

/-- Every other word written to CMD is illegal (R94, R242). -/
def Obligations.IllegalWordsRaiseIllcmd : Prop :=
  ∀ (s : State) (w : Word), w ∉ commandWords.map Prod.fst →
    exec (.wr 0x00000#20 w) s = .next (s.finished { s.arch with err := .illCmd, errInfo := w })

/-- A step runs the decoded transaction at the head of the port, and takes it from the port. -/
def Obligations.StepRunsTheDecodedTransaction : Prop :=
  ∀ (s : State) (t : Triple) (rest : List Input), s.requests = .transaction t :: rest →
    step s = exec (decodeBus t) { s with requests := rest }

/-- A step on the transaction that carries an encoded instruction runs that instruction, a command
through the CMD register included; so does the host's own way of placing a word. -/
def Obligations.StepRunsEveryInstruction : Prop :=
  ∀ (s : State) (i : Instr),
    (∀ rest, s.requests = .transaction (carrier (encode i)) :: rest →
      step s = exec i { s with requests := rest }) ∧
    (∀ nbits w, decodeTableWord nbits w = some i → step (s.withFetchWord nbits w) = exec i s)

/-- Every transaction has exactly one outcome, a next state: one reply is added, the next one in
the queue is up, an `ERROR` reply carries word 0 and comes with no change of the core (R13, R60). -/
def Obligations.EveryTransactionCompletes : Prop :=
  ∀ (s : State) (t : Triple) (rest : List Input), s.requests = .transaction t :: rest →
    ∃ c r, step s = .next { hw := s.hw, arch := c, requests := rest, replies := s.replies ++ [r] } ∧
      (r.response = .error → r.data = 0#32 ∧ c = s.arch) ∧
      (t.getLsbD 52 = true → r.data = 0#32) ∧ (t.getLsbD 52 = false → c = s.arch)

/-- The hardware reset event, whatever the state before (R270). -/
def Obligations.HardwareResetEvent : Prop :=
  ∀ (s : State) (rest : List Input), s.requests = .hardwareReset :: rest →
    step s = .next { State.resetOf s.hw with requests := rest, replies := s.replies }

/-- The state after hardware reset, after the RESET command, and at the start of a run (R44). -/
def Obligations.ResetStateValues : Prop :=
  ∀ s u : State,
    (exec .reset s = .next u ∨ (s.requests.head? = some .hardwareReset ∧ step s = .next u) ∨
      u = State.resetOf s.hw) →
    u.hw = s.hw ∧ (u.arch.ctValid = false ∧ u.arch.treeValid = false ∧ u.arch.err = .ok) ∧
    (u.arch.errInfo = 0#32 ∧ u.arch.textLen = 0#32 ∧ u.arch.bitLen = 0#32 ∧
      u.arch.resid = 0#32 ∧ u.arch.root = 0#32 ∧ u.arch.nleaf = 0#32) ∧
    (exec (.rd 0x00001#20) u = .next (u.told 0#32) ∧
      exec (.rd 0x00008#20) u = .next (u.told 0x48434301#32) ∧
      exec (.rd 0x00009#20) u =
        .next (u.told (BitVec.ofNat 32 (s.hw.symw + s.hw.maxlen * 32 + s.hw.cntw * 2048))) ∧
      exec (.rd 0x0000A#20) u = .next (u.told (BitVec.ofNat 32 s.hw.textCap)) ∧
      exec (.rd 0x0000B#20) u = .next (u.told (BitVec.ofNat 32 s.hw.bitsCap))) ∧
    ∀ i, u.arch.text.read i = 0#32 ∧ u.arch.bits.read i = 0#32 ∧ u.arch.freq.read i = 0#32 ∧
      u.arch.ctLen.read i = 0#32 ∧ u.arch.ctCode.read i = 0#32 ∧ u.arch.nodeW.read i = 0#32 ∧
      u.arch.nodeLR.read i = 0#32

/-! ### RD and WR -/

/-- A read changes nothing but the reply, at any address. -/
def Obligations.ReadsHaveNoSideEffect : Prop :=
  ∀ (s : State) (a : Addr),
    (∃ w, exec (.rd a) s = .next (s.told w)) ∨ exec (.rd a) s = .next s.turnedAway

/-- What each of the twelve control registers of the table of R22 reads as. -/
def Obligations.RegisterReads : Prop :=
  ∀ s : State,
    exec (.rd 0x00000#20) s = .next (s.told 0#32) ∧
    exec (.rd 0x00001#20) s = .next (s.told s.arch.statusWord) ∧
    exec (.rd 0x00002#20) s = .next (s.told s.arch.errInfo) ∧
    exec (.rd 0x00003#20) s = .next (s.told s.arch.textLen) ∧
    exec (.rd 0x00004#20) s = .next (s.told s.arch.bitLen) ∧
    exec (.rd 0x00005#20) s = .next (s.told s.arch.resid) ∧
    exec (.rd 0x00006#20) s = .next (s.told s.arch.root) ∧
    exec (.rd 0x00007#20) s = .next (s.told s.arch.nleaf) ∧
    exec (.rd 0x00008#20) s = .next (s.told 0x48434301#32) ∧
    exec (.rd 0x00009#20) s =
      .next (s.told (BitVec.ofNat 32 (s.hw.symw + s.hw.maxlen * 32 + s.hw.cntw * 2048))) ∧
    exec (.rd 0x0000A#20) s = .next (s.told (BitVec.ofNat 32 s.hw.textCap)) ∧
    exec (.rd 0x0000B#20) s = .next (s.told (BitVec.ofNat 32 s.hw.bitsCap))

/-- The fields of STATUS (the table of R24): BUSY, CT_VALID, TREE_VALID, reserved bits, and ERR as
the number that R240 gives each of the eleven result codes. -/
def Obligations.StatusFields : Prop :=
  ∀ s : State, ∃ w : Word, exec (.rd 0x00001#20) s = .next (s.told w) ∧
    w.getLsbD 0 = false ∧ w.getLsbD 1 = s.arch.ctValid ∧ w.getLsbD 2 = s.arch.treeValid ∧
    w.extractLsb' 3 5 = 0#5 ∧ w.extractLsb' 12 20 = 0#20 ∧
    (w.extractLsb' 8 4).toNat =
      match s.arch.err with
      | .ok => 0
      | .illCmd => 1
      | .empty => 2
      | .symbol => 3
      | .noTable => 4
      | .noTree => 5
      | .depth => 6
      | .overflow => 7
      | .length => 8
      | .prefixClash => 9
      | .entry => 10

/-- The fields of CFG, and the two capacity registers (R32). -/
def Obligations.ConfigurationFields : Prop :=
  (∀ s : State, ∃ cfg tcap bcap : Word,
    exec (.rd 0x00009#20) s = .next (s.told cfg) ∧
    (cfg.extractLsb' 0 5).toNat = s.hw.symw ∧ (cfg.extractLsb' 5 6).toNat = s.hw.maxlen ∧
    (cfg.extractLsb' 11 5).toNat = s.hw.cntw ∧ cfg.extractLsb' 16 16 = 0#16 ∧
    exec (.rd 0x0000A#20) s = .next (s.told tcap) ∧ tcap.toNat = s.hw.textCap ∧
    exec (.rd 0x0000B#20) s = .next (s.told bcap) ∧ bcap.toNat = s.hw.bitsCap) ∧
  (∀ s : State, s.hw = Hardware.defaults →
    exec (.rd 0x00009#20) s = .next (s.told 0x0000C408#32)) ∧
  (∀ (s : State) (v : Word), exec (.wr 0x00009#20 v) s = .next s.turnedAway ∧
    exec (.wr 0x0000A#20 v) s = .next s.turnedAway ∧
    exec (.wr 0x0000B#20 v) s = .next s.turnedAway)

/-- The word at offset `i` of a memory region is entry `i` of that memory (R63). -/
def Obligations.EntryReads : Prop :=
  ∀ (s : State) (i : Nat),
    (i < s.hw.textCap → exec (.rd (entryAddr 0x10000 i)) s = .next (s.told (s.arch.text.read i))) ∧
    (i < s.hw.bitsCap → exec (.rd (entryAddr 0x20000 i)) s = .next (s.told (s.arch.bits.read i))) ∧
    (i < s.hw.nSym → exec (.rd (entryAddr 0x30000 i)) s = .next (s.told (s.arch.freq.read i))) ∧
    (i < s.hw.nSym → exec (.rd (entryAddr 0x40000 i)) s = .next (s.told (s.arch.ctLen.read i))) ∧
    (i < s.hw.nSym → exec (.rd (entryAddr 0x50000 i)) s = .next (s.told (s.arch.ctCode.read i))) ∧
    (i < 2 * s.hw.nSym - 1 →
      exec (.rd (entryAddr 0x60000 i)) s = .next (s.told (s.arch.nodeW.read i))) ∧
    (i < 2 * s.hw.nSym - 1 →
      exec (.rd (entryAddr 0x70000 i)) s = .next (s.told (s.arch.nodeLR.read i)))

/-- An unmapped address answers `ERROR`, and nothing changes (R123). -/
def Obligations.UnmappedAddressesAnswerError : Prop :=
  ∀ (s : State) (a : Addr) (v : Word), Unmapped s.hw a.toNat →
    exec (.rd a) s = .next s.turnedAway ∧ exec (.wr a v) s = .next s.turnedAway

/-- A write to a read-only location answers `ERROR`, and nothing changes (R122). -/
def Obligations.ReadOnlyWritesAnswerError : Prop :=
  ∀ (s : State) (a : Addr) (v : Word), ReadOnly a.toNat → exec (.wr a v) s = .next s.turnedAway

/-- A write stores the low bits of the data, as many as the entry is wide, and a read after it
returns them (R68). -/
def Obligations.WriteThenReadTruncates : Prop :=
  ∀ (s : State) (v : Word) (i : Nat),
    (i < s.hw.textCap → ∃ t, exec (.wr (entryAddr 0x10000 i) v) s = .next t ∧
      exec (.rd (entryAddr 0x10000 i)) t = .next (t.told (BitVec.ofNat 32 (v.toNat % 2 ^ s.hw.symw)))) ∧
    (i < s.hw.bitsCap → ∃ t, exec (.wr (entryAddr 0x20000 i) v) s = .next t ∧
      exec (.rd (entryAddr 0x20000 i)) t = .next (t.told (BitVec.ofNat 32 (v.toNat % 256)))) ∧
    (i < s.hw.nSym → ∃ t, exec (.wr (entryAddr 0x30000 i) v) s = .next t ∧
      exec (.rd (entryAddr 0x30000 i)) t = .next (t.told (BitVec.ofNat 32 (v.toNat % 2 ^ s.hw.cntw)))) ∧
    (i < s.hw.nSym → ∃ t, exec (.wr (entryAddr 0x40000 i) v) s = .next t ∧
      exec (.rd (entryAddr 0x40000 i)) t = .next (t.told (BitVec.ofNat 32 (v.toNat % 64)))) ∧
    (i < s.hw.nSym → ∃ t, exec (.wr (entryAddr 0x50000 i) v) s = .next t ∧
      exec (.rd (entryAddr 0x50000 i)) t = .next (t.told (BitVec.ofNat 32 (v.toNat % 2 ^ s.hw.maxlen)))) ∧
    (∃ t, exec (.wr 0x00003#20 v) s = .next t ∧ exec (.rd 0x00003#20) t = .next (t.told v)) ∧
    (∃ t, exec (.wr 0x00004#20 v) s = .next t ∧ exec (.rd 0x00004#20) t = .next (t.told v))

/-- Frame of the writes that clear no flag: TEXT, BITS, TEXT_LEN, BIT_LEN. -/
def Obligations.BufferWriteFrame : Prop :=
  ∀ (s : State) (v : Word) (i : Nat),
    (i < s.hw.textCap → ∃ m, exec (.wr (entryAddr 0x10000 i) v) s =
        .next (s.finished { s.arch with text := m }) ∧
      (m.read i).toNat = v.toNat % 2 ^ s.hw.symw ∧ s.arch.text.SameOutside m i (i + 1)) ∧
    (i < s.hw.bitsCap → ∃ m, exec (.wr (entryAddr 0x20000 i) v) s =
        .next (s.finished { s.arch with bits := m }) ∧
      (m.read i).toNat = v.toNat % 256 ∧ s.arch.bits.SameOutside m i (i + 1)) ∧
    exec (.wr 0x00003#20 v) s = .next (s.finished { s.arch with textLen := v }) ∧
    exec (.wr 0x00004#20 v) s = .next (s.finished { s.arch with bitLen := v })

/-- Frame of the writes that clear a flag: FREQ clears TREE_VALID, CT_LEN and CT_CODE clear
CT_VALID, whatever the value written. -/
def Obligations.TableWriteFrame : Prop :=
  ∀ (s : State) (v : Word) (i : Nat), i < s.hw.nSym →
    (∃ m, exec (.wr (entryAddr 0x30000 i) v) s =
        .next (s.finished { s.arch with freq := m, treeValid := false }) ∧
      (m.read i).toNat = v.toNat % 2 ^ s.hw.cntw ∧ s.arch.freq.SameOutside m i (i + 1)) ∧
    (∃ m, exec (.wr (entryAddr 0x40000 i) v) s =
        .next (s.finished { s.arch with ctLen := m, ctValid := false }) ∧
      (m.read i).toNat = v.toNat % 64 ∧ s.arch.ctLen.SameOutside m i (i + 1)) ∧
    (∃ m, exec (.wr (entryAddr 0x50000 i) v) s =
        .next (s.finished { s.arch with ctCode := m, ctValid := false }) ∧
      (m.read i).toNat = v.toNat % 2 ^ s.hw.maxlen ∧ s.arch.ctCode.SameOutside m i (i + 1))

/-! ### Flags, result codes, errors -/

/-- Every event that changes CT_VALID, and what ENCODE and DECODE do while it is 0 (R40). A write
to CMD is the command it runs (`CommandWordsRunTheirCommands`, `IllegalWordsRaiseIllcmd`). -/
def Obligations.CtValidEvents : Prop :=
  (∀ (s t : State) (i : Instr), (∀ w, i ≠ .wr 0x00000#20 w) → exec i s = .next t →
    t.arch.ctValid =
      match i with
      | .derive => if t.arch.err = .ok then true else s.arch.ctValid
      | .build => if t.arch.err = .ok then true else s.arch.ctValid
      | .ctchk => if t.arch.err = .ok then true else s.arch.ctValid
      | .ctclr => false
      | .reset => false
      | .wr a _ =>
        if (0x40000 ≤ a.toNat ∧ a.toNat < 0x40000 + s.hw.nSym) ∨
          (0x50000 ≤ a.toNat ∧ a.toNat < 0x50000 + s.hw.nSym) then false else s.arch.ctValid
      | .rd _ => s.arch.ctValid
      | .nop => s.arch.ctValid
      | .freq => s.arch.ctValid
      | .tree => s.arch.ctValid
      | .encode => s.arch.ctValid
      | .decode => s.arch.ctValid) ∧
  (∀ (s : State) (w : Word), w ∉ commandWords.map Prod.fst →
    ∃ t, exec (.wr 0x00000#20 w) s = .next t ∧ t.arch.ctValid = s.arch.ctValid) ∧
  (∀ (s : State) (rest : List Input), s.requests = .hardwareReset :: rest →
    ∃ t, step s = .next t ∧ t.arch.ctValid = false) ∧
  (∀ s : State, s.arch.ctValid = false →
    exec .encode s = .next (s.finished { s.arch with err := .noTable, errInfo := 0#32 }) ∧
    exec .decode s = .next (s.finished { s.arch with err := .noTable, errInfo := 0#32 }))

/-- Every event that changes TREE_VALID, and what DERIVE does while it is 0 (R41). -/
def Obligations.TreeValidEvents : Prop :=
  (∀ (s t : State) (i : Instr), (∀ w, i ≠ .wr 0x00000#20 w) → exec i s = .next t →
    t.arch.treeValid =
      match i with
      | .tree => if t.arch.err = .ok then true else s.arch.treeValid
      | .freq => if t.arch.err = .ok then false else s.arch.treeValid
      | .build =>
        if t.arch.err = .ok ∨ t.arch.err = .depth then true
        else if t.arch.err = .empty then false else s.arch.treeValid
      | .reset => false
      | .wr a _ =>
        if 0x30000 ≤ a.toNat ∧ a.toNat < 0x30000 + s.hw.nSym then false else s.arch.treeValid
      | .rd _ => s.arch.treeValid
      | .nop => s.arch.treeValid
      | .derive => s.arch.treeValid
      | .encode => s.arch.treeValid
      | .decode => s.arch.treeValid
      | .ctclr => s.arch.treeValid
      | .ctchk => s.arch.treeValid) ∧
  (∀ (s : State) (w : Word), w ∉ commandWords.map Prod.fst →
    ∃ t, exec (.wr 0x00000#20 w) s = .next t ∧ t.arch.treeValid = s.arch.treeValid) ∧
  (∀ (s : State) (rest : List Input), s.requests = .hardwareReset :: rest →
    ∃ t, step s = .next t ∧ t.arch.treeValid = false) ∧
  (∀ s : State, s.arch.treeValid = false →
    exec .derive s = .next (s.finished { s.arch with err := .noTree, errInfo := 0#32 }))

/-- Every command completes in every state with the `OKAY` reply, and a command that ends with
ERR = 0 leaves ERRINFO = 0 (R124's end of a command). -/
def Obligations.CommandsAlwaysComplete : Prop :=
  ∀ (s : State), ∀ i ∈ commands,
    ∃ c, exec i s = .next (s.finished c) ∧ (c.err = .ok → c.errInfo = 0#32)

/-- Bus responses and command results are separate (R126). -/
def Obligations.BusAndCommandResultsSeparate : Prop :=
  (∀ (s t : State) (a : Addr), exec (.rd a) s = .next t →
    t.arch.err = s.arch.err ∧ t.arch.errInfo = s.arch.errInfo) ∧
  (∀ (s t : State) (a : Addr) (v : Word), a ≠ 0x00000#20 → exec (.wr a v) s = .next t →
    t.arch.err = s.arch.err ∧ t.arch.errInfo = s.arch.errInfo) ∧
  (∀ (s : State) (w : Word), ∃ t, exec (.wr 0x00000#20 w) s = .next t ∧
    t.replies = s.replies ++ [{ response := .okay, data := 0#32 }])

/-- Errors are precise: a failing primitive command changes ERR and ERRINFO only; a failing BUILD
changes those two of a state that its finished stages left (R246). -/
def Obligations.ErrorsArePrecise : Prop :=
  (∀ (s : State), ∀ i ∈ commands, i ≠ .build → ∃ c, exec i s = .next (s.finished c) ∧
    (c.err ≠ .ok → c = { s.arch with err := c.err, errInfo := c.errInfo })) ∧
  (∀ s : State, ∃ c, exec .build s = .next (s.finished c) ∧ (c.err ≠ .ok →
    c = { s.arch with err := c.err, errInfo := c.errInfo } ∨
    ∃ c₁, exec .freq s = .next (s.finished c₁) ∧ c₁.err = .ok ∧
      (c = { c₁ with err := c.err, errInfo := c.errInfo } ∨
        ∃ c₂, exec .tree (s.finished c₁) = .next ((s.finished c₁).finished c₂) ∧ c₂.err = .ok ∧
          c = { c₂ with err := c.err, errInfo := c.errInfo })))

/-! ### NOP and RESET -/

/-- NOP (R231). -/
def Obligations.NopClearsTheResult : Prop :=
  ∀ s : State, exec .nop s = .next (s.finished { s.arch with err := .ok, errInfo := 0#32 })

/-- RESET: the architectural state after it is the reset state, as after hardware reset (R232). That
the pending inputs and the replies given survive both is the model's choice (assumption 6). -/
def Obligations.ResetCommandIsHardwareReset : Prop :=
  ∀ s : State, exec .reset s = .next (s.finished (State.resetOf s.hw).arch) ∧
    ∀ rest, step { s with requests := .hardwareReset :: rest } =
      .next { s with requests := rest, arch := (State.resetOf s.hw).arch }

/-! ### FREQ -/

/-- FREQ counts the current text from zero, clears TREE_VALID and changes nothing else (R140); a
length above the capacity is an error, and then nothing else changes (R141). -/
def Obligations.FreqCountsTheText : Prop :=
  (∀ s : State, s.arch.textLen.toNat ≤ s.hw.textCap →
    ∃ m, exec .freq s = .next (s.finished
        { s.arch with freq := m, treeValid := false, err := .ok, errInfo := 0#32 }) ∧
      (∀ x < s.hw.nSym, (m.read x).toNat =
        (List.range s.arch.textLen.toNat).countP
          (fun i => decide ((s.arch.text.read i).toNat = x))) ∧
      s.arch.freq.SameOutside m 0 s.hw.nSym) ∧
  (∀ s : State, s.hw.textCap < s.arch.textLen.toNat →
    exec .freq s = .next (s.finished { s.arch with err := .length, errInfo := s.arch.textLen }))

/-- After a successful FREQ every count fits its entry, and the counts sum to the text's length
(R142). The premise is the invariant that every stored symbol is below `N_SYM`. -/
def Obligations.FreqCountsFitAndSum : Prop :=
  ∀ (s : State) (c : Arch), s.arch.MemoriesOk s.hw → s.arch.textLen.toNat ≤ s.hw.textCap →
    exec .freq s = .next (s.finished c) →
    (∀ x < s.hw.nSym, (c.freq.read x).toNat < 2 ^ s.hw.cntw ∧
      (c.freq.read x).toNat ≤ s.arch.textLen.toNat) ∧
    ((List.range s.hw.nSym).map fun x => (c.freq.read x).toNat).sum = s.arch.textLen.toNat

/-! ### TREE -/

/-- The priority queue keeps the order of R10 and loses nothing, so its head is the least pair. -/
def Obligations.QueueHeadIsLeast : Prop :=
  ∀ (k : Key) (q : List Key),
    q.Pairwise (fun a b => a.before b = true) → (∀ x ∈ q, x.id ≠ k.id) →
    (queuePush k q).Pairwise (fun a b => a.before b = true) ∧ (queuePush k q).Perm (k :: q) ∧
    ∀ h ∈ (queuePush k q).head?, ∀ x ∈ k :: q, x ≠ h →
      h.weight < x.weight ∨ h.weight = x.weight ∧ h.id < x.id

/-- TREE on an empty map (R154). -/
def Obligations.TreeRefusesEmptyMap : Prop :=
  (∀ s : State, (∀ x < s.hw.nSym, (s.arch.freq.read x).toNat = 0) →
    exec .tree s = .next (s.finished { s.arch with err := .empty, errInfo := 0#32 })) ∧
  (∀ s : State, s.Inv → (∀ x < s.hw.nSym, (s.arch.freq.read x).toNat = 0) →
    s.arch.treeValid = false)

/-- TREE on a map with one symbol: a single leaf, every internal entry zeroed (R155). -/
def Obligations.TreeOfOneSymbol : Prop :=
  ∀ (s : State) (x : Nat), x < s.hw.nSym → 0 < (s.arch.freq.read x).toNat →
    (∀ y < s.hw.nSym, y ≠ x → (s.arch.freq.read y).toNat = 0) →
    ∃ w lr, exec .tree s = .next (s.finished
        { s.arch with nodeW := w, nodeLR := lr, root := BitVec.ofNat 32 x, nleaf := 1#32,
                      treeValid := true, err := .ok, errInfo := 0#32 }) ∧
      x < 2 ^ 32 ∧
      (∀ y < s.hw.nSym, w.read y = s.arch.freq.read y) ∧
      (∀ n, s.hw.nSym ≤ n → n < s.hw.arenaDepth → w.read n = 0#32) ∧
      (∀ n < s.hw.arenaDepth, lr.read n = 0#32) ∧
      s.arch.nodeW.SameOutside w 0 s.hw.arenaDepth ∧
      s.arch.nodeLR.SameOutside lr 0 s.hw.arenaDepth

/-- TREE on a non-empty map completes, and the arena it leaves meets R43: a strict tree with `k - 1`
internal nodes over exactly the present leaves, every weight the sum of its children's. -/
def Obligations.TreeBuildsTheArena : Prop :=
  ∀ s : State, s.arch.MemoriesOk s.hw → (∃ x < s.hw.nSym, 0 < (s.arch.freq.read x).toNat) →
    ∃ w lr r k, exec .tree s = .next (s.finished
        { s.arch with nodeW := w, nodeLR := lr, root := r, nleaf := k,
                      treeValid := true, err := .ok, errInfo := 0#32 }) ∧
      Arch.ArenaOk s.hw { s.arch with nodeW := w, nodeLR := lr, root := r, nleaf := k } ∧
      s.arch.nodeW.SameOutside w 0 s.hw.arenaDepth ∧
      s.arch.nodeLR.SameOutside lr 0 s.hw.arenaDepth

/-- The merge pops the nodes in the order of R10, so of two nodes of equal weight a leaf is popped
before an internal node, a lower symbol before a higher, and an earlier node before a later (R156):
read in order of creation, left child before right, the children strictly rise in that order. -/
def Obligations.TreePopsInKeyOrder : Prop :=
  ∀ (s : State) (c : Arch), s.arch.MemoriesOk s.hw → exec .tree s = .next (s.finished c) →
    c.err = .ok →
    (c.childIds s.hw).Pairwise fun x y =>
      c.weightOf x < c.weightOf y ∨ c.weightOf x = c.weightOf y ∧ x < y

/-- Two TREE commands on equal FREQ contents leave equal arenas, ROOT and NLEAF (R160). -/
def Obligations.TreeDependsOnFreqOnly : Prop :=
  ∀ (s u : State) (c d : Arch), s.hw = u.hw →
    (∀ x < s.hw.nSym, s.arch.freq.read x = u.arch.freq.read x) →
    exec .tree s = .next (s.finished c) → exec .tree u = .next (u.finished d) →
    c.err = d.err ∧
    (c.err = .ok → c.root = d.root ∧ c.nleaf = d.nleaf ∧
      ∀ n < s.hw.arenaDepth, c.nodeW.read n = d.nodeW.read n ∧ c.nodeLR.read n = d.nodeLR.read n)

/-! ### DERIVE -/

/-- DERIVE binds every leaf to its path from ROOT, left edge 1 and right edge 0, the lone leaf to
`[1]` (R171, R172). No path is longer than `NLEAF - 1` edges (R173). When every path fits `MAXLEN`
it writes the table; when one does not it raises `ERR_DEPTH` with the least such symbol and its
depth; with TREE_VALID 0 it raises `ERR_NOTREE` (R170, R173). The premise of the first part is the
invariant of R43. -/
def Obligations.DeriveBindsPathCodes : Prop :=
  (∀ s : State, s.Inv → s.arch.treeValid = true →
    ∃ code : Nat → Bits, s.arch.PathCodes s.hw code ∧
      (s.hw.nSym ≤ s.arch.root.toNat →
        ∀ x ∈ s.arch.counted s.hw, (code x).length ≤ s.arch.nleaf.toNat - 1) ∧
      ((∀ x ∈ s.arch.counted s.hw, (code x).length ≤ s.hw.maxlen) →
        ∃ l m, exec .derive s = .next (s.finished
            { s.arch with ctLen := l, ctCode := m, ctValid := true, err := .ok, errInfo := 0#32 }) ∧
          (∀ x ∈ s.arch.counted s.hw,
            (l.read x).toNat = (code x).length ∧ (m.read x).toNat = bitsVal (code x)) ∧
          (∀ x < s.hw.nSym, x ∉ s.arch.counted s.hw → l.read x = 0#32 ∧ m.read x = 0#32) ∧
          s.arch.ctLen.SameOutside l 0 s.hw.nSym ∧ s.arch.ctCode.SameOutside m 0 s.hw.nSym) ∧
      (∀ x ∈ s.arch.counted s.hw, s.hw.maxlen < (code x).length →
        (∀ y ∈ s.arch.counted s.hw, y < x → (code y).length ≤ s.hw.maxlen) →
        exec .derive s = .next (s.finished
          { s.arch with err := .depth, errInfo := halves (code x).length x }))) ∧
  (∀ s : State, s.arch.treeValid = false →
    exec .derive s = .next (s.finished { s.arch with err := .noTree, errInfo := 0#32 }))

/-- What a successful DERIVE establishes: a codeword for exactly the leaves, which are the symbols
with a positive count, and a prefix code (R174). -/
def Obligations.DeriveEstablishesPrefixCode : Prop :=
  ∀ (s : State) (c : Arch), s.Inv → s.arch.treeValid = true →
    exec .derive s = .next (s.finished c) → c.err = .ok →
    (∀ x < s.hw.nSym, (0 < (c.ctLen.read x).toNat ↔ 0 < (c.nodeW.read x).toNat) ∧
      (0 < (c.ctLen.read x).toNat ↔ 0 < (c.freq.read x).toNat)) ∧
    c.CtOk s.hw ∧ c.ctValid = true

/-- DERIVE always succeeds when `NLEAF - 1 <= MAXLEN` (R173's guarantee). -/
def Obligations.DeriveSucceedsWithinDepth : Prop :=
  ∀ s : State, s.Inv → s.arch.treeValid = true → s.arch.nleaf.toNat - 1 ≤ s.hw.maxlen →
    ∃ l m, exec .derive s = .next (s.finished
      { s.arch with ctLen := l, ctCode := m, ctValid := true, err := .ok, errInfo := 0#32 })

/-! ### CTCHK and CTCLR -/

/-- CTCHK succeeds iff CTOK holds; a failing one finds CT_VALID already 0 (R178). -/
def Obligations.CtchkDecidesCtOk : Prop :=
  ∀ s : State,
    (s.arch.CtOk s.hw → exec .ctchk s = .next (s.finished
      { s.arch with ctValid := true, err := .ok, errInfo := 0#32 })) ∧
    (¬ s.arch.CtOk s.hw →
      (∃ e info, e ≠ .ok ∧
        exec .ctchk s = .next (s.finished { s.arch with err := e, errInfo := info })) ∧
      (s.Inv → s.arch.ctValid = false))

/-- Which error CTCHK reports, in its order of tests: the least malformed symbol, then an empty
table, then the least prefix and its least victim (R176). -/
def Obligations.CtchkReportsTheFirstFault : Prop :=
  ∀ s : State,
    let malformed := fun x => s.hw.maxlen < (s.arch.ctLen.read x).toNat ∨
      2 ^ (s.arch.ctLen.read x).toNat ≤ (s.arch.ctCode.read x).toNat
    let present := fun x => x < s.hw.nSym ∧ 0 < (s.arch.ctLen.read x).toNat
    let clash := fun x t => present x ∧ present t ∧ t ≠ x ∧ s.arch.codeword x <+: s.arch.codeword t
    (∀ x < s.hw.nSym, malformed x → (∀ y < x, ¬ malformed y) → exec .ctchk s =
      .next (s.finished { s.arch with err := .entry, errInfo := BitVec.ofNat 32 x })) ∧
    ((∀ x < s.hw.nSym, ¬ malformed x) → (∀ x, ¬ present x) → exec .ctchk s =
      .next (s.finished { s.arch with err := .empty, errInfo := 0#32 })) ∧
    ((∀ x < s.hw.nSym, ¬ malformed x) → ∀ x t, clash x t → (∀ y < x, ∀ u, ¬ clash y u) →
      (∀ u < t, ¬ clash x u) → exec .ctchk s =
      .next (s.finished { s.arch with err := .prefixClash, errInfo := halves t x }))

/-- The prefix test in numbers (R176): a shift and a compare. -/
def Obligations.PrefixTestInNumbers : Prop :=
  ∀ (c : Arch) (s t : Nat),
    (c.ctCode.read s).toNat < 2 ^ (c.ctLen.read s).toNat →
    (c.ctCode.read t).toNat < 2 ^ (c.ctLen.read t).toNat →
    (c.codeword s <+: c.codeword t ↔
      (c.ctLen.read s).toNat ≤ (c.ctLen.read t).toNat ∧
      (c.ctCode.read t).toNat >>> ((c.ctLen.read t).toNat - (c.ctLen.read s).toNat) =
        (c.ctCode.read s).toNat)

/-- CTCLR (R180). -/
def Obligations.CtclrClearsTheTable : Prop :=
  ∀ s : State, ∃ l m, exec .ctclr s = .next (s.finished
      { s.arch with ctLen := l, ctCode := m, ctValid := false, err := .ok, errInfo := 0#32 }) ∧
    (∀ x < s.hw.nSym, l.read x = 0#32 ∧ m.read x = 0#32) ∧
    s.arch.ctLen.SameOutside l 0 s.hw.nSym ∧ s.arch.ctCode.SameOutside m 0 s.hw.nSym

/-! ### BUILD -/

/-- BUILD is FREQ, TREE, DERIVE in this order, each on the state the one before it left, ending at
the first that raises with that stage's result (R190). -/
def Obligations.BuildIsItsThreeStages : Prop :=
  ∀ s : State, ∃ c₁ c₂ c₃,
    exec .freq s = .next (s.finished c₁) ∧
    exec .tree (s.finished c₁) = .next ((s.finished c₁).finished c₂) ∧
    exec .derive ((s.finished c₁).finished c₂) =
      .next (((s.finished c₁).finished c₂).finished c₃) ∧
    exec .build s = .next (s.finished
      (if c₁.err ≠ .ok then c₁ else if c₂.err ≠ .ok then c₂ else c₃)) ∧
    (c₁.err = .ok → c₂.err = .ok → c₃.err ≠ .noTree ∧
      (c₃.err = .ok → c₃.treeValid = true ∧ c₃.ctValid = true))

/-- The state after a failed BUILD, case by case (R191): a text too long, an empty text, and any text
between, whose only failure is a path longer than `MAXLEN` in the new tree; ERRINFO then holds the
least symbol with such a path and the path's length (R173, R241). -/
def Obligations.FailedBuildCases : Prop :=
  (∀ s : State, s.hw.textCap < s.arch.textLen.toNat → exec .build s =
    .next (s.finished { s.arch with err := .length, errInfo := s.arch.textLen })) ∧
  (∀ s : State, s.arch.textLen = 0#32 → ∃ m, exec .build s =
      .next (s.finished { s.arch with freq := m, treeValid := false, err := .empty, errInfo := 0#32 }) ∧
    (∀ x < s.hw.nSym, m.read x = 0#32) ∧ s.arch.freq.SameOutside m 0 s.hw.nSym) ∧
  (∀ s : State, s.arch.MemoriesOk s.hw → s.arch.textLen ≠ 0#32 →
    s.arch.textLen.toNat ≤ s.hw.textCap → ∃ c, exec .build s = .next (s.finished c) ∧
    (c.err ≠ .ok →
      c = { s.arch with freq := c.freq, nodeW := c.nodeW, nodeLR := c.nodeLR, root := c.root,
                        nleaf := c.nleaf, treeValid := true, err := .depth, errInfo := c.errInfo } ∧
      (∀ x < s.hw.nSym, (c.freq.read x).toNat = s.arch.currentText.count x) ∧ c.ArenaOk s.hw ∧
      s.arch.freq.SameOutside c.freq 0 s.hw.nSym ∧
      s.arch.nodeW.SameOutside c.nodeW 0 s.hw.arenaDepth ∧
      s.arch.nodeLR.SameOutside c.nodeLR 0 s.hw.arenaDepth ∧
      ∃ code x, c.PathCodes s.hw code ∧ x ∈ s.arch.currentText ∧
        s.hw.maxlen < (code x).length ∧ (code x).length < 2 ^ 16 ∧
        (∀ y ∈ s.arch.currentText, y < x → (code y).length ≤ s.hw.maxlen) ∧
        c.errInfo = halves (code x).length x))

/-- BUILD succeeds on every non-empty text that fits and has at most `MAXLEN + 1` different
symbols, and leaves both flags set, a tree of the text's counts and a checked table. -/
def Obligations.BuildSucceeds : Prop :=
  ∀ s : State, s.arch.MemoriesOk s.hw → s.arch.textLen ≠ 0#32 →
    s.arch.textLen.toNat ≤ s.hw.textCap → s.arch.currentText.dedup.length ≤ s.hw.maxlen + 1 →
    ∃ c : Arch, exec .build s = .next (s.finished c) ∧
      c = { s.arch with freq := c.freq, nodeW := c.nodeW, nodeLR := c.nodeLR, root := c.root,
                        nleaf := c.nleaf, ctLen := c.ctLen, ctCode := c.ctCode,
                        treeValid := true, ctValid := true, err := .ok, errInfo := 0#32 } ∧
      (∀ x < s.hw.nSym, (c.freq.read x).toNat = s.arch.currentText.count x) ∧
      c.ArenaOk s.hw ∧ c.CtOk s.hw ∧
      s.arch.freq.SameOutside c.freq 0 s.hw.nSym ∧
      s.arch.nodeW.SameOutside c.nodeW 0 s.hw.arenaDepth ∧
      s.arch.nodeLR.SameOutside c.nodeLR 0 s.hw.arenaDepth ∧
      s.arch.ctLen.SameOutside c.ctLen 0 s.hw.nSym ∧ s.arch.ctCode.SameOutside c.ctCode 0 s.hw.nSym

/-- After a successful BUILD exactly the symbols of the sample have a codeword, and ENCODE succeeds
on any text drawn only from them whose output fits BITS, under that table (R194). -/
def Obligations.AlphabetCompleteness : Prop :=
  ∀ (s : State) (c : Arch), s.arch.MemoriesOk s.hw →
    exec .build s = .next (s.finished c) → c.err = .ok →
    (∀ x < s.hw.nSym, 0 < (c.ctLen.read x).toNat ↔ x ∈ s.arch.currentText) ∧
    ∀ u : State, u.hw = s.hw → u.arch.ctValid = true → u.arch.ctLen = c.ctLen →
      u.arch.ctCode = c.ctCode → u.arch.textLen.toNat ≤ u.hw.textCap →
      (∀ x ∈ u.arch.currentText, x ∈ s.arch.currentText) →
      (u.arch.currentText.map fun x => (c.ctLen.read x).toNat).sum ≤ 8 * u.hw.bitsCap →
      ∃ d, exec .encode u = .next (u.finished d) ∧ d.err = .ok

/-! ### ENCODE -/

/-- ENCODE: the codewords in input order with nothing between them (R203), packed first bit most
significant, whole bytes, pad bits 0, later bytes kept (R205); nothing else changes. -/
def Obligations.EncodePacksTheCodewords : Prop :=
  ∀ s : State, s.arch.ctValid = true → s.arch.textLen.toNat ≤ s.hw.textCap →
    (∀ x ∈ s.arch.currentText, 0 < (s.arch.ctLen.read x).toNat) →
    (s.arch.currentText.map fun x => (s.arch.ctLen.read x).toNat).sum ≤ 8 * s.hw.bitsCap →
    let q := s.arch.currentText.flatMap s.arch.codeword
    q.length = (s.arch.currentText.map fun x => (s.arch.ctLen.read x).toNat).sum ∧
    ∃ b n, exec .encode s = .next (s.finished
        { s.arch with bits := b, bitLen := n, err := .ok, errInfo := 0#32 }) ∧
      n.toNat = q.length ∧
      (∀ j, (h : j < q.length) → (b.read (j / 8)).getLsbD (7 - j % 8) = q[j]) ∧
      (∀ j, q.length ≤ j → j < 8 * ((q.length + 7) / 8) →
        (b.read (j / 8)).getLsbD (7 - j % 8) = false) ∧
      (∀ k < (q.length + 7) / 8, (b.read k).toNat < 256) ∧
      s.arch.bits.SameOutside b 0 ((q.length + 7) / 8)

/-- When ENCODE fails, in its order of tests, and with what detail (R201, R202). -/
def Obligations.EncodeErrors : Prop :=
  ∀ s : State,
    (s.arch.ctValid = false → exec .encode s =
      .next (s.finished { s.arch with err := .noTable, errInfo := 0#32 })) ∧
    (s.arch.ctValid = true → s.hw.textCap < s.arch.textLen.toNat → exec .encode s =
      .next (s.finished { s.arch with err := .length, errInfo := s.arch.textLen })) ∧
    (s.arch.ctValid = true → s.arch.textLen.toNat ≤ s.hw.textCap →
      ∀ i < s.arch.textLen.toNat, s.arch.ctLen.read (s.arch.text.read i).toNat = 0#32 →
        (∀ j < i, s.arch.ctLen.read (s.arch.text.read j).toNat ≠ 0#32) →
        ∃ info : Word, exec .encode s = .next (s.finished
            { s.arch with err := .symbol, errInfo := info }) ∧
          (info.extractLsb' 16 16).toNat = i ∧
          info.extractLsb' 0 16 = (s.arch.text.read i).extractLsb' 0 16) ∧
    (s.arch.ctValid = true → s.arch.textLen.toNat ≤ s.hw.textCap →
      (∀ x ∈ s.arch.currentText, 0 < (s.arch.ctLen.read x).toNat) →
      8 * s.hw.bitsCap < (s.arch.currentText.map fun x => (s.arch.ctLen.read x).toNat).sum →
      exec .encode s = .next (s.finished
        { s.arch with
          err := .overflow
          errInfo := BitVec.ofNat 32
            (s.arch.currentText.map fun x => (s.arch.ctLen.read x).toNat).sum })) ∧
    (s.arch.MemoriesOk s.hw → ∀ i, (s.arch.text.read i).toNat < s.hw.nSym)

/-- ENCODE is a pure function of the text and the table, and running it twice gives the same result
twice (R206). -/
def Obligations.EncodeIsPure : Prop :=
  (∀ (s u : State) (c : Arch), s.hw = u.hw → u.arch.ctValid = true →
    s.arch.textLen = u.arch.textLen →
    (∀ i < s.arch.textLen.toNat, s.arch.text.read i = u.arch.text.read i) →
    (∀ x, s.arch.ctLen.read x = u.arch.ctLen.read x ∧ s.arch.ctCode.read x = u.arch.ctCode.read x) →
    exec .encode s = .next (s.finished c) → c.err = .ok →
    ∃ d, exec .encode u = .next (u.finished d) ∧ d.err = .ok ∧ d.bitLen = c.bitLen ∧
      ∀ k < (c.bitLen.toNat + 7) / 8, d.bits.read k = c.bits.read k) ∧
  (∀ (s : State) (c : Arch), exec .encode s = .next (s.finished c) → c.err = .ok →
    ∃ d, exec .encode (s.finished c) = .next ((s.finished c).finished d) ∧ d.err = .ok ∧
      d.bitLen = c.bitLen ∧ ∀ k, d.bits.read k = c.bits.read k)

/-! ### DECODE -/

/-- DECODE splits the stream into codewords and a residue that completes none: the symbols go to
TEXT, the residue's length to RESID, without an error (R219), unless the symbols do not fit (R221). -/
def Obligations.DecodeSplitsTheStream : Prop :=
  ∀ s : State, s.Inv → s.arch.ctValid = true → s.arch.bitLen.toNat ≤ 8 * s.hw.bitsCap →
    ∃ (out : List Nat) (r : Bits),
      s.arch.currentBits = out.flatMap s.arch.codeword ++ r ∧
      (∀ x ∈ out, x < s.hw.nSym ∧ 0 < (s.arch.ctLen.read x).toNat) ∧
      (∀ x < s.hw.nSym, 0 < (s.arch.ctLen.read x).toNat → ¬ s.arch.codeword x <+: r) ∧
      out.length ≤ s.arch.bitLen.toNat ∧
      (out.length ≤ s.hw.textCap → ∃ m, exec .decode s = .next (s.finished
          { s.arch with text := m, textLen := BitVec.ofNat 32 out.length,
                        resid := BitVec.ofNat 32 r.length, err := .ok, errInfo := 0#32 }) ∧
        (∀ i, (h : i < out.length) → (m.read i).toNat = out[i]) ∧
        s.arch.text.SameOutside m 0 out.length) ∧
      (s.hw.textCap < out.length → exec .decode s = .next (s.finished
        { s.arch with err := .overflow, errInfo := BitVec.ofNat 32 out.length }))

/-- DECODE completes whenever the table is checked and the stream is no longer than either buffer;
nothing but TEXT below the new TEXT_LEN, TEXT_LEN, RESID and the result changes. -/
def Obligations.DecodeCompletes : Prop :=
  ∀ s : State, s.arch.ctValid = true → s.arch.bitLen.toNat ≤ 8 * s.hw.bitsCap →
    s.arch.bitLen.toNat ≤ s.hw.textCap →
    ∃ m n r, exec .decode s = .next (s.finished
        { s.arch with text := m, textLen := n, resid := r, err := .ok, errInfo := 0#32 }) ∧
      n.toNat + r.toNat ≤ s.arch.bitLen.toNat ∧ s.arch.text.SameOutside m 0 n.toNat ∧
      (s.arch.bitLen = 0#32 → m = s.arch.text ∧ n = 0#32 ∧ r = 0#32)

/-- Under a table whose only codeword is `[1]`, which is not complete, DECODE emits the symbol for
each leading 1; from the first 0 bit nothing more resolves, and all of it is the residue (R220). -/
def Obligations.LoneCodewordDecode : Prop :=
  ∀ (s : State) (x : Nat), x < s.hw.nSym → s.arch.ctValid = true →
    s.arch.ctLen.read x = 1#32 → s.arch.ctCode.read x = 1#32 →
    (∀ y < s.hw.nSym, y ≠ x → s.arch.ctLen.read y = 0#32) →
    s.arch.bitLen.toNat ≤ 8 * s.hw.bitsCap → s.arch.bitLen.toNat ≤ s.hw.textCap →
    let n := (s.arch.currentBits.takeWhile id).length
    ∃ m, exec .decode s = .next (s.finished
        { s.arch with text := m, textLen := BitVec.ofNat 32 n,
                      resid := BitVec.ofNat 32 (s.arch.bitLen.toNat - n),
                      err := .ok, errInfo := 0#32 }) ∧
      (∀ i < n, (m.read i).toNat = x) ∧ s.arch.text.SameOutside m 0 n

/-- DECODE's preconditions (R216). -/
def Obligations.DecodePreconditions : Prop :=
  ∀ s : State,
    (s.arch.ctValid = false → exec .decode s =
      .next (s.finished { s.arch with err := .noTable, errInfo := 0#32 })) ∧
    (s.arch.ctValid = true → 8 * s.hw.bitsCap < s.arch.bitLen.toNat → exec .decode s =
      .next (s.finished { s.arch with err := .length, errInfo := s.arch.bitLen }))

/-- DECODE's outcome is a function of CT_VALID, BIT_LEN, the stream bits `0 .. BIT_LEN-1` and the
table; pad bits and later bytes cannot affect it (R217), and TEXT beyond the output is left as it
was (R224). -/
def Obligations.DecodeReadsTheStreamOnly : Prop :=
  ∀ (s u : State), s.hw = u.hw → s.arch.ctValid = u.arch.ctValid →
    s.arch.bitLen = u.arch.bitLen →
    (∀ j < s.arch.bitLen.toNat, (s.arch.bits.read (j / 8)).getLsbD (7 - j % 8) =
      (u.arch.bits.read (j / 8)).getLsbD (7 - j % 8)) →
    (∀ x, s.arch.ctLen.read x = u.arch.ctLen.read x ∧ s.arch.ctCode.read x = u.arch.ctCode.read x) →
    ∃ c d, exec .decode s = .next (s.finished c) ∧ exec .decode u = .next (u.finished d) ∧
      d.err = c.err ∧ d.errInfo = c.errInfo ∧
      (c.err = .ok → d.textLen = c.textLen ∧ d.resid = c.resid ∧
        (∀ i < c.textLen.toNat, d.text.read i = c.text.read i) ∧
        ∀ i, c.textLen.toNat ≤ i →
          c.text.read i = s.arch.text.read i ∧ d.text.read i = u.arch.text.read i)

/-- The round-trip law (R222): after an ENCODE that succeeds, DECODE in any state with that table
and that packed sequence gives back the text, whatever was done to the rest meanwhile. -/
def Obligations.RoundTrip : Prop :=
  ∀ (s : State) (c : Arch), s.Inv → exec .encode s = .next (s.finished c) → c.err = .ok →
    ∀ u : State, u.hw = s.hw → u.arch.ctValid = true →
      u.arch.ctLen = c.ctLen → u.arch.ctCode = c.ctCode →
      u.arch.bits = c.bits → u.arch.bitLen = c.bitLen →
      ∃ m, exec .decode u = .next (u.finished
          { u.arch with text := m, textLen := s.arch.textLen, resid := 0#32,
                        err := .ok, errInfo := 0#32 }) ∧
        (∀ i < s.arch.textLen.toNat, m.read i = s.arch.text.read i) ∧
        u.arch.text.SameOutside m 0 s.arch.textLen.toNat

/-! ### Invariants -/

/-- The invariant holds after reset, of every instance. -/
def Obligations.ResetMeetsTheInvariant : Prop :=
  State.reset = State.resetOf Hardware.defaults ∧ ∀ hw : Hardware, (State.resetOf hw).Inv

/-- Every step keeps the parameters, the canonical form, depth and entry widths of the seven
memories (R33), and the widths of ROOT and NLEAF. -/
def Obligations.StepKeepsMemoryForm : Prop :=
  ∀ s t : State, s.arch.MemoriesOk s.hw → s.arch.RegistersOk s.hw → step s = .next t →
    t.hw = s.hw ∧ t.arch.MemoriesOk t.hw ∧ t.arch.RegistersOk t.hw

/-- Every step keeps the arena invariant of R43. -/
def Obligations.StepKeepsArenaInvariant : Prop :=
  ∀ s t : State, s.arch.MemoriesOk s.hw → (s.arch.treeValid = true → s.arch.ArenaOk s.hw) →
    step s = .next t → (t.arch.treeValid = true → t.arch.ArenaOk t.hw)

/-- Every step keeps "CT_VALID = 1 implies CTOK" (R42); the arena invariant is a premise, since
DERIVE sets the flag without running a check (R174). -/
def Obligations.StepKeepsTableInvariant : Prop :=
  ∀ s t : State, s.Inv → step s = .next t → (t.arch.ctValid = true → t.arch.CtOk t.hw)
end

