-- ==== Sys2Proof/Laws/Bits.lean ====
section
/-! SUPPORT. Bit sequences and their values, packing into bytes, halves and low bits of words. -/

namespace Sys2Proof.Machine

/-! ### `bitsVal` and `bitsSeq` -/

@[simp] theorem bitsVal_nil : bitsVal [] = 0 := rfl

theorem foldl_bitsVal (q : Bits) (v : Nat) :
    q.foldl (fun v b => 2 * v + b.toNat) v = v * 2 ^ q.length + bitsVal q := by
  unfold bitsVal
  induction q generalizing v with
  | nil => simp
  | cons b q ih =>
    simp only [List.foldl_cons, List.length_cons]
    rw [ih, ih (2 * 0 + b.toNat)]
    ring

theorem bitsVal_cons (b : Bool) (q : Bits) :
    bitsVal (b :: q) = b.toNat * 2 ^ q.length + bitsVal q := by
  conv_lhs => unfold bitsVal
  rw [List.foldl_cons, foldl_bitsVal]
  simp

theorem bitsVal_append (q r : Bits) : bitsVal (q ++ r) = bitsVal q * 2 ^ r.length + bitsVal r := by
  conv_lhs => unfold bitsVal
  rw [List.foldl_append, foldl_bitsVal]
  rfl

/-- The value of `n` bits is below `2^n`. -/
theorem bitsVal_lt (q : Bits) : bitsVal q < 2 ^ q.length := by
  induction q with
  | nil => simp
  | cons b q ih =>
    rw [bitsVal_cons, List.length_cons, pow_succ]
    cases b <;> simp <;> omega

/-- Bit `|q|-1-i` of the value is element `i` of the sequence. -/
theorem testBit_bitsVal (q : Bits) (i : Nat) (h : i < q.length) :
    (bitsVal q).testBit (q.length - 1 - i) = q[i] := by
  induction q generalizing i with
  | nil => simp at h
  | cons b q ih =>
    rw [bitsVal_cons, mul_comm, Nat.testBit_two_pow_mul_add _ (bitsVal_lt q)]
    simp only [List.length_cons, Nat.add_sub_cancel]
    cases i with
    | zero => cases b <;> simp
    | succ i =>
      simp only [List.length_cons, Nat.add_lt_add_iff_right] at h
      rw [if_pos (by omega)]
      have e : q.length - (i + 1) = q.length - 1 - i := by omega
      rw [e, ih i h]
      rfl

@[simp] theorem length_bitsSeq (v n : Nat) : (bitsSeq v n).length = n := by simp [bitsSeq]

/-- `seq` undoes `val`. -/
theorem bitsSeq_bitsVal (q : Bits) : bitsSeq (bitsVal q) q.length = q := by
  apply List.ext_getElem (by simp)
  intro i h₁ h₂
  simpa [bitsSeq] using testBit_bitsVal q i h₂

/-- `val` undoes `seq` on numbers that fit. -/
theorem bitsVal_bitsSeq (v n : Nat) (h : v < 2 ^ n) : bitsVal (bitsSeq v n) = v := by
  apply Nat.eq_of_testBit_eq
  intro j
  by_cases hj : j < n
  · have e : j = (bitsSeq v n).length - 1 - (n - 1 - j) := by simp; omega
    conv_lhs => rw [e]
    rw [testBit_bitsVal _ _ (by simp; omega)]
    simp only [bitsSeq, List.getElem_map, List.getElem_range]
    congr 1; omega
  · have h1 : bitsVal (bitsSeq v n) < 2 ^ j :=
      lt_of_lt_of_le (by simpa using bitsVal_lt (bitsSeq v n)) (Nat.pow_le_pow_right (by omega) (by omega))
    have h2 : v < 2 ^ j := lt_of_lt_of_le h (Nat.pow_le_pow_right (by omega) (by omega))
    rw [Nat.testBit_lt_two_pow h1, Nat.testBit_lt_two_pow h2]

/-! ### Packing -/

@[simp] theorem length_packBytes (n : Nat) (q : Bits) : (packBytes n q).length = n := by
  induction n generalizing q with
  | zero => rfl
  | succ n ih => simp [packBytes, ih]

/-- Byte `k` packs the bits from `8k` on. -/
theorem getElem_packBytes (n : Nat) (q : Bits) (k : Nat) (h : k < (packBytes n q).length) :
    (packBytes n q)[k] = packByte (q.drop (8 * k)) := by
  induction n generalizing q k with
  | zero => simp at h
  | succ n ih =>
    cases k with
    | zero => simp [packBytes]
    | succ k =>
      simp only [packBytes, List.getElem_cons_succ]
      rw [ih, List.drop_drop]
      congr 2
      omega

theorem length_padded (q : Bits) :
    (q.take 8 ++ List.replicate (8 - q.length) false).length = 8 := by
  simp only [List.length_append, List.length_take, List.length_replicate]; omega

theorem toNat_packByte (q : Bits) :
    (packByte q).toNat = bitsVal (q.take 8 ++ List.replicate (8 - q.length) false) := by
  have h := bitsVal_lt (q.take 8 ++ List.replicate (8 - q.length) false)
  rw [length_padded] at h
  simp only [packByte, BitVec.toNat_ofNat]
  exact Nat.mod_eq_of_lt (lt_trans h (by decide))

/-- A packed byte is a byte. -/
theorem packByte_lt (q : Bits) : (packByte q).toNat < 256 := by
  rw [toNat_packByte]
  have h := bitsVal_lt (q.take 8 ++ List.replicate (8 - q.length) false)
  rwa [length_padded] at h

/-- Bit `7 - j` of a packed byte is bit `j` of the sequence, 0 beyond its end. -/
theorem getLsbD_packByte (q : Bits) (j : Nat) (h : j < 8) :
    (packByte q).getLsbD (7 - j) = q[j]?.getD false := by
  rw [← BitVec.testBit_toNat, toNat_packByte]
  have e : 7 - j = (q.take 8 ++ List.replicate (8 - q.length) false).length - 1 - j := by
    rw [length_padded]
  rw [e, testBit_bitsVal _ _ (by rw [length_padded]; exact h)]
  by_cases hq : j < q.length
  · rw [List.getElem_append_left (by simp; omega)]
    simp [hq]
  · rw [List.getElem_append_right (by simp; omega)]
    simp [hq]

/-! ### Words -/

/-- What a truncated write stores. -/
@[simp] theorem toNat_lowBits (n : Nat) (v : Word) : (lowBits n v).toNat = v.toNat % 2 ^ n := by
  simp only [lowBits, BitVec.toNat_ofNat]
  exact Nat.mod_eq_of_lt (lt_of_le_of_lt (Nat.mod_le _ _) v.isLt)

@[simp] theorem lowHalf_halves (hi lo : Nat) : lowHalf (halves hi lo) = lo % 2 ^ 16 := by
  simp only [lowHalf, halves, BitVec.extractLsb'_toNat, BitVec.toNat_append, BitVec.toNat_ofNat,
    Nat.shiftRight_zero]
  rw [← Nat.shiftLeft_add_eq_or_of_lt (Nat.mod_lt _ (by decide)), Nat.shiftLeft_eq]
  omega

@[simp] theorem highHalf_halves (hi lo : Nat) : highHalf (halves hi lo) = hi % 2 ^ 16 := by
  simp only [highHalf, halves, BitVec.extractLsb'_toNat, BitVec.toNat_append, BitVec.toNat_ofNat]
  rw [← Nat.shiftLeft_add_eq_or_of_lt (Nat.mod_lt _ (by decide)), Nat.shiftLeft_eq,
    Nat.shiftRight_eq_div_pow]
  omega

end Sys2Proof.Machine
end

