-- ==== Sys2Proof/Laws/Memory.lean ====
section
/-! SUPPORT. What the memory operations do: what is read after a write, and that every operation
keeps the canonical form, the depth and the entry width. -/

namespace Sys2Proof.Machine

theorem lookup_filter_of_pos (p : Nat → Bool) (i : Nat) (h : p i = true) (cs : List (Nat × Word)) :
    (cs.filter (fun c => p c.1)).lookup i = cs.lookup i := by
  induction cs with
  | nil => rfl
  | cons c cs ih =>
    obtain ⟨k, v⟩ := c
    by_cases hk : i = k
    · subst hk; simp [h]
    · by_cases hp : p k = true <;> simp [hp, List.lookup_cons, beq_eq_false_iff_ne.mpr hk, ih]

theorem lookup_filter_of_neg (p : Nat → Bool) (i : Nat) (h : p i = false) (cs : List (Nat × Word)) :
    (cs.filter (fun c => p c.1)).lookup i = none := by
  induction cs with
  | nil => rfl
  | cons c cs ih =>
    obtain ⟨k, v⟩ := c
    by_cases hp : p k = true
    · have hk : i ≠ k := by rintro rfl; simp [h] at hp
      simp [hp, List.lookup_cons, beq_eq_false_iff_ne.mpr hk, ih]
    · simp [hp, ih]

theorem lookup_blockCells (lo : Nat) (vs : List Word) (i : Nat) :
    (Memory.blockCells lo vs).lookup i =
      if lo ≤ i ∧ i < lo + vs.length ∧ vs[i - lo]?.getD 0#32 ≠ 0#32
      then some (vs[i - lo]?.getD 0#32) else none := by
  induction vs generalizing lo with
  | nil => simp only [Memory.blockCells, List.lookup_nil, List.length_nil]; rw [if_neg]; omega
  | cons v vs ih =>
    simp only [Memory.blockCells, Memory.unlisted, List.length_cons]
    by_cases hi : i = lo
    · subst hi
      by_cases hv : v = 0#32
      · have : ¬ (i + 1 ≤ i ∧ i < i + 1 + vs.length ∧ vs[i - (i + 1)]?.getD 0#32 ≠ 0#32) := by omega
        rw [if_pos hv, ih, if_neg this, if_neg]
        simp [hv]
      · rw [if_neg hv]
        simp [hv]
    · have hrec : (Memory.blockCells (lo + 1) vs).lookup i =
          if lo ≤ i ∧ i < lo + (vs.length + 1) ∧ (v :: vs)[i - lo]?.getD 0#32 ≠ 0#32
          then some ((v :: vs)[i - lo]?.getD 0#32) else none := by
        rw [ih]
        by_cases hlt : lo + 1 ≤ i
        · have e : i - lo = (i - (lo + 1)) + 1 := by omega
          rw [e, List.getElem?_cons_succ]
          apply if_congr _ rfl rfl
          constructor <;> rintro ⟨_, _, h⟩ <;> exact ⟨by omega, by omega, h⟩
        · rw [if_neg (by omega), if_neg (by omega)]
      by_cases hv : v = 0#32
      · rw [if_pos hv]; exact hrec
      · rw [if_neg hv, List.lookup_cons, beq_eq_false_iff_ne.mpr hi]; exact hrec

/-- What is read after a block write: the block inside it, the old entry outside. -/
theorem Memory.read_writeBlock (m : Memory) (lo : Nat) (vs : List Word) (i : Nat) :
    (m.writeBlock lo vs).read i =
      if lo ≤ i ∧ i < lo + vs.length then vs[i - lo]?.getD 0#32 else m.read i := by
  unfold Memory.read Memory.writeBlock
  simp only [List.lookup_append, lookup_blockCells, Memory.unlisted]
  by_cases h1 : i < lo
  · rw [lookup_filter_of_pos (fun k => decide (k < lo)) i (by simpa using h1),
      lookup_filter_of_neg (fun k => decide (lo + vs.length ≤ k)) i (by simp; omega),
      if_neg (by omega), if_neg (by omega)]
    simp
  · by_cases h2 : i < lo + vs.length
    · rw [lookup_filter_of_neg (fun k => decide (k < lo)) i (by simpa using h1),
        lookup_filter_of_neg (fun k => decide (lo + vs.length ≤ k)) i (by simp; omega),
        if_pos (⟨by omega, h2⟩ : lo ≤ i ∧ i < lo + vs.length)]
      by_cases hv : vs[i - lo]?.getD 0#32 = 0#32
      · rw [if_neg (by simp [hv])]; simp [hv]
      · rw [if_pos ⟨by omega, h2, hv⟩]; simp
    · rw [lookup_filter_of_neg (fun k => decide (k < lo)) i (by simpa using h1),
        lookup_filter_of_pos (fun k => decide (lo + vs.length ≤ k)) i (by simp; omega),
        if_neg (by omega), if_neg (by omega)]
      simp

/-- Inside the block. -/
theorem Memory.read_writeBlock_inside (m : Memory) (lo : Nat) (vs : List Word) (j : Nat)
    (h : j < vs.length) : (m.writeBlock lo vs).read (lo + j) = vs[j] := by
  rw [Memory.read_writeBlock, if_pos (by omega)]
  simp [h]

/-- Outside the block. -/
theorem Memory.sameOutside_writeBlock (m : Memory) (lo : Nat) (vs : List Word) :
    m.SameOutside (m.writeBlock lo vs) lo (lo + vs.length) := by
  intro i h
  rw [Memory.read_writeBlock, if_neg h]

/-- What is read after a write: the value at its index, the old entry elsewhere. -/
theorem Memory.read_write (m : Memory) (i j : Nat) (v : Word) :
    (m.write i v).read j = if j = i then v else m.read j := by
  unfold Memory.write
  rw [Memory.read_writeBlock]
  by_cases h : j = i
  · subst h; simp
  · have : ¬ (i ≤ j ∧ j < i + [v].length) := by simp; omega
    rw [if_neg this, if_neg h]

@[simp] theorem Memory.read_write_same (m : Memory) (i : Nat) (v : Word) :
    (m.write i v).read i = v := by rw [Memory.read_write, if_pos rfl]

theorem Memory.sameOutside_write (m : Memory) (i : Nat) (v : Word) :
    m.SameOutside (m.write i v) i (i + 1) := by
  intro j h
  rw [Memory.read_write, if_neg (by omega)]

@[simp] theorem Memory.read_empty (i : Nat) : Memory.empty.read i = 0#32 := rfl

/-- An empty block writes nothing. -/
@[simp] theorem Memory.writeBlock_nil (m : Memory) : m.writeBlock 0 [] = m := by
  simp [Memory.writeBlock, Memory.blockCells]

/-! ### The canonical form -/

theorem Memory.rising_iff_pairwise (o : Option Nat) (cs : List (Nat × Word)) :
    Memory.rising o cs = true ↔
      (∀ k ∈ o, ∀ c ∈ cs, k < c.1) ∧ cs.Pairwise (fun a b => a.1 < b.1) := by
  induction cs generalizing o with
  | nil => cases o <;> simp [Memory.rising]
  | cons c cs ih =>
    cases o with
    | none =>
      simp only [Memory.rising, ih, List.pairwise_cons]
      simp
    | some k =>
      simp only [Memory.rising, Bool.and_eq_true, decide_eq_true_eq, ih, List.pairwise_cons]
      constructor
      · rintro ⟨hk, h1, h2⟩
        refine ⟨?_, ?_, h2⟩
        · rintro k' ⟨⟩ d hd
          rcases List.mem_cons.mp hd with rfl | hd
          · exact hk
          · exact lt_trans hk (h1 c.1 rfl d hd)
        · exact fun d hd => h1 c.1 rfl d hd
      · rintro ⟨h1, h2, h3⟩
        refine ⟨h1 k rfl c (List.mem_cons_self ..), ?_, h3⟩
        rintro k' ⟨⟩ d hd
        exact h2 d hd

/-- The canonical form in list terms. -/
theorem Memory.wf_iff (m : Memory) :
    m.wf = true ↔ m.cells.Pairwise (fun a b => a.1 < b.1) ∧ ∀ c ∈ m.cells, c.2 ≠ 0#32 := by
  rw [Memory.wf, Bool.and_eq_true, Memory.rising_iff_pairwise, List.all_eq_true]
  simp only [decide_eq_true_eq]
  simp

/-- Depth and width in list terms. -/
theorem Memory.fits_iff (m : Memory) (depth width : Nat) :
    m.fits depth width = true ↔ ∀ c ∈ m.cells, c.1 < depth ∧ c.2.toNat < 2 ^ width := by
  simp [Memory.fits]

theorem mem_blockCells {lo : Nat} {vs : List Word} {c : Nat × Word}
    (h : c ∈ Memory.blockCells lo vs) :
    lo ≤ c.1 ∧ c.1 < lo + vs.length ∧ c.2 ≠ 0#32 ∧ c.2 ∈ vs := by
  induction vs generalizing lo with
  | nil => simp [Memory.blockCells] at h
  | cons v vs ih =>
    simp only [Memory.blockCells, Memory.unlisted] at h
    have tail : c ∈ Memory.blockCells (lo + 1) vs →
        lo ≤ c.1 ∧ c.1 < lo + (v :: vs).length ∧ c.2 ≠ 0#32 ∧ c.2 ∈ v :: vs := fun h =>
      have ⟨h1, h2, h3, h4⟩ := ih h
      ⟨by omega, by simp only [List.length_cons]; omega, h3, List.mem_cons_of_mem _ h4⟩
    split at h
    · exact tail h
    · rename_i hv
      rcases List.mem_cons.mp h with rfl | h
      · exact ⟨le_refl _, by simp, hv, List.mem_cons_self ..⟩
      · exact tail h

theorem blockCells_pairwise (lo : Nat) (vs : List Word) :
    (Memory.blockCells lo vs).Pairwise (fun a b => a.1 < b.1) := by
  induction vs generalizing lo with
  | nil => simp [Memory.blockCells]
  | cons v vs ih =>
    simp only [Memory.blockCells]
    split
    · exact ih _
    · exact List.pairwise_cons.mpr ⟨fun c hc => by have := (mem_blockCells hc).1; simp; omega, ih _⟩

/-- Every block write keeps the canonical form. -/
theorem Memory.wf_writeBlock (m : Memory) (lo : Nat) (vs : List Word) (h : m.wf = true) :
    (m.writeBlock lo vs).wf = true := by
  rw [Memory.wf_iff] at h ⊢
  obtain ⟨hp, hn⟩ := h
  refine ⟨?_, ?_⟩
  · simp only [Memory.writeBlock, List.pairwise_append]
    refine ⟨⟨hp.filter _, blockCells_pairwise lo vs, ?_⟩, hp.filter _, ?_⟩
    · intro a ha b hb
      have := (mem_blockCells hb).1
      simp at ha; omega
    · intro a ha b hb
      simp at hb
      rcases List.mem_append.mp ha with ha | ha
      · simp at ha; omega
      · have := (mem_blockCells ha).2.1; omega
  · intro c hc
    simp only [Memory.writeBlock, List.mem_append] at hc
    rcases hc with (hc | hc) | hc
    · exact hn c (List.mem_of_mem_filter hc)
    · exact (mem_blockCells hc).2.2.1
    · exact hn c (List.mem_of_mem_filter hc)

/-- A block inside the depth, of values of the width, keeps depth and width. -/
theorem Memory.fits_writeBlock (m : Memory) (lo : Nat) (vs : List Word) (depth width : Nat)
    (h : m.fits depth width = true) (hlo : lo + vs.length ≤ depth)
    (hv : ∀ v ∈ vs, v.toNat < 2 ^ width) : (m.writeBlock lo vs).fits depth width = true := by
  rw [Memory.fits_iff] at h ⊢
  intro c hc
  simp only [Memory.writeBlock, List.mem_append] at hc
  rcases hc with (hc | hc) | hc
  · exact h c (List.mem_of_mem_filter hc)
  · have ⟨_, h2, _, h4⟩ := mem_blockCells hc
    exact ⟨by omega, hv _ h4⟩
  · exact h c (List.mem_of_mem_filter hc)

/-- Every write keeps the canonical form. -/
theorem Memory.wf_write (m : Memory) (i : Nat) (v : Word) (h : m.wf = true) :
    (m.write i v).wf = true := m.wf_writeBlock i [v] h

/-- A write inside the depth, of a value of the width, keeps depth and width. -/
theorem Memory.fits_write (m : Memory) (i : Nat) (v : Word) (depth width : Nat)
    (h : m.fits depth width = true) (hi : i < depth) (hv : v.toNat < 2 ^ width) :
    (m.write i v).fits depth width = true :=
  m.fits_writeBlock i [v] depth width h (by simpa using hi) (by simpa using hv)

/-- Every memory after reset is in canonical form, whatever its depth and width. -/
theorem Memory.ok_empty (depth width : Nat) : Memory.empty.Ok depth width := ⟨rfl, rfl⟩

theorem lookup_mem {i : Nat} {v : Word} {cs : List (Nat × Word)} (h : cs.lookup i = some v) :
    (i, v) ∈ cs := by
  induction cs with
  | nil => simp at h
  | cons c cs ih =>
    obtain ⟨k, w⟩ := c
    rw [List.lookup_cons] at h
    by_cases hk : i = k
    · subst hk; simp at h; simp [h]
    · rw [beq_eq_false_iff_ne.mpr hk] at h
      exact List.mem_cons_of_mem _ (ih h)

/-- An entry of a memory that fits is of its width. -/
theorem Memory.read_lt (m : Memory) (depth width i : Nat) (h : m.fits depth width = true) :
    (m.read i).toNat < 2 ^ width := by
  rw [Memory.fits_iff] at h
  unfold Memory.read
  cases hl : m.cells.lookup i with
  | none => simp [Memory.unlisted]
  | some v => simpa using (h _ (lookup_mem hl)).2

/-- Beyond its depth a memory that fits reads 0. -/
theorem Memory.read_beyond (m : Memory) (depth width i : Nat) (h : m.fits depth width = true)
    (hi : depth ≤ i) : m.read i = 0#32 := by
  rw [Memory.fits_iff] at h
  unfold Memory.read
  cases hl : m.cells.lookup i with
  | none => rfl
  | some v => have := (h _ (lookup_mem hl)).1; simp at this; omega

theorem read_cons_lt (k i : Nat) (v : Word) (cs : List (Nat × Word)) (h : i < k)
    (hp : ((k, v) :: cs).Pairwise (fun a b => a.1 < b.1)) :
    ((k, v) :: cs).lookup i = none := by
  cases hl : ((k, v) :: cs).lookup i with
  | none => rfl
  | some w =>
    have hm := lookup_mem hl
    rcases List.mem_cons.mp hm with e | hm
    · cases e; omega
    · have := (List.pairwise_cons.mp hp).1 _ hm; simp at this; omega

/-- Two rising lists without zero entries that look up alike are equal. -/
theorem cells_ext (cs ds : List (Nat × Word))
    (hp : cs.Pairwise (fun a b => a.1 < b.1)) (hz : ∀ c ∈ cs, c.2 ≠ 0#32)
    (hp' : ds.Pairwise (fun a b => a.1 < b.1)) (hz' : ∀ c ∈ ds, c.2 ≠ 0#32)
    (h : ∀ i : Nat, (cs.lookup i).getD 0#32 = (ds.lookup i).getD 0#32) : cs = ds := by
  induction cs generalizing ds with
  | nil =>
    cases ds with
    | nil => rfl
    | cons d ds =>
      obtain ⟨l, w⟩ := d
      have e := h l
      simp at e
      exact absurd e.symm (hz' (l, w) (List.mem_cons_self ..))
  | cons c cs ih =>
    cases ds with
    | nil =>
      obtain ⟨k, v⟩ := c
      have e := h k
      simp at e
      exact absurd e (hz (k, v) (List.mem_cons_self ..))
    | cons d ds =>
      obtain ⟨k, v⟩ := c
      obtain ⟨l, w⟩ := d
      have hv : v ≠ 0#32 := hz (k, v) (List.mem_cons_self ..)
      have hw : w ≠ 0#32 := hz' (l, w) (List.mem_cons_self ..)
      have hkl : k = l := by
        rcases lt_trichotomy k l with hlt | heq | hgt
        · have e := h k
          rw [read_cons_lt l k w ds hlt hp'] at e
          simp at e; exact absurd e hv
        · exact heq
        · have e := h l
          rw [read_cons_lt k l v cs hgt hp] at e
          simp at e; exact absurd e.symm hw
      subst hkl
      have hvw : v = w := by have e := h k; simpa using e
      subst hvw
      have absent : ∀ es : List (Nat × Word), ((k, v) :: es).Pairwise (fun a b => a.1 < b.1) →
          es.lookup k = none := by
        intro es he
        cases hl : es.lookup k with
        | none => rfl
        | some x => have := (List.pairwise_cons.mp he).1 _ (lookup_mem hl); simp at this
      rw [ih ds (List.pairwise_cons.mp hp).2 (fun c hc => hz c (List.mem_cons_of_mem _ hc))
        (List.pairwise_cons.mp hp').2 (fun c hc => hz' c (List.mem_cons_of_mem _ hc))]
      intro i
      by_cases hi : i = k
      · subst hi; rw [absent cs hp, absent ds hp']
      · have e := h i
        simpa [List.lookup_cons, beq_eq_false_iff_ne.mpr hi] using e

/-- Two canonical memories that read alike are equal data. -/
theorem Memory.ext_of_read (m n : Memory) (hm : m.wf = true) (hn : n.wf = true)
    (h : ∀ i, m.read i = n.read i) : m = n := by
  rw [Memory.wf_iff] at hm hn
  obtain ⟨cs⟩ := m
  obtain ⟨ds⟩ := n
  rw [cells_ext cs ds hm.1 hm.2 hn.1 hn.2 h]

end Sys2Proof.Machine
end

