-- ==== Sys2Proof/Laws/State.lean ====
section
/-! SUPPORT. The fields of the state after each named update: one lemma per field per update, and
what the port operations do. -/

namespace Sys2Proof.Machine

/-! ### `Arch.record` -/

@[simp] theorem Arch.record_ctValid (c : Arch) (e : ErrCode) (info : Word) :
    (c.record e info).ctValid = c.ctValid := rfl

@[simp] theorem Arch.record_treeValid (c : Arch) (e : ErrCode) (info : Word) :
    (c.record e info).treeValid = c.treeValid := rfl

@[simp] theorem Arch.record_err (c : Arch) (e : ErrCode) (info : Word) :
    (c.record e info).err = e := rfl

@[simp] theorem Arch.record_errInfo (c : Arch) (e : ErrCode) (info : Word) :
    (c.record e info).errInfo = info := rfl

@[simp] theorem Arch.record_textLen (c : Arch) (e : ErrCode) (info : Word) :
    (c.record e info).textLen = c.textLen := rfl

@[simp] theorem Arch.record_bitLen (c : Arch) (e : ErrCode) (info : Word) :
    (c.record e info).bitLen = c.bitLen := rfl

@[simp] theorem Arch.record_resid (c : Arch) (e : ErrCode) (info : Word) :
    (c.record e info).resid = c.resid := rfl

@[simp] theorem Arch.record_root (c : Arch) (e : ErrCode) (info : Word) :
    (c.record e info).root = c.root := rfl

@[simp] theorem Arch.record_nleaf (c : Arch) (e : ErrCode) (info : Word) :
    (c.record e info).nleaf = c.nleaf := rfl

@[simp] theorem Arch.record_text (c : Arch) (e : ErrCode) (info : Word) :
    (c.record e info).text = c.text := rfl

@[simp] theorem Arch.record_bits (c : Arch) (e : ErrCode) (info : Word) :
    (c.record e info).bits = c.bits := rfl

@[simp] theorem Arch.record_freq (c : Arch) (e : ErrCode) (info : Word) :
    (c.record e info).freq = c.freq := rfl

@[simp] theorem Arch.record_ctLen (c : Arch) (e : ErrCode) (info : Word) :
    (c.record e info).ctLen = c.ctLen := rfl

@[simp] theorem Arch.record_ctCode (c : Arch) (e : ErrCode) (info : Word) :
    (c.record e info).ctCode = c.ctCode := rfl

@[simp] theorem Arch.record_nodeW (c : Arch) (e : ErrCode) (info : Word) :
    (c.record e info).nodeW = c.nodeW := rfl

@[simp] theorem Arch.record_nodeLR (c : Arch) (e : ErrCode) (info : Word) :
    (c.record e info).nodeLR = c.nodeLR := rfl

/-! ### `Arch.treeMade` -/

@[simp] theorem Arch.treeMade_ctValid (c : Arch) :
    c.treeMade.ctValid = c.ctValid := rfl

@[simp] theorem Arch.treeMade_treeValid (c : Arch) :
    c.treeMade.treeValid = true := rfl

@[simp] theorem Arch.treeMade_err (c : Arch) :
    c.treeMade.err = c.err := rfl

@[simp] theorem Arch.treeMade_errInfo (c : Arch) :
    c.treeMade.errInfo = c.errInfo := rfl

@[simp] theorem Arch.treeMade_textLen (c : Arch) :
    c.treeMade.textLen = c.textLen := rfl

@[simp] theorem Arch.treeMade_bitLen (c : Arch) :
    c.treeMade.bitLen = c.bitLen := rfl

@[simp] theorem Arch.treeMade_resid (c : Arch) :
    c.treeMade.resid = c.resid := rfl

@[simp] theorem Arch.treeMade_root (c : Arch) :
    c.treeMade.root = c.root := rfl

@[simp] theorem Arch.treeMade_nleaf (c : Arch) :
    c.treeMade.nleaf = c.nleaf := rfl

@[simp] theorem Arch.treeMade_text (c : Arch) :
    c.treeMade.text = c.text := rfl

@[simp] theorem Arch.treeMade_bits (c : Arch) :
    c.treeMade.bits = c.bits := rfl

@[simp] theorem Arch.treeMade_freq (c : Arch) :
    c.treeMade.freq = c.freq := rfl

@[simp] theorem Arch.treeMade_ctLen (c : Arch) :
    c.treeMade.ctLen = c.ctLen := rfl

@[simp] theorem Arch.treeMade_ctCode (c : Arch) :
    c.treeMade.ctCode = c.ctCode := rfl

@[simp] theorem Arch.treeMade_nodeW (c : Arch) :
    c.treeMade.nodeW = c.nodeW := rfl

@[simp] theorem Arch.treeMade_nodeLR (c : Arch) :
    c.treeMade.nodeLR = c.nodeLR := rfl

/-! ### `Arch.freqChanged` -/

@[simp] theorem Arch.freqChanged_ctValid (c : Arch) :
    c.freqChanged.ctValid = c.ctValid := rfl

@[simp] theorem Arch.freqChanged_treeValid (c : Arch) :
    c.freqChanged.treeValid = false := rfl

@[simp] theorem Arch.freqChanged_err (c : Arch) :
    c.freqChanged.err = c.err := rfl

@[simp] theorem Arch.freqChanged_errInfo (c : Arch) :
    c.freqChanged.errInfo = c.errInfo := rfl

@[simp] theorem Arch.freqChanged_textLen (c : Arch) :
    c.freqChanged.textLen = c.textLen := rfl

@[simp] theorem Arch.freqChanged_bitLen (c : Arch) :
    c.freqChanged.bitLen = c.bitLen := rfl

@[simp] theorem Arch.freqChanged_resid (c : Arch) :
    c.freqChanged.resid = c.resid := rfl

@[simp] theorem Arch.freqChanged_root (c : Arch) :
    c.freqChanged.root = c.root := rfl

@[simp] theorem Arch.freqChanged_nleaf (c : Arch) :
    c.freqChanged.nleaf = c.nleaf := rfl

@[simp] theorem Arch.freqChanged_text (c : Arch) :
    c.freqChanged.text = c.text := rfl

@[simp] theorem Arch.freqChanged_bits (c : Arch) :
    c.freqChanged.bits = c.bits := rfl

@[simp] theorem Arch.freqChanged_freq (c : Arch) :
    c.freqChanged.freq = c.freq := rfl

@[simp] theorem Arch.freqChanged_ctLen (c : Arch) :
    c.freqChanged.ctLen = c.ctLen := rfl

@[simp] theorem Arch.freqChanged_ctCode (c : Arch) :
    c.freqChanged.ctCode = c.ctCode := rfl

@[simp] theorem Arch.freqChanged_nodeW (c : Arch) :
    c.freqChanged.nodeW = c.nodeW := rfl

@[simp] theorem Arch.freqChanged_nodeLR (c : Arch) :
    c.freqChanged.nodeLR = c.nodeLR := rfl

/-! ### `Arch.tableChecked` -/

@[simp] theorem Arch.tableChecked_ctValid (c : Arch) :
    c.tableChecked.ctValid = true := rfl

@[simp] theorem Arch.tableChecked_treeValid (c : Arch) :
    c.tableChecked.treeValid = c.treeValid := rfl

@[simp] theorem Arch.tableChecked_err (c : Arch) :
    c.tableChecked.err = c.err := rfl

@[simp] theorem Arch.tableChecked_errInfo (c : Arch) :
    c.tableChecked.errInfo = c.errInfo := rfl

@[simp] theorem Arch.tableChecked_textLen (c : Arch) :
    c.tableChecked.textLen = c.textLen := rfl

@[simp] theorem Arch.tableChecked_bitLen (c : Arch) :
    c.tableChecked.bitLen = c.bitLen := rfl

@[simp] theorem Arch.tableChecked_resid (c : Arch) :
    c.tableChecked.resid = c.resid := rfl

@[simp] theorem Arch.tableChecked_root (c : Arch) :
    c.tableChecked.root = c.root := rfl

@[simp] theorem Arch.tableChecked_nleaf (c : Arch) :
    c.tableChecked.nleaf = c.nleaf := rfl

@[simp] theorem Arch.tableChecked_text (c : Arch) :
    c.tableChecked.text = c.text := rfl

@[simp] theorem Arch.tableChecked_bits (c : Arch) :
    c.tableChecked.bits = c.bits := rfl

@[simp] theorem Arch.tableChecked_freq (c : Arch) :
    c.tableChecked.freq = c.freq := rfl

@[simp] theorem Arch.tableChecked_ctLen (c : Arch) :
    c.tableChecked.ctLen = c.ctLen := rfl

@[simp] theorem Arch.tableChecked_ctCode (c : Arch) :
    c.tableChecked.ctCode = c.ctCode := rfl

@[simp] theorem Arch.tableChecked_nodeW (c : Arch) :
    c.tableChecked.nodeW = c.nodeW := rfl

@[simp] theorem Arch.tableChecked_nodeLR (c : Arch) :
    c.tableChecked.nodeLR = c.nodeLR := rfl

/-! ### `Arch.tableTouched` -/

@[simp] theorem Arch.tableTouched_ctValid (c : Arch) :
    c.tableTouched.ctValid = false := rfl

@[simp] theorem Arch.tableTouched_treeValid (c : Arch) :
    c.tableTouched.treeValid = c.treeValid := rfl

@[simp] theorem Arch.tableTouched_err (c : Arch) :
    c.tableTouched.err = c.err := rfl

@[simp] theorem Arch.tableTouched_errInfo (c : Arch) :
    c.tableTouched.errInfo = c.errInfo := rfl

@[simp] theorem Arch.tableTouched_textLen (c : Arch) :
    c.tableTouched.textLen = c.textLen := rfl

@[simp] theorem Arch.tableTouched_bitLen (c : Arch) :
    c.tableTouched.bitLen = c.bitLen := rfl

@[simp] theorem Arch.tableTouched_resid (c : Arch) :
    c.tableTouched.resid = c.resid := rfl

@[simp] theorem Arch.tableTouched_root (c : Arch) :
    c.tableTouched.root = c.root := rfl

@[simp] theorem Arch.tableTouched_nleaf (c : Arch) :
    c.tableTouched.nleaf = c.nleaf := rfl

@[simp] theorem Arch.tableTouched_text (c : Arch) :
    c.tableTouched.text = c.text := rfl

@[simp] theorem Arch.tableTouched_bits (c : Arch) :
    c.tableTouched.bits = c.bits := rfl

@[simp] theorem Arch.tableTouched_freq (c : Arch) :
    c.tableTouched.freq = c.freq := rfl

@[simp] theorem Arch.tableTouched_ctLen (c : Arch) :
    c.tableTouched.ctLen = c.ctLen := rfl

@[simp] theorem Arch.tableTouched_ctCode (c : Arch) :
    c.tableTouched.ctCode = c.ctCode := rfl

@[simp] theorem Arch.tableTouched_nodeW (c : Arch) :
    c.tableTouched.nodeW = c.nodeW := rfl

@[simp] theorem Arch.tableTouched_nodeLR (c : Arch) :
    c.tableTouched.nodeLR = c.nodeLR := rfl

/-! ### Results -/

@[simp] theorem Result.commit_done (c : Arch) : (Result.done c).commit = c.record .ok 0#32 := rfl

@[simp] theorem Result.commit_raised (e : ErrCode) (info : Word) (c : Arch) :
    (Result.raised e info c).commit = c.record e info := rfl

@[simp] theorem Result.andThen_done (c : Arch) (f : Arch → Result) :
    (Result.done c).andThen f = f c := rfl

@[simp] theorem Result.andThen_raised (e : ErrCode) (info : Word) (c : Arch) (f : Arch → Result) :
    (Result.raised e info c).andThen f = .raised e info c := rfl

/-- The record of a second result replaces the first. -/
@[simp] theorem Arch.record_record (c : Arch) (e e' : ErrCode) (info info' : Word) :
    (c.record e info).record e' info' = c.record e' info' := rfl

/-! ### The port -/

@[simp] theorem State.reply_hw (s : State) (r : Reply) :
    (s.reply r).hw = s.hw := rfl

@[simp] theorem State.reply_arch (s : State) (r : Reply) :
    (s.reply r).arch = s.arch := rfl

@[simp] theorem State.reply_requests (s : State) (r : Reply) :
    (s.reply r).requests = s.requests := rfl

@[simp] theorem State.reply_replies (s : State) (r : Reply) :
    (s.reply r).replies = s.replies ++ [r] := rfl

@[simp] theorem State.offer_hw (s : State) (t : Triple) :
    (s.offer t).hw = s.hw := rfl

@[simp] theorem State.offer_arch (s : State) (t : Triple) :
    (s.offer t).arch = s.arch := rfl

@[simp] theorem State.offer_requests (s : State) (t : Triple) :
    (s.offer t).requests = .transaction t :: s.requests := rfl

@[simp] theorem State.offer_replies (s : State) (t : Triple) :
    (s.offer t).replies = s.replies := rfl

@[simp] theorem State.runCommand_hw (s : State) (f : Hardware → Arch → Result) :
    (s.runCommand f).hw = s.hw := rfl

@[simp] theorem State.runCommand_arch (s : State) (f : Hardware → Arch → Result) :
    (s.runCommand f).arch = (f s.hw s.arch).commit := rfl

@[simp] theorem State.runCommand_requests (s : State) (f : Hardware → Arch → Result) :
    (s.runCommand f).requests = s.requests := rfl

@[simp] theorem State.runCommand_replies (s : State) (f : Hardware → Arch → Result) :
    (s.runCommand f).replies = s.replies ++ [Reply.accepted] := rfl

@[simp] theorem State.resetOf_hw (hw : Hardware) : (State.resetOf hw).hw = hw := rfl

@[simp] theorem State.resetOf_arch (hw : Hardware) : (State.resetOf hw).arch = Arch.reset := rfl

@[simp] theorem State.resetOf_requests (hw : Hardware) : (State.resetOf hw).requests = [] := rfl

@[simp] theorem State.resetOf_replies (hw : Hardware) : (State.resetOf hw).replies = [] := rfl

/-- What `fetch` finds, case by case on the head of the queue. -/
theorem State.fetch_cases (s : State) :
    (s.requests = [] ∧ s.fetch = .idle) ∨
    (∃ rest, s.requests = .hardwareReset :: rest ∧
      s.fetch = .afterReset { s with arch := Arch.reset, requests := rest }) ∨
    (∃ t rest, s.requests = .transaction t :: rest ∧
      s.fetch = .instruction (decodeBus t) { s with requests := rest }) := by
  unfold State.fetch
  split <;> simp_all

/-- An offered transaction is the next one fetched, and taking it gives the state back. -/
theorem State.fetch_offer (s : State) (t : Triple) :
    (s.offer t).fetch = .instruction (decodeBus t) s := rfl

end Sys2Proof.Machine
end

