-- ==== Sys2Proof/Laws/Commands.lean ====
section
/-! SUPPORT. How each command can end: one lemma per stage, every branch with its guard, so that no
later proof unfolds a stage; and the queue, the merge, the walk and the decoder loop. -/

namespace Sys2Proof.Machine

/-! ### Every command is one shared shape -/

/-- Running a command leaves `finished` of what the command commits. -/
theorem State.runCommand_eq_finished (s : State) (f : Hardware → Arch → Result) :
    s.runCommand f = s.finished (f s.hw s.arch).commit := rfl

theorem exec_nop (s : State) : exec .nop s = .next (s.finished (nopStage s.hw s.arch).commit) := rfl
theorem exec_freq (s : State) : exec .freq s = .next (s.finished (freqStage s.hw s.arch).commit) := rfl
theorem exec_tree (s : State) : exec .tree s = .next (s.finished (treeStage s.hw s.arch).commit) := rfl
theorem exec_derive (s : State) :
    exec .derive s = .next (s.finished (deriveStage s.hw s.arch).commit) := rfl
theorem exec_build (s : State) :
    exec .build s = .next (s.finished (buildStage s.hw s.arch).commit) := rfl
theorem exec_encode (s : State) :
    exec .encode s = .next (s.finished (encodeStage s.hw s.arch).commit) := rfl
theorem exec_decode (s : State) :
    exec .decode s = .next (s.finished (decodeStage s.hw s.arch).commit) := rfl
theorem exec_ctclr (s : State) :
    exec .ctclr s = .next (s.finished (ctclrStage s.hw s.arch).commit) := rfl
theorem exec_ctchk (s : State) :
    exec .ctchk s = .next (s.finished (ctchkStage s.hw s.arch).commit) := rfl
theorem exec_reset (s : State) :
    exec .reset s = .next (s.finished (resetStage s.hw s.arch).commit) := rfl

/-- The architectural state a finished step leaves is determined. -/
theorem State.finished_inj {s : State} {c d : Arch} (h : s.finished c = s.finished d) : c = d :=
  congrArg State.arch h

/-! ### FREQ -/

theorem freqStage_cases (hw : Hardware) (c : Arch) :
    (hw.textCap < c.textLen.toNat ∧ freqStage hw c = .raised .length c.textLen c) ∨
    (c.textLen.toNat ≤ hw.textCap ∧ freqStage hw c = .done { c with
      freq := c.freq.writeBlock 0
        ((List.range hw.nSym).map fun s => BitVec.ofNat 32 (c.currentText.count s))
      treeValid := false }) := by
  unfold freqStage
  split
  · exact .inl ⟨‹_›, rfl⟩
  · exact .inr ⟨by omega, rfl⟩

/-! ### TREE -/

theorem queuePush_perm (k : Key) (q : List Key) : (queuePush k q).Perm (k :: q) := by
  induction q with
  | nil => exact List.Perm.refl _
  | cons x xs ih =>
    unfold queuePush
    split
    · exact List.Perm.refl _
    · exact (List.Perm.cons x ih).trans (List.Perm.swap k x xs)

@[simp] theorem length_queuePush (k : Key) (q : List Key) :
    (queuePush k q).length = q.length + 1 := by
  simpa using (queuePush_perm k q).length_eq

theorem length_foldl_queuePush (f : Nat → Key) (xs : List Nat) (q : List Key) :
    (xs.foldl (fun q s => queuePush (f s) q) q).length = q.length + xs.length := by
  induction xs generalizing q with
  | nil => simp
  | cons x xs ih => simp only [List.foldl_cons, ih, length_queuePush, List.length_cons]; omega

/-- The queue starts with one pair for each symbol of the map. -/
@[simp] theorem length_leafQueue (hw : Hardware) (c : Arch) :
    (leafQueue hw c).length = (c.counted hw).length := by
  simp [leafQueue, length_foldl_queuePush]

/-- With enough rounds for its pairs, a merge of a non-empty queue creates one node fewer than
there were pairs and leaves exactly one pair. -/
theorem mergeRounds_lengths (rounds fresh : Nat) (q : List Key) (h : q.length = rounds + 1) :
    (mergeRounds rounds fresh q).1.length = rounds ∧ (mergeRounds rounds fresh q).2.length = 1 := by
  induction rounds generalizing fresh q with
  | zero => exact ⟨by simp [mergeRounds], by simpa [mergeRounds] using h⟩
  | succ rounds ih =>
    match q, h with
    | a :: b :: rest, h =>
      have hlen : (queuePush { weight := a.weight + b.weight, id := fresh } rest).length = rounds + 1 := by
        simp at h ⊢; omega
      have ⟨h1, h2⟩ := ih (fresh + 1) _ hlen
      exact ⟨by simp [mergeRounds, h1], by simp [mergeRounds, h2]⟩

theorem treeStage_cases (hw : Hardware) (c : Arch) :
    (c.counted hw = [] ∧ treeStage hw c = .raised .empty 0#32 c) ∨
    (∃ nodes last, c.counted hw ≠ [] ∧ mergeAll hw c = (nodes, [last]) ∧
      nodes.length = (c.counted hw).length - 1 ∧
      treeStage hw c = .done { c with
        nodeW := c.nodeW.writeBlock 0 (arenaWeights hw c nodes)
        nodeLR := c.nodeLR.writeBlock 0 (arenaChildren hw nodes)
        root := BitVec.ofNat 32 last.id
        nleaf := BitVec.ofNat 32 (c.counted hw).length
        treeValid := true }) := by
  by_cases h : c.counted hw = []
  · have hq : leafQueue hw c = [] := by
      have := length_leafQueue hw c
      rw [h] at this
      exact List.length_eq_zero_iff.mp this
    refine .inl ⟨h, ?_⟩
    simp [treeStage, mergeAll, hq, mergeRounds]
  · right
    have hpos : 0 < (c.counted hw).length := List.length_pos_iff.mpr h
    have hl : (leafQueue hw c).length = (c.counted hw).length - 1 + 1 := by simp; omega
    have ⟨h1, h2⟩ := mergeRounds_lengths ((c.counted hw).length - 1) hw.nSym _ hl
    have hm : mergeAll hw c =
        mergeRounds ((c.counted hw).length - 1) hw.nSym (leafQueue hw c) := by
      simp [mergeAll]
    obtain ⟨last, hlast⟩ := List.length_eq_one_iff.mp h2
    refine ⟨(mergeAll hw c).1, last, h, ?_, by rw [hm]; exact h1, ?_⟩
    · rw [hm]; exact Prod.ext rfl hlast
    · have hpair : mergeAll hw c = ((mergeAll hw c).1, [last]) := by
        rw [hm]; exact Prod.ext rfl hlast
      rw [treeStage, hpair]
      rfl

/-! ### DERIVE -/

theorem deriveStage_cases (hw : Hardware) (c : Arch) :
    (c.treeValid = false ∧ deriveStage hw c = .raised .noTree 0#32 c) ∨
    (∃ s, c.treeValid = true ∧
      (treeLeaves hw c).find?
        (fun s => decide (hw.maxlen < (codeOf (treeCodes hw c) s).length)) = some s ∧
      deriveStage hw c =
        .raised .depth (halves (codeOf (treeCodes hw c) s).length s) c) ∨
    (c.treeValid = true ∧
      (∀ s ∈ treeLeaves hw c, (codeOf (treeCodes hw c) s).length ≤ hw.maxlen) ∧
      deriveStage hw c = .done { c with
        ctLen := c.ctLen.writeBlock 0 (tableColumn hw c (treeCodes hw c) List.length)
        ctCode := c.ctCode.writeBlock 0 (tableColumn hw c (treeCodes hw c) bitsVal)
        ctValid := true }) := by
  unfold deriveStage
  cases ht : c.treeValid with
  | false => exact .inl ⟨rfl, by simp⟩
  | true =>
    right
    simp only [Bool.not_true, Bool.false_eq_true, if_false]
    split
    · rename_i s hs
      exact .inl ⟨s, trivial, hs, rfl⟩
    · rename_i hs
      refine .inr ⟨trivial, ?_, rfl⟩
      intro s hmem
      have := List.find?_eq_none.mp hs s hmem
      simpa using this

/-! ### CTCHK and CTCLR -/

theorem ctchkStage_cases (hw : Hardware) (c : Arch) :
    (∃ s, (List.range hw.nSym).find? (entryMalformed hw c) = some s ∧
      ctchkStage hw c = .raised .entry (BitVec.ofNat 32 s) c) ∨
    ((List.range hw.nSym).find? (entryMalformed hw c) = none ∧ c.coded hw = [] ∧
      ctchkStage hw c = .raised .empty 0#32 c) ∨
    (∃ s t, (List.range hw.nSym).find? (entryMalformed hw c) = none ∧ c.coded hw ≠ [] ∧
      prefixPair hw c = some (s, t) ∧ ctchkStage hw c = .raised .prefixClash (halves t s) c) ∨
    ((List.range hw.nSym).find? (entryMalformed hw c) = none ∧ c.coded hw ≠ [] ∧
      prefixPair hw c = none ∧ ctchkStage hw c = .done { c with ctValid := true }) := by
  unfold ctchkStage
  split
  · rename_i s hs
    exact .inl ⟨s, hs, rfl⟩
  · rename_i hs
    right
    by_cases he : c.coded hw = []
    · exact .inl ⟨hs, he, by simp [he]⟩
    · right
      have hne : (c.coded hw).isEmpty = false := by simpa using he
      simp only [hne, Bool.false_eq_true, if_false]
      split
      · rename_i s t hp
        exact .inl ⟨s, t, hs, he, hp, rfl⟩
      · rename_i hp
        exact .inr ⟨hs, he, hp, rfl⟩

theorem ctclrStage_eq (hw : Hardware) (c : Arch) :
    ctclrStage hw c = .done { c with
      ctLen := c.ctLen.writeBlock 0 (List.replicate hw.nSym 0#32)
      ctCode := c.ctCode.writeBlock 0 (List.replicate hw.nSym 0#32)
      ctValid := false } := rfl

/-! ### BUILD -/

/-- BUILD ends at the first of its stages that raises. -/
theorem buildStage_cases (hw : Hardware) (c : Arch) :
    (∃ e i, freqStage hw c = .raised e i c ∧ buildStage hw c = .raised e i c) ∨
    (∃ c₁ e i, freqStage hw c = .done c₁ ∧ treeStage hw c₁ = .raised e i c₁ ∧
      buildStage hw c = .raised e i c₁) ∨
    (∃ c₁ c₂, freqStage hw c = .done c₁ ∧ treeStage hw c₁ = .done c₂ ∧
      buildStage hw c = deriveStage hw c₂) := by
  rcases freqStage_cases hw c with ⟨-, hf⟩ | ⟨-, hf⟩
  · exact .inl ⟨_, _, hf, by simp [buildStage, hf]⟩
  · right
    rcases treeStage_cases hw { c with
      freq := c.freq.writeBlock 0
        ((List.range hw.nSym).map fun s => BitVec.ofNat 32 (c.currentText.count s))
      treeValid := false } with ⟨-, ht⟩ | ⟨_, _, -, -, -, ht⟩
    · exact .inl ⟨_, _, _, hf, ht, by simp only [buildStage, hf, Result.andThen_done, ht,
        Result.andThen_raised]⟩
    · exact .inr ⟨_, _, hf, ht, by simp only [buildStage, hf, Result.andThen_done, ht]⟩

/-! ### ENCODE -/

theorem encodeStage_cases (hw : Hardware) (c : Arch) :
    (c.ctValid = false ∧ encodeStage hw c = .raised .noTable 0#32 c) ∨
    (c.ctValid = true ∧ hw.textCap < c.textLen.toNat ∧
      encodeStage hw c = .raised .length c.textLen c) ∨
    (∃ i, c.ctValid = true ∧ c.textLen.toNat ≤ hw.textCap ∧ firstUnencodable c = some i ∧
      encodeStage hw c = .raised .symbol (halves i (c.symbolAt i)) c) ∨
    (c.ctValid = true ∧ c.textLen.toNat ≤ hw.textCap ∧ firstUnencodable c = none ∧
      8 * hw.bitsCap < encodedLength c ∧
      encodeStage hw c = .raised .overflow (BitVec.ofNat 32 (encodedLength c)) c) ∨
    (c.ctValid = true ∧ c.textLen.toNat ≤ hw.textCap ∧ firstUnencodable c = none ∧
      encodedLength c ≤ 8 * hw.bitsCap ∧
      encodeStage hw c = .done { c with
        bits := c.bits.writeBlock 0 (packBytes (byteCount (encodedLength c)) (encodedBits c))
        bitLen := BitVec.ofNat 32 (encodedLength c) }) := by
  unfold encodeStage
  cases hv : c.ctValid with
  | false => exact .inl ⟨rfl, by simp⟩
  | true =>
    right
    simp only [Bool.not_true, Bool.false_eq_true, if_false]
    split
    · exact .inl ⟨trivial, ‹_›, rfl⟩
    · rename_i hlen
      right
      split
      · rename_i i hi
        exact .inl ⟨i, trivial, by omega, hi, rfl⟩
      · rename_i hi
        right
        split
        · exact .inl ⟨trivial, by omega, hi, ‹_›, rfl⟩
        · exact .inr ⟨trivial, by omega, hi, by omega, rfl⟩

/-- The output is as long as the sum of the codeword lengths. -/
theorem length_encodedBits (c : Arch) : (encodedBits c).length = encodedLength c := by
  simp [encodedBits, encodedLength, List.length_flatMap, Arch.codeword]

/-! ### DECODE -/

theorem decodeStage_cases (hw : Hardware) (c : Arch) :
    (c.ctValid = false ∧ decodeStage hw c = .raised .noTable 0#32 c) ∨
    (c.ctValid = true ∧ 8 * hw.bitsCap < c.bitLen.toNat ∧
      decodeStage hw c = .raised .length c.bitLen c) ∨
    (c.ctValid = true ∧ c.bitLen.toNat ≤ 8 * hw.bitsCap ∧
      hw.textCap < (decodeBits hw c c.currentBits []).1.length ∧
      decodeStage hw c =
        .raised .overflow (BitVec.ofNat 32 (decodeBits hw c c.currentBits []).1.length) c) ∨
    (c.ctValid = true ∧ c.bitLen.toNat ≤ 8 * hw.bitsCap ∧
      (decodeBits hw c c.currentBits []).1.length ≤ hw.textCap ∧
      decodeStage hw c = .done { c with
        text := c.text.writeBlock 0
          ((decodeBits hw c c.currentBits []).1.map (BitVec.ofNat 32))
        textLen := BitVec.ofNat 32 (decodeBits hw c c.currentBits []).1.length
        resid := BitVec.ofNat 32 (decodeBits hw c c.currentBits []).2.length }) := by
  unfold decodeStage
  cases hv : c.ctValid with
  | false => exact .inl ⟨rfl, by simp⟩
  | true =>
    right
    simp only [Bool.not_true, Bool.false_eq_true, if_false]
    split
    · exact .inl ⟨trivial, ‹_›, rfl⟩
    · right
      split
      · exact .inl ⟨trivial, by omega, ‹_›, rfl⟩
      · exact .inr ⟨trivial, by omega, by omega, rfl⟩

/-- What a match says of the accumulator. -/
theorem matchSymbol_some {hw : Hardware} {c : Arch} {acc : Bits} {s : Nat}
    (h : matchSymbol hw c acc = some s) :
    s < hw.nSym ∧ (c.ctLen.read s).toNat = acc.length ∧ (c.ctCode.read s).toNat = bitsVal acc := by
  have h1 := List.find?_some h
  have h2 := List.mem_of_find?_eq_some h
  simp at h1 h2
  exact ⟨h2, h1.1, h1.2⟩

/-- A matched accumulator is the codeword of the symbol found. -/
theorem codeword_of_matchSymbol {hw : Hardware} {c : Arch} {acc : Bits} {s : Nat}
    (h : matchSymbol hw c acc = some s) : c.codeword s = acc := by
  have ⟨_, h1, h2⟩ := matchSymbol_some h
  rw [Arch.codeword, h1, h2, bitsSeq_bitsVal]

/-! ### The whole step -/

/-- What one step can do. -/
theorem step_cases (s : State) :
    (s.requests = [] ∧ step s = .next s) ∨
    (∃ rest, s.requests = .hardwareReset :: rest ∧
      step s = .next { s with arch := Arch.reset, requests := rest }) ∨
    (∃ t rest, s.requests = .transaction t :: rest ∧
      step s = exec (decodeBus t) { s with requests := rest }) := by
  unfold step
  rcases s.fetch_cases with ⟨h, hf⟩ | ⟨rest, h, hf⟩ | ⟨t, rest, h, hf⟩
  · exact .inl ⟨h, by rw [hf]⟩
  · exact .inr (.inl ⟨rest, h, by rw [hf]⟩)
  · exact .inr (.inr ⟨t, rest, h, by rw [hf]⟩)

end Sys2Proof.Machine
end

