-- ==== Sys2Proof/Laws/Decode.lean ====
section
/-! SUPPORT. The fields of a transaction, and what the command decoder answers. -/

namespace Sys2Proof

@[simp] theorem triple_kind (kind : Bool) (a : Addr) (v : Word) :
    (triple kind a v).getLsbD 52 = kind := by
  unfold triple
  rw [BitVec.getLsbD_append, BitVec.getLsbD_append]
  cases kind <;> simp

@[simp] theorem triple_kind_getElem (kind : Bool) (a : Addr) (v : Word) :
    (triple kind a v)[52] = kind := triple_kind kind a v

theorem toNat_triple (kind : Bool) (a : Addr) (v : Word) :
    (triple kind a v).toNat = kind.toNat * 2 ^ 52 + a.toNat * 2 ^ 32 + v.toNat := by
  unfold triple
  rw [BitVec.toNat_append, ← Nat.shiftLeft_add_eq_or_of_lt v.isLt, BitVec.toNat_append,
    ← Nat.shiftLeft_add_eq_or_of_lt a.isLt, Nat.shiftLeft_eq, Nat.shiftLeft_eq,
    BitVec.toNat_ofBool]
  ring

@[simp] theorem triple_addr (kind : Bool) (a : Addr) (v : Word) :
    (triple kind a v).extractLsb' 32 20 = a := by
  apply BitVec.eq_of_toNat_eq
  rw [BitVec.extractLsb'_toNat, toNat_triple, Nat.shiftRight_eq_div_pow]
  have := a.isLt; have := v.isLt
  cases kind <;> simp <;> omega

@[simp] theorem triple_data (kind : Bool) (a : Addr) (v : Word) :
    (triple kind a v).extractLsb' 0 32 = v := by
  apply BitVec.eq_of_toNat_eq
  rw [BitVec.extractLsb'_toNat, toNat_triple, Nat.shiftRight_zero]
  have := a.isLt; have := v.isLt
  cases kind <;> simp <;> omega

/-- A written triple decodes to the write of its fields. -/
theorem decodeBus_write (a : Addr) (v : Word) : decodeBus (triple true a v) = .wr a v := by
  simp [decodeBus]

/-- A read triple decodes to the read of its address, whatever its data. -/
theorem decodeBus_read (a : Addr) (v : Word) : decodeBus (triple false a v) = .rd a := by
  simp [decodeBus]

/-- A word is the number of its two fields. -/
theorem word_eq_of_fields (w : Word) (hz : w.extractLsb' 8 24 = 0#24) :
    w.toNat = (w.extractLsb' 0 8).toNat := by
  have h := congrArg BitVec.toNat hz
  rw [BitVec.extractLsb'_toNat, Nat.shiftRight_eq_div_pow] at h
  rw [BitVec.extractLsb'_toNat, Nat.shiftRight_zero]
  have := w.isLt
  simp at h
  omega

/-- The command decoder never answers with a transaction. -/
theorem decodeCommand_ne_bus (w : Word) :
    (∀ a, decodeCommand w ≠ .ok (.rd a)) ∧ (∀ a v, decodeCommand w ≠ .ok (.wr a v)) := by
  unfold decodeCommand
  constructor <;> intros <;> split <;> try split
  all_goals simp

end Sys2Proof
end

