-- ==== Sys2Proof/Laws/PerInstr.lean ====
section
/-! SUPPORT. Facts made per instruction. Family `Format`: an instruction is encoded in format CMD
exactly when it is one of the ten commands (spec/30_encoding.md R90, R93). -/

namespace Sys2Proof.Laws.Format

open Sys2Proof.Machine

def Statement (i : Instr) : Prop := i.wf = true ∧ (i ∈ commands ↔ ∃ w, encode i = .cmd w)

theorem nop : Statement .nop := ⟨rfl, by simp [commands, commandWords, Sys2Proof.encode]⟩
theorem freq : Statement .freq := ⟨rfl, by simp [commands, commandWords, Sys2Proof.encode]⟩
theorem tree : Statement .tree := ⟨rfl, by simp [commands, commandWords, Sys2Proof.encode]⟩
theorem derive : Statement .derive := ⟨rfl, by simp [commands, commandWords, Sys2Proof.encode]⟩
theorem build : Statement .build := ⟨rfl, by simp [commands, commandWords, Sys2Proof.encode]⟩
theorem encode : Statement .encode := ⟨rfl, by simp [commands, commandWords, Sys2Proof.encode]⟩
theorem decode : Statement .decode := ⟨rfl, by simp [commands, commandWords, Sys2Proof.encode]⟩
theorem ctclr : Statement .ctclr := ⟨rfl, by simp [commands, commandWords, Sys2Proof.encode]⟩
theorem ctchk : Statement .ctchk := ⟨rfl, by simp [commands, commandWords, Sys2Proof.encode]⟩
theorem reset : Statement .reset := ⟨rfl, by simp [commands, commandWords, Sys2Proof.encode]⟩
theorem rd (a : Addr) : Statement (.rd a) :=
  ⟨rfl, by simp [commands, commandWords, Sys2Proof.encode]⟩
theorem wr (a : Addr) (v : Word) : Statement (.wr a v) :=
  ⟨rfl, by simp [commands, commandWords, Sys2Proof.encode]⟩

end Sys2Proof.Laws.Format
end

