-- ==== Sys2Proof/Tests/Slice0.lean ====
section
/-! SUPPORT. Tests against the spec's own examples (spec/95_test_vectors.md, the vector is named at
each test), and for every statement with hypotheses a witness that meets them. -/

namespace Sys2Proof.Tests

open Sys2Proof Sys2Proof.Machine

/-! ### Well-formedness: one ill-formed parameter set for each constraint of R6 -/

def params (symw cntw maxlen textCap bitsCap : Nat) : Params :=
  { symw := symw, cntw := cntw, maxlen := maxlen, textCap := textCap, bitsCap := bitsCap }

theorem test_defaults_wf : Params.defaults.WF := by decide
theorem test_symw_zero_refused : ¬ (params 0 24 32 65536 65536).WF := by decide
theorem test_symw_16_refused : ¬ (params 16 16 32 65535 65536).WF := by decide
theorem test_cntw_zero_refused : ¬ (params 8 0 32 1 65536).WF := by decide
theorem test_weight_over_32_refused : ¬ (params 8 25 32 65536 65536).WF := by decide
theorem test_maxlen_zero_refused : ¬ (params 8 24 0 65536 65536).WF := by decide
theorem test_maxlen_33_refused : ¬ (params 8 24 33 65536 65536).WF := by decide
theorem test_text_cap_zero_refused : ¬ (params 8 24 32 0 65536).WF := by decide
theorem test_text_cap_over_region_refused : ¬ (params 8 24 32 65537 65536).WF := by decide
theorem test_text_cap_over_count_refused : ¬ (params 8 8 32 256 65536).WF := by decide
theorem test_bits_cap_zero_refused : ¬ (params 8 24 32 65536 0).WF := by decide
theorem test_bits_cap_over_region_refused : ¬ (params 8 24 32 65536 65537).WF := by decide
theorem test_edge_params_accepted : (params 15 17 32 65536 65536).WF ∧ (params 1 1 1 1 1).WF := by
  decide

/-! ### Decoding: words written out from R93 and R90 -/

theorem test_decode_nop : decodeCommand 0b00000000000000000000000000000000#32 = .ok .nop := by decide
theorem test_decode_freq : decodeCommand 0b00000000000000000000000000000001#32 = .ok .freq := by decide
theorem test_decode_tree : decodeCommand 0b00000000000000000000000000000010#32 = .ok .tree := by decide
theorem test_decode_derive : decodeCommand 0b00000000000000000000000000000011#32 = .ok .derive := by decide
theorem test_decode_build : decodeCommand 0b00000000000000000000000000000100#32 = .ok .build := by decide
theorem test_decode_encode : decodeCommand 0b00000000000000000000000000000101#32 = .ok .encode := by decide
theorem test_decode_decode : decodeCommand 0b00000000000000000000000000000110#32 = .ok .decode := by decide
theorem test_decode_ctclr : decodeCommand 0b00000000000000000000000000000111#32 = .ok .ctclr := by decide
theorem test_decode_ctchk : decodeCommand 0b00000000000000000000000000001000#32 = .ok .ctchk := by decide
theorem test_decode_reset : decodeCommand 0b00000000000000000000000000001111#32 = .ok .reset := by decide

/-- `RD 0x40061`: kind 0, address 0100 0000 0000 0110 0001, data ignored (here all ones). -/
theorem test_decode_rd :
    decodeBus 0b00100000000000110000111111111111111111111111111111111#53 = .rd 0x40061#20 := by decide

/-- `WR 0x40061, 1` (R125's example): kind 1, address 0100 0000 0000 0110 0001, data 1. -/
theorem test_decode_wr :
    decodeBus 0b10100000000000110000100000000000000000000000000000001#53 = .wr 0x40061#20 1#32 := by
  decide

/-- V73 and V74: an upper bit set, and unknown opcodes. -/
theorem test_decode_rejects :
    decodeCommand 0x00000105#32 = .error .zeroFieldSet ∧
    decodeCommand 0x8000000F#32 = .error .zeroFieldSet ∧
    decodeCommand 0x00000009#32 = .error .unknownOpcode ∧
    decodeCommand 0x0000000E#32 = .error .unknownOpcode ∧
    decodeCommand 0x00000010#32 = .error .unknownOpcode ∧
    decodeCommand 0x000000FF#32 = .error .unknownOpcode := by decide

theorem test_table_words :
    decodeTableWord 32 0x0000000F = some .reset ∧ decodeTableWord 32 9 = none ∧
    decodeTableWord 56 0 = some (.rd 0#20) ∧
    decodeTableWord 56 0x10000000000000 = some (.wr 0#20 0#32) ∧
    decodeTableWord 56 0x20000000000000 = none := by decide

/-! ### A small instance (V7: SYMW 2, CNTW 8, MAXLEN 2, TEXT_CAP 16, BITS_CAP 4) and its states -/

def smallHw : Hardware := { params 2 8 2 16 4 with ok := by decide }

/-- The small instance with `MAXLEN = 8`, for codewords long enough to overflow BITS. -/
def longHw : Hardware := { params 2 8 8 16 4 with ok := by decide }

/-- The small instance with `TEXT_CAP = 2`. -/
def tinyHw : Hardware := { params 2 8 2 2 4 with ok := by decide }

def onHw (hw : Hardware) (c : Arch) : State := { State.resetOf hw with arch := c }

def small (c : Arch) : State := onHw smallHw c

def mem (cells : List (Nat × Word)) : Memory := { cells := cells }

def archAfter : Host.Outcome State Fault Refusal → Option Arch
  | .next t => some t.arch
  | .fault _ => none
  | .refused _ => none

def repliesAfter : Host.Outcome State Fault Refusal → List Reply
  | .next t => t.replies
  | .fault _ => []
  | .refused _ => []

/-- V42's text `[0,1,2,3]`. -/
def textArch : Arch :=
  { Arch.reset with textLen := 4#32, text := mem [(1, 1#32), (2, 2#32), (3, 3#32)] }

/-- V41's state after `LDTEXT [3,3,2,2]; BUILD`: codes 2 = `1`, 3 = `0`. -/
def builtArch : Arch :=
  { Arch.reset with
    ctValid := true, treeValid := true, textLen := 4#32, root := 4#32, nleaf := 2#32
    text := mem [(0, 3#32), (1, 3#32), (2, 2#32), (3, 2#32)]
    freq := mem [(2, 2#32), (3, 2#32)]
    ctLen := mem [(2, 1#32), (3, 1#32)], ctCode := mem [(2, 1#32)]
    nodeW := mem [(2, 2#32), (3, 2#32), (4, 4#32)], nodeLR := mem [(4, 0x00030002#32)] }

/-- A tree of counts 1, 2, 4, 8 as in V41's failing BUILD: a chain of depth 3, above `MAXLEN`. -/
def deepArch : Arch :=
  { Arch.reset with
    treeValid := true, root := 6#32, nleaf := 4#32
    freq := mem [(0, 1#32), (1, 2#32), (2, 4#32), (3, 8#32)]
    nodeW := mem [(0, 1#32), (1, 2#32), (2, 4#32), (3, 8#32), (4, 3#32), (5, 7#32), (6, 15#32)]
    nodeLR := mem [(4, 0x00010000#32), (5, 0x00020004#32), (6, 0x00030005#32)] }

/-- The tree of the lone symbol 2, count 4 (as S7, in the small alphabet). -/
def loneArch : Arch :=
  { Arch.reset with
    treeValid := true, root := 2#32, nleaf := 1#32
    freq := mem [(2, 4#32)], nodeW := mem [(2, 4#32)] }

/-- V51's table in the small alphabet: symbol 0 = eight `0`s, symbol 1 = `1`. -/
def longArch : Arch :=
  { Arch.reset with ctValid := true, ctLen := mem [(0, 8#32), (1, 1#32)], ctCode := mem [(1, 1#32)] }

/-- Two or three of the one-bit codeword `1`. -/
def streamArch (len : Word) : Arch :=
  { builtArch with treeValid := false, bitLen := len, bits := mem [(0, 0xE0#32)], text := mem [] }

/-- Clause (d) of CTOK from a finite check. -/
theorem prefixFree_of_check (hw : Hardware) (c : Arch)
    (h : (List.range hw.nSym).all (fun s => (List.range hw.nSym).all (fun t =>
      s == t || c.ctLen.read s == 0#32 || c.ctLen.read t == 0#32 ||
        !(c.codeword s).isPrefixOf (c.codeword t))) = true) :
    ∀ s < hw.nSym, ∀ t < hw.nSym, s ≠ t →
      0 < (c.ctLen.read s).toNat → 0 < (c.ctLen.read t).toNat →
      ¬ (c.codeword s <+: c.codeword t) := by
  intro s hs t ht hne h1 h2 hp
  have := List.all_eq_true.1 (List.all_eq_true.1 h s (by simpa using hs)) t (by simpa using ht)
  have hp' := List.isPrefixOf_iff_prefix.2 hp
  have e1 : c.ctLen.read s ≠ 0#32 := fun e => by simp [e] at h1
  have e2 : c.ctLen.read t ≠ 0#32 := fun e => by simp [e] at h2
  simp [hne, e1, e2, hp'] at this

theorem built_inv : (small builtArch).Inv where
  memories := ⟨by decide, by decide, by decide, by decide, by decide, by decide, by decide⟩
  registers := ⟨by decide, by decide⟩
  table := fun _ => ⟨by decide, by decide, by decide, prefixFree_of_check _ _ (by decide)⟩
  arena := fun _ => ⟨by decide, by decide, by decide, by decide, by decide, by decide, by decide,
    by decide, by decide, by decide⟩

theorem deep_inv : (small deepArch).Inv where
  memories := ⟨by decide, by decide, by decide, by decide, by decide, by decide, by decide⟩
  registers := ⟨by decide, by decide⟩
  table := by intro h; cases h
  arena := fun _ => ⟨by decide, by decide, by decide, by decide, by decide, by decide, by decide,
    by decide, by decide, by decide⟩

theorem lone_inv : (small loneArch).Inv where
  memories := ⟨by decide, by decide, by decide, by decide, by decide, by decide, by decide⟩
  registers := ⟨by decide, by decide⟩
  table := by intro h; cases h
  arena := fun _ => ⟨by decide, by decide, by decide, by decide, by decide, by decide, by decide,
    by decide, by decide, by decide⟩

theorem fits_inv : (onHw tinyHw (streamArch 2#32)).Inv where
  memories := ⟨by decide, by decide, by decide, by decide, by decide, by decide, by decide⟩
  registers := ⟨by decide, by decide⟩
  table := fun _ => ⟨by decide, by decide, by decide, prefixFree_of_check _ _ (by decide)⟩
  arena := by intro h; cases h

theorem overflows_inv : (onHw tinyHw (streamArch 3#32)).Inv where
  memories := ⟨by decide, by decide, by decide, by decide, by decide, by decide, by decide⟩
  registers := ⟨by decide, by decide⟩
  table := fun _ => ⟨by decide, by decide, by decide, prefixFree_of_check _ _ (by decide)⟩
  arena := by intro h; cases h

theorem empty_inv : (small Arch.reset).Inv where
  memories := ⟨by decide, by decide, by decide, by decide, by decide, by decide, by decide⟩
  registers := ⟨by decide, by decide⟩
  table := by intro h; cases h
  arena := by intro h; cases h

/-! ### Commands -/

/-- V71: NOP after V45's failed ENCODE. -/
theorem test_nop : (archAfter (exec .nop (small { builtArch with
      err := .symbol, errInfo := 0x78#32 }))).map
        (fun c => (c.statusWord, c.errInfo, c.ctLen, c.textLen)) =
    some (0x00000006#32, 0#32, builtArch.ctLen, 4#32) := by decide

/-- V72. -/
theorem test_reset : archAfter (exec .reset (small builtArch)) = some Arch.reset := by decide

/-- V42's counts. -/
theorem test_freq : (archAfter (exec .freq (small textArch))).map (fun c => (c.freq, c.statusWord)) =
    some (mem [(0, 1#32), (1, 1#32), (2, 1#32), (3, 1#32)], 0#32) := by decide

/-- V12: a text longer than TEXT_CAP; the flags and FREQ are kept. -/
theorem test_freq_length : (archAfter (exec .freq (small { builtArch with textLen := 17#32 }))).map
      (fun c => (c.statusWord, c.errInfo, c.freq)) =
    some (0x00000806#32, 17#32, builtArch.freq) := by decide

/-- V20 and V42: four equal weights, every merge a tie. -/
theorem test_tree : (archAfter (exec .tree (small { Arch.reset with
      freq := mem [(0, 1#32), (1, 1#32), (2, 1#32), (3, 1#32)] }))).map
        (fun c => (c.nodeLR, c.root, c.nleaf, c.statusWord)) =
    some (mem [(4, 0x00010000#32), (5, 0x00030002#32), (6, 0x00050004#32)], 6#32, 4#32, 4#32) := by
  decide

/-- V18. -/
theorem test_tree_empty : (archAfter (exec .tree (small Arch.reset))).map
      (fun c => (c.statusWord, c.root, c.nleaf)) = some (0x00000200#32, 0#32, 0#32) := by decide

/-- V41's tree: 2 = `1`, 3 = `0`. -/
theorem test_derive : (archAfter (exec .derive (small { builtArch with
      ctValid := false, ctLen := .empty, ctCode := .empty }))).map
        (fun c => (c.ctLen, c.ctCode, c.statusWord)) =
    some (mem [(2, 1#32), (3, 1#32)], mem [(2, 1#32)], 0x00000006#32) := by decide

/-- V41: depth 3, least symbol 0. -/
theorem test_derive_depth : (archAfter (exec .derive (small deepArch))).map
      (fun c => (c.statusWord, c.errInfo, c.ctLen)) =
    some (0x00000604#32, 0x00030000#32, .empty) := by decide

/-- V42: BUILD gives 0 = `11`, 1 = `10`, 2 = `01`, 3 = `00`. -/
theorem test_build : (archAfter (exec .build (small textArch))).map
      (fun c => (c.ctLen, c.ctCode, c.statusWord, c.root)) =
    some (mem [(0, 2#32), (1, 2#32), (2, 2#32), (3, 2#32)], mem [(0, 3#32), (1, 2#32), (2, 1#32)],
      0x00000006#32, 6#32) := by decide

/-- V39: an empty sample keeps the old table and the stale tree. -/
theorem test_build_empty : (archAfter (exec .build (small { builtArch with textLen := 0#32 }))).map
      (fun c => (c.statusWord, c.freq, c.root, c.ctLen)) =
    some (0x00000202#32, .empty, 4#32, builtArch.ctLen) := by decide

/-- V42: `[0,1,2,3]` under that table packs to 0xE4. -/
theorem test_encode : (archAfter (exec .encode (small { textArch with
      ctValid := true, ctLen := mem [(0, 2#32), (1, 2#32), (2, 2#32), (3, 2#32)]
      ctCode := mem [(0, 3#32), (1, 2#32), (2, 1#32)] }))).map
        (fun c => (c.bits, c.bitLen, c.statusWord)) =
    some (mem [(0, 0xE4#32)], 8#32, 0x00000002#32) := by decide

/-- V46: an unencodable symbol in the middle; nothing is written. -/
theorem test_encode_symbol : (archAfter (exec .encode (small { builtArch with
      text := mem [(0, 3#32), (1, 2#32), (2, 1#32), (3, 2#32)], bits := mem [(0, 7#32)] }))).map
        (fun c => (c.statusWord, c.errInfo, c.bits, c.bitLen)) =
    some (0x00000306#32, 0x00020001#32, mem [(0, 7#32)], 0#32) := by decide

/-- V30's code in the small alphabet (0 = `0`, 1 = `10`; `11` is no codeword), as V69: bits
`0 10 11`, two symbols and a residue of 2. -/
theorem test_decode : (archAfter (exec .decode (small { Arch.reset with
      ctValid := true, ctLen := mem [(0, 1#32), (1, 2#32)], ctCode := mem [(1, 2#32)]
      bits := mem [(0, 0x58#32)], bitLen := 5#32, text := mem [(2, 3#32)] }))).map
        (fun c => (c.text, c.textLen, c.resid, c.statusWord)) =
    some (mem [(1, 1#32), (2, 3#32)], 2#32, 2#32, 0x00000002#32) := by decide

/-- V63: the lone-leaf table and bits `1011`: after the first 0 nothing more is emitted. -/
theorem test_decode_dead : (archAfter (exec .decode (small { Arch.reset with
      ctValid := true, ctLen := mem [(1, 1#32)], ctCode := mem [(1, 1#32)]
      bits := mem [(0, 0xB0#32)], bitLen := 4#32 }))).map (fun c => (c.textLen, c.resid)) =
    some (1#32, 3#32) := by decide

/-- V37. -/
theorem test_ctclr : (archAfter (exec .ctclr (small builtArch))).map
      (fun c => (c.ctLen, c.ctCode, c.statusWord)) = some (.empty, .empty, 0x00000004#32) := by decide

/-- V30's incomplete table passes. -/
theorem test_ctchk : (archAfter (exec .ctchk (small { Arch.reset with
      ctLen := mem [(0, 1#32), (1, 2#32)], ctCode := mem [(1, 2#32)] }))).map Arch.statusWord =
    some 0x00000002#32 := by decide

/-- V32: `[1]` is a prefix of `[1,1]`. -/
theorem test_ctchk_clash : (archAfter (exec .ctchk (small { Arch.reset with
      ctLen := mem [(1, 1#32), (2, 2#32)], ctCode := mem [(1, 1#32), (2, 3#32)] }))).map
        (fun c => (c.statusWord, c.errInfo)) =
    some (0x00000900#32, 0x00020001#32) := by decide

/-! ### Transactions -/

/-- V7: CFG of the small instance, and the first address beyond its arena. -/
theorem test_rd : repliesAfter (exec (.rd 0x00009#20) (small builtArch)) =
      [Reply.found 0x00004042#32] ∧
    repliesAfter (exec (.rd 0x60007#20) (small builtArch)) = [Reply.refused] ∧
    repliesAfter (exec (.rd 0x70004#20) (small builtArch)) = [Reply.found 0x00030002#32] := by
  decide

/-- V5: the same value written to FREQ clears TREE_VALID only. -/
theorem test_wr : (archAfter (exec (.wr 0x30002#20 2#32) (small builtArch))).map
      (fun c => (c.freq, c.statusWord)) = some (builtArch.freq, 0x00000002#32) := by decide

/-- V75: an illegal word answers OKAY and changes ERR and ERRINFO only. -/
theorem test_wr_illegal :
    (archAfter (exec (.wr 0x00000#20 0x00000105#32) (small builtArch))).map
      (fun c => (c.statusWord, c.errInfo)) = some (0x00000106#32, 0x00000105#32) ∧
    repliesAfter (exec (.wr 0x00000#20 0x00000105#32) (small builtArch)) =
      [{ response := .okay, data := 0#32 }] := by
  decide

/-- The first step after reset runs the placed word: BUILD ends with ERR_EMPTY (V39). -/
theorem test_fetch : (archAfter (step ((small Arch.reset).withFetchWord 32 4))).map Arch.statusWord =
    some 0x00000200#32 := by decide

/-- A hardware reset between transactions (R270). -/
theorem test_hardware_reset : archAfter (step { small builtArch with requests := [.hardwareReset] }) =
    some Arch.reset := by decide

/-! ### Witnesses: states and operands that meet the hypotheses of the statements -/

theorem witness_DecodeOfEncodeAgrees :
    Instr.freq.wf = true ∧ Instr.freq ∈ commands ∧ Instr.rd 0xFFFFF#20 ∉ commands := by decide

theorem witness_EncodeOfDecodeAgrees :
    decode (.cmd 0x0000000F#32) = .ok .reset ∧
    (triple true 0xFFFFF#20 1#32).getLsbD 52 = true ∧
    (triple false 0xFFFFF#20 1#32).getLsbD 52 = false := by decide

theorem witness_CommandWordsRunTheirCommands : (0x0000000F#32, Instr.reset) ∈ commandWords := by
  decide

theorem witness_IllegalWordsRaiseIllcmd :
    0x00000009#32 ∉ commandWords.map Prod.fst ∧ 0x00000105#32 ∉ commandWords.map Prod.fst ∧
    0xFFFFFFFF#32 ∉ commandWords.map Prod.fst := by decide

theorem witness_StepRunsTheDecodedTransaction :
    (State.reset.offer (triple true 0x00003#20 4#32)).requests =
      .transaction (triple true 0x00003#20 4#32) :: [] := rfl

theorem witness_StepRunsEveryInstruction :
    (State.reset.offer (carrier (encode .build))).requests =
      .transaction (carrier (encode .build)) :: [] ∧
    decodeTableWord 32 4 = some .build ∧ decodeTableWord 56 0 = some (.rd 0#20) := by decide

theorem witness_EveryTransactionCompletes :
    (State.reset.offer (triple true 0x00001#20 4#32)).requests =
      .transaction (triple true 0x00001#20 4#32) :: [] ∧
    (triple true 0x00001#20 4#32).getLsbD 52 = true ∧
    (triple false 0x00001#20 4#32).getLsbD 52 = false := by decide

theorem witness_HardwareResetEvent :
    ({ small builtArch with requests := [.hardwareReset] } : State).requests =
      .hardwareReset :: [] := rfl

theorem witness_ResetStateValues :
    (∃ u, exec .reset (small builtArch) = .next u) ∧
    (({ small builtArch with requests := [.hardwareReset] } : State).requests.head? =
        some .hardwareReset ∧
      ∃ u, step { small builtArch with requests := [.hardwareReset] } = .next u) ∧
    State.reset = State.resetOf State.reset.hw :=
  ⟨⟨_, rfl⟩, ⟨rfl, _, rfl⟩, rfl⟩

theorem witness_ConfigurationFields : State.reset.hw = Hardware.defaults := rfl

theorem witness_EntryReads : 15 < smallHw.textCap ∧ 3 < smallHw.bitsCap ∧ 3 < smallHw.nSym ∧
    6 < 2 * smallHw.nSym - 1 := by decide

theorem small_sizes : smallHw.textCap = 16 ∧ smallHw.bitsCap = 4 ∧ smallHw.nSym = 4 ∧
    smallHw.arenaDepth = 7 := by decide

theorem witness_UnmappedAddressesAnswerError :
    ∀ a ∈ [0x0000C#20, 0x0FFFF#20, 0x10010#20, 0x20004#20, 0x30004#20, 0x40004#20, 0x5FFFF#20,
      0x60007#20, 0x7FFFF#20, 0x80000#20, 0xFFFFF#20], Unmapped smallHw (BitVec.toNat a) := by
  obtain ⟨h1, h2, h3, h4⟩ := small_sizes
  simp [Unmapped, h1, h2, h3, h4]

theorem witness_ReadOnlyWritesAnswerError :
    ReadOnly (0x00001#20).toNat ∧ ReadOnly (0x00002#20).toNat ∧ ReadOnly (0x00005#20).toNat ∧
    ReadOnly (0x0000B#20).toNat ∧ ReadOnly (0x60000#20).toNat ∧ ReadOnly (0x7FFFF#20).toNat := by
  decide

theorem witness_WriteThenReadTruncates : 15 < smallHw.textCap ∧ 3 < smallHw.bitsCap ∧
    3 < smallHw.nSym := by decide

theorem witness_BufferWriteFrame : 0 < smallHw.textCap ∧ 0 < smallHw.bitsCap := by decide

theorem witness_TableWriteFrame : 3 < smallHw.nSym := by decide

theorem witness_CtValidEvents :
    (∀ w, Instr.ctchk ≠ .wr 0x00000#20 w) ∧ (∀ w, Instr.wr 0x40003#20 1#32 ≠ .wr 0x00000#20 w) ∧
    (∃ t, exec .ctchk (small builtArch) = .next t ∧ t.arch.err = .ok) ∧
    (∃ t, exec (.wr 0x40003#20 1#32) (small builtArch) = .next t ∧ t.arch.ctValid = false) ∧
    (small Arch.reset).arch.ctValid = false :=
  ⟨by simp, by simp, ⟨_, rfl, by decide⟩, ⟨_, rfl, by decide⟩, rfl⟩

theorem witness_TreeValidEvents :
    (∃ t, exec .tree (small builtArch) = .next t ∧ t.arch.err = .ok) ∧
    (∃ t, exec .build (small { deepArch with textLen := 0#32 }) = .next t ∧ t.arch.err = .empty) ∧
    (∃ t, exec (.wr 0x30003#20 1#32) (small builtArch) = .next t ∧ t.arch.treeValid = false) ∧
    (small Arch.reset).arch.treeValid = false :=
  ⟨⟨_, rfl, by decide⟩, ⟨_, rfl, by decide⟩, ⟨_, rfl, by decide⟩, rfl⟩

theorem witness_CommandsAlwaysComplete : Instr.reset ∈ commands := by decide

theorem witness_BusAndCommandResultsSeparate :
    (∃ t, exec (.rd 0x0000C#20) (small builtArch) = .next t) ∧ (0x00001#20 : Addr) ≠ 0x00000#20 ∧
    (∃ t, exec (.wr 0x00001#20 5#32) (small builtArch) = .next t) :=
  ⟨⟨_, rfl⟩, by decide, ⟨_, rfl⟩⟩

/-- A failing primitive command, and a BUILD failing in each of its stages. -/
theorem witness_ErrorsArePrecise :
    (Instr.derive ∈ commands ∧ Instr.derive ≠ .build ∧
      ∃ c, exec .derive (small deepArch) = .next ((small deepArch).finished c) ∧ c.err ≠ .ok) ∧
    (∀ n ∈ [0#32, 17#32], ∃ c, exec .build (small { builtArch with textLen := n }) =
      .next ((small { builtArch with textLen := n }).finished c) ∧ c.err ≠ .ok) := by
  refine ⟨⟨by decide, by decide, _, exec_derive _, by decide⟩, ?_⟩
  intro n hn
  refine ⟨_, exec_build _, ?_⟩
  fin_cases hn <;> decide

theorem witness_FreqCountsTheText :
    (small { textArch with textLen := 16#32 }).arch.textLen.toNat ≤ smallHw.textCap ∧
    smallHw.textCap < (small { textArch with textLen := 17#32 }).arch.textLen.toNat := by decide

theorem witness_FreqCountsFitAndSum :
    (small builtArch).arch.MemoriesOk smallHw ∧ (small builtArch).arch.textLen.toNat ≤ smallHw.textCap ∧
    ∃ c, exec .freq (small builtArch) = .next ((small builtArch).finished c) :=
  ⟨built_inv.memories, by decide, _, exec_freq _⟩

theorem witness_QueueHeadIsLeast :
    ([{ weight := 1, id := 2 }, { weight := 1, id := 4 }] : List Key).Pairwise
      (fun a b => a.before b = true) ∧
    ∀ x ∈ ([{ weight := 1, id := 2 }, { weight := 1, id := 4 }] : List Key),
      x.id ≠ ({ weight := 1, id := 3 } : Key).id := by decide

theorem witness_TreeRefusesEmptyMap :
    (∀ x < smallHw.nSym, ((small Arch.reset).arch.freq.read x).toNat = 0) ∧ (small Arch.reset).Inv :=
  ⟨by decide, empty_inv⟩

theorem witness_TreeOfOneSymbol : 2 < smallHw.nSym ∧ 0 < (loneArch.freq.read 2).toNat ∧
    ∀ y < smallHw.nSym, y ≠ 2 → (loneArch.freq.read y).toNat = 0 := by decide

theorem witness_TreeBuildsTheArena : (small deepArch).arch.MemoriesOk smallHw ∧
    ∃ x < smallHw.nSym, 0 < (deepArch.freq.read x).toNat := ⟨deep_inv.memories, by decide⟩

theorem witness_TreePopsInKeyOrder : (small deepArch).arch.MemoriesOk smallHw ∧
    ∃ c, exec .tree (small deepArch) = .next ((small deepArch).finished c) ∧ c.err = .ok :=
  ⟨deep_inv.memories, _, exec_tree _, by decide⟩

theorem witness_TreeDependsOnFreqOnly :
    (∀ x < smallHw.nSym,
      (small builtArch).arch.freq.read x = (small { builtArch with root := 0#32 }).arch.freq.read x) ∧
    ∃ c d, exec .tree (small builtArch) = .next ((small builtArch).finished c) ∧
      exec .tree (small { builtArch with root := 0#32 }) =
        .next ((small { builtArch with root := 0#32 }).finished d) ∧ c.err = .ok :=
  ⟨by decide, _, _, exec_tree _, exec_tree _, by decide⟩

/-- A tree that fits, a lone leaf, a tree with a path longer than `MAXLEN`, and no tree. -/
theorem witness_DeriveBindsPathCodes :
    ((small builtArch).Inv ∧ builtArch.treeValid = true ∧ smallHw.nSym ≤ builtArch.root.toNat) ∧
    ((small loneArch).Inv ∧ loneArch.treeValid = true ∧ loneArch.root.toNat < smallHw.nSym) ∧
    ((small deepArch).Inv ∧ deepArch.treeValid = true ∧
      smallHw.maxlen < (codeOf (treeCodes smallHw deepArch) 0).length) ∧
    (small Arch.reset).arch.treeValid = false :=
  ⟨⟨built_inv, by decide, by decide⟩, ⟨lone_inv, by decide, by decide⟩,
    ⟨deep_inv, by decide, by decide⟩, rfl⟩

theorem witness_DeriveEstablishesPrefixCode : (small builtArch).Inv ∧ builtArch.treeValid = true ∧
    ∃ c, exec .derive (small builtArch) = .next ((small builtArch).finished c) ∧ c.err = .ok :=
  ⟨built_inv, by decide, _, exec_derive _, by decide⟩

theorem witness_DeriveSucceedsWithinDepth : (small builtArch).Inv ∧ builtArch.treeValid = true ∧
    builtArch.nleaf.toNat - 1 ≤ smallHw.maxlen := ⟨built_inv, by decide, by decide⟩

theorem witness_CtchkDecidesCtOk :
    builtArch.CtOk smallHw ∧ ¬ Arch.reset.CtOk smallHw ∧ (small Arch.reset).Inv :=
  ⟨built_inv.table rfl, fun h => absurd h.nonempty (by decide), empty_inv⟩

/-- The three clauses: V34's symbol 0, an empty table, V32's pair. -/
theorem witness_CtchkReportsTheFirstFault :
    (2 ^ ((mem []).read 0).toNat ≤ ((mem [(0, 0xFFFFFFFF#32)]).read 0).toNat) ∧
    (∀ x < smallHw.nSym, ¬ (smallHw.maxlen < (Arch.reset.ctLen.read x).toNat ∨
      2 ^ (Arch.reset.ctLen.read x).toNat ≤ (Arch.reset.ctCode.read x).toNat)) ∧
    (∀ x < smallHw.nSym, ¬ 0 < (Arch.reset.ctLen.read x).toNat) ∧
    prefixPair smallHw { Arch.reset with
      ctLen := mem [(1, 1#32), (2, 2#32)], ctCode := mem [(1, 1#32), (2, 3#32)] } = some (1, 2) := by
  decide

theorem witness_PrefixTestInNumbers :
    (longArch.ctCode.read 0).toNat < 2 ^ (longArch.ctLen.read 0).toNat ∧
    (longArch.ctCode.read 1).toNat < 2 ^ (longArch.ctLen.read 1).toNat := by decide

/-- The three rows of R191; the third is V41's failing BUILD. -/
theorem witness_FailedBuildCases :
    smallHw.textCap < ({ builtArch with textLen := 17#32 } : Arch).textLen.toNat ∧
    ({ builtArch with textLen := 0#32 } : Arch).textLen = 0#32 ∧
    (let s := small { builtArch with
      textLen := 15#32
      text := mem [(1, 1#32), (2, 1#32), (3, 2#32), (4, 2#32), (5, 2#32), (6, 2#32), (7, 3#32),
        (8, 3#32), (9, 3#32), (10, 3#32), (11, 3#32), (12, 3#32), (13, 3#32), (14, 3#32)] }
    s.arch.MemoriesOk s.hw ∧ s.arch.textLen ≠ 0#32 ∧ s.arch.textLen.toNat ≤ s.hw.textCap ∧
      ∃ c, exec .build s = .next (s.finished c) ∧ c.err = .depth ∧ c.errInfo = 0x00030000#32) :=
  ⟨by decide, rfl, ⟨by decide, by decide, by decide, by decide, by decide, by decide, by decide⟩,
    by decide, by decide, _, exec_build _, by decide, by decide⟩

theorem witness_BuildSucceeds : (small builtArch).arch.MemoriesOk smallHw ∧
    builtArch.textLen ≠ 0#32 ∧ builtArch.textLen.toNat ≤ smallHw.textCap ∧
    builtArch.currentText.dedup.length ≤ smallHw.maxlen + 1 :=
  ⟨built_inv.memories, by decide, by decide, by decide⟩

theorem witness_AlphabetCompleteness : (small builtArch).arch.MemoriesOk smallHw ∧
    ∃ c, exec .build (small builtArch) = .next ((small builtArch).finished c) ∧ c.err = .ok ∧
      (small builtArch).arch.ctValid = true ∧ builtArch.ctLen = c.ctLen ∧ builtArch.ctCode = c.ctCode ∧
      builtArch.textLen.toNat ≤ smallHw.textCap ∧
      (builtArch.currentText.map fun x => (c.ctLen.read x).toNat).sum ≤ 8 * smallHw.bitsCap :=
  ⟨built_inv.memories, _, exec_build _, by decide, by decide, by decide, by decide, by decide,
    by decide⟩

theorem witness_EncodePacksTheCodewords : builtArch.ctValid = true ∧
    builtArch.textLen.toNat ≤ smallHw.textCap ∧
    (∀ x ∈ builtArch.currentText, 0 < (builtArch.ctLen.read x).toNat) ∧
    (builtArch.currentText.map fun x => (builtArch.ctLen.read x).toNat).sum ≤ 8 * smallHw.bitsCap := by
  decide

/-- The four failing clauses: no table, a long text, a symbol without a codeword, 40 bits for 32. -/
theorem witness_EncodeErrors :
    Arch.reset.ctValid = false ∧
    smallHw.textCap < ({ builtArch with textLen := 17#32 } : Arch).textLen.toNat ∧
    (builtArch.ctLen.read (({ builtArch with text := mem [] } : Arch).text.read 0).toNat = 0#32) ∧
    (let c : Arch := { longArch with textLen := 5#32 }
    c.ctValid = true ∧ c.textLen.toNat ≤ longHw.textCap ∧
      (∀ x ∈ c.currentText, 0 < (c.ctLen.read x).toNat) ∧
      8 * longHw.bitsCap < (c.currentText.map fun x => (c.ctLen.read x).toNat).sum) ∧
    (small builtArch).arch.MemoriesOk smallHw :=
  ⟨rfl, by decide, by decide, by decide, built_inv.memories⟩

theorem witness_EncodeIsPure :
    ({ builtArch with freq := mem [] } : Arch).ctValid = true ∧
    ∃ c, exec .encode (small builtArch) = .next ((small builtArch).finished c) ∧ c.err = .ok :=
  ⟨rfl, _, exec_encode _, by decide⟩

/-- A stream that fits TEXT, and one of one symbol more, that does not (as V67). -/
theorem witness_DecodeSplitsTheStream :
    (onHw tinyHw (streamArch 2#32)).Inv ∧ (onHw tinyHw (streamArch 3#32)).Inv ∧
    (streamArch 2#32).ctValid = true ∧ (streamArch 3#32).bitLen.toNat ≤ 8 * tinyHw.bitsCap ∧
    (decodeBits tinyHw (streamArch 2#32) (streamArch 2#32).currentBits []).1.length ≤
      tinyHw.textCap ∧
    tinyHw.textCap <
      (decodeBits tinyHw (streamArch 3#32) (streamArch 3#32).currentBits []).1.length :=
  ⟨fits_inv, overflows_inv, rfl, by decide, by decide, by decide⟩

theorem witness_DecodeCompletes :
    (∀ len, ({ longArch with bitLen := len } : Arch).ctValid = true) ∧
    (0#32).toNat ≤ 8 * longHw.bitsCap ∧ (0#32).toNat ≤ longHw.textCap ∧
    (16#32).toNat ≤ 8 * longHw.bitsCap ∧ (16#32).toNat ≤ longHw.textCap :=
  ⟨fun _ => rfl, by decide, by decide, by decide, by decide⟩

theorem witness_DecodePreconditions : Arch.reset.ctValid = false ∧ longArch.ctValid = true ∧
    8 * longHw.bitsCap < ({ longArch with bitLen := 33#32 } : Arch).bitLen.toNat := by decide

/-- Two states whose BITS differ in the pad bits only. -/
theorem witness_DecodeReadsTheStreamOnly :
    let c : Arch := { builtArch with bitLen := 4#32, bits := mem [(0, 0x30#32)] }
    let d : Arch := { builtArch with bitLen := 4#32, bits := mem [(0, 0x3F#32), (1, 1#32)] }
    (∀ j < c.bitLen.toNat, (c.bits.read (j / 8)).getLsbD (7 - j % 8) =
      (d.bits.read (j / 8)).getLsbD (7 - j % 8)) ∧
    d.ctValid = c.ctValid ∧ c.bitLen = d.bitLen ∧
    ∃ e, exec .decode (small c) = .next ((small c).finished e) ∧ e.err = .ok :=
  ⟨by decide, rfl, rfl, _, exec_decode _, by decide⟩

/-- V63's table and stream in the small alphabet: symbol 1 = `1`, bits `1011`. -/
theorem witness_LoneCodewordDecode :
    let c : Arch := { Arch.reset with
      ctValid := true, ctLen := mem [(1, 1#32)], ctCode := mem [(1, 1#32)]
      bits := mem [(0, 0xB0#32)], bitLen := 4#32 }
    c.ctLen.read 1 = 1#32 ∧ c.ctCode.read 1 = 1#32 ∧
    (∀ y < smallHw.nSym, y ≠ 1 → c.ctLen.read y = 0#32) ∧
    c.bitLen.toNat ≤ 8 * smallHw.bitsCap ∧ c.bitLen.toNat ≤ smallHw.textCap ∧
    (c.currentBits.takeWhile id).length = 1 := by decide

theorem witness_RoundTrip : (small builtArch).Inv ∧
    ∃ c, exec .encode (small builtArch) = .next ((small builtArch).finished c) ∧ c.err = .ok ∧
      ∃ u : State, u.hw = smallHw ∧ u.arch.ctValid = true ∧ u.arch.ctLen = c.ctLen ∧
        u.arch.ctCode = c.ctCode ∧ u.arch.bits = c.bits ∧ u.arch.bitLen = c.bitLen ∧
        u.arch.textLen = 0#32 :=
  ⟨built_inv, _, exec_encode _, by decide,
    small { (encodeStage smallHw builtArch).commit with textLen := 0#32 },
    rfl, by decide, by decide, by decide, by decide, by decide, by decide⟩

/-- The premises of the three step invariants, on a step that runs a command. -/
theorem witness_StepKeeps :
    let s := { small builtArch with requests := [.transaction (carrier (encode .build))] }
    s.Inv ∧ ∃ t, step s = .next t ∧ t.arch.ctValid = true ∧ t.arch.treeValid = true :=
  ⟨⟨built_inv.memories, built_inv.registers, built_inv.table, built_inv.arena⟩, _, rfl,
    by decide, by decide⟩

end Sys2Proof.Tests
end

section
/-! The outcomes of a host transaction: how RD and WR can end, and that every transaction completes
(spec/00_scope.md R13; spec/20_memory.md R60; spec/40_host_access.md R120 to R126). -/

namespace Sys2Proof.Machine

/-! ### The kind of a transaction -/

theorem decodeBus_of_kind_read {t : Triple} (h : t.getLsbD 52 = false) :
    decodeBus t = .rd (t.extractLsb' 32 20) := if_neg (by rw [h]; exact Bool.false_ne_true)

theorem decodeBus_of_kind_write {t : Triple} (h : t.getLsbD 52 = true) :
    decodeBus t = .wr (t.extractLsb' 32 20) (t.extractLsb' 0 32) := if_pos h

/-! ### How RD and WR end -/

theorem exec_rd (a : Addr) (s : State) :
    exec (.rd a) s = .next (s.reply (readReply (hostRead s.hw s.arch a))) := rfl

theorem exec_wr_cmd (v : Word) (s : State) : exec (.wr cmdAddr v) s = dispatchCommand v s := rfl

theorem exec_wr_of_ne {a : Addr} (h : a ≠ cmdAddr) (v : Word) (s : State) :
    exec (.wr a v) s = .next (s.write a v) := if_neg h

/-- A read is told what it finds, or is turned away where it finds nothing (R121, R123). -/
theorem exec_rd_cases (a : Addr) (s : State) :
    (∃ w, hostRead s.hw s.arch a = some w ∧ exec (.rd a) s = .next (s.told w)) ∨
    (hostRead s.hw s.arch a = none ∧ exec (.rd a) s = .next s.turnedAway) := by
  rw [exec_rd]
  cases hostRead s.hw s.arch a with
  | some w => exact .inl ⟨w, rfl, rfl⟩
  | none => exact .inr ⟨rfl, rfl⟩

/-- A write outside CMD finishes with what it stores, or is turned away (R122, R123, R125). -/
theorem State.write_cases (s : State) (a : Addr) (v : Word) :
    (∃ c, hostWrite s.hw s.arch a v = some c ∧ s.write a v = s.finished c) ∨
    (hostWrite s.hw s.arch a v = none ∧ s.write a v = s.turnedAway) := by
  unfold State.write
  cases hostWrite s.hw s.arch a v with
  | some c => exact .inl ⟨c, rfl, rfl⟩
  | none => exact .inr ⟨rfl, rfl⟩

/-- Whatever the word written to CMD, legal or not, the transaction finishes (R124, R126). -/
theorem dispatchCommand_finishes (w : Word) (s : State) :
    ∃ c, dispatchCommand w s = .next (s.finished c) := by
  unfold dispatchCommand
  split <;> exact ⟨_, rfl⟩

/-- A write, to CMD or elsewhere, finishes or is turned away (R120). -/
theorem exec_wr_cases (a : Addr) (v : Word) (s : State) :
    (∃ c, exec (.wr a v) s = .next (s.finished c)) ∨ exec (.wr a v) s = .next s.turnedAway := by
  by_cases ha : a = cmdAddr
  · subst ha
    exact .inl (exec_wr_cmd v s ▸ dispatchCommand_finishes v s)
  · rw [exec_wr_of_ne ha]
    obtain ⟨c, -, hc⟩ | ⟨-, hc⟩ := s.write_cases a v
    · exact .inl ⟨c, congrArg _ hc⟩
    · exact .inr (congrArg _ hc)

/-- A step with a transaction at the head of the port runs it, taken from the port. -/
theorem step_of_transaction {s : State} {t : Triple} {rest : List Input}
    (h : s.requests = .transaction t :: rest) :
    step s = exec (decodeBus t) { s with requests := rest } := by
  obtain ⟨h', -⟩ | ⟨r, h', -⟩ | ⟨t', r, h', hstep⟩ := step_cases s
  · simp [h] at h'
  · simp [h] at h'
  · obtain ⟨rfl, rfl⟩ : t = t' ∧ rest = r := by simpa [h] using h'
    exact hstep

end Sys2Proof.Machine

open Sys2Proof Sys2Proof.Machine

/-- Settles O8, by how the transaction's kind can end: a read is told or turned away, a write
finished or turned away. -/
theorem everyTransactionCompletes : Obligations.EveryTransactionCompletes := by
  intro s t rest h
  rw [step_of_transaction h]
  cases hk : t.getLsbD 52 with
  | false =>
    rw [decodeBus_of_kind_read hk]
    obtain ⟨w, -, he⟩ | ⟨-, he⟩ := exec_rd_cases (t.extractLsb' 32 20) { s with requests := rest }
    · exact ⟨s.arch, Reply.found w, he, nofun, nofun, fun _ => rfl⟩
    · exact ⟨s.arch, Reply.refused, he, fun _ => ⟨rfl, rfl⟩, nofun, fun _ => rfl⟩
  | true =>
    rw [decodeBus_of_kind_write hk]
    obtain ⟨c, he⟩ | he :=
      exec_wr_cases (t.extractLsb' 32 20) (t.extractLsb' 0 32) { s with requests := rest }
    · exact ⟨c, Reply.accepted, he, nofun, fun _ => rfl, nofun⟩
    · exact ⟨s.arch, Reply.refused, he, fun _ => ⟨rfl, rfl⟩, fun _ => rfl, nofun⟩
end

section
/-! What one step changes: how each stage and each write can end, and the elementary changes that
every step is made of (spec/00_scope.md R8; spec/40_host_access.md R122 to R125). -/

namespace Sys2Proof.Machine

/-! ### Writes outside CMD -/

/-- What a write to address `a` stores, by the location that `a` names (R62, R125). -/
inductive WriteOutcome (hw : Hardware) (c : Arch) (a : Addr) (v : Word) : Option Arch → Prop
  | textLen (hr : region a = 0) (ho : offset a = 3) :
      WriteOutcome hw c a v (some { c with textLen := v })
  | bitLen (hr : region a = 0) (ho : offset a = 4) :
      WriteOutcome hw c a v (some { c with bitLen := v })
  | text (hr : region a = 1) (ho : offset a < hw.textCap) :
      WriteOutcome hw c a v (some { c with text := c.text.write (offset a) (lowBits hw.symw v) })
  | bits (hr : region a = 2) (ho : offset a < hw.bitsCap) :
      WriteOutcome hw c a v (some { c with bits := c.bits.write (offset a) (lowBits 8 v) })
  | freq (hr : region a = 3) (ho : offset a < hw.nSym) :
      WriteOutcome hw c a v (some { c with
        freq := c.freq.write (offset a) (lowBits hw.cntw v), treeValid := false })
  | ctLen (hr : region a = 4) (ho : offset a < hw.nSym) :
      WriteOutcome hw c a v (some { c with
        ctLen := c.ctLen.write (offset a) (lowBits 6 v), ctValid := false })
  | ctCode (hr : region a = 5) (ho : offset a < hw.nSym) :
      WriteOutcome hw c a v (some { c with
        ctCode := c.ctCode.write (offset a) (lowBits hw.maxlen v), ctValid := false })
  | refused (hreg : region a = 0 → offset a ≠ 3 ∧ offset a ≠ 4)
      (htext : region a = 1 → hw.textCap ≤ offset a) (hbits : region a = 2 → hw.bitsCap ≤ offset a)
      (htable : 3 ≤ region a → region a ≤ 5 → hw.nSym ≤ offset a) :
      WriteOutcome hw c a v none

theorem hostWrite_outcome (hw : Hardware) (c : Arch) (a : Addr) (v : Word) :
    WriteOutcome hw c a v (hostWrite hw c a v) := by
  unfold hostWrite
  dsimp only
  split
  next hr =>
    split
    next ho => exact .textLen hr ho
    next ho => exact .bitLen hr ho
    next h3 h4 => exact .refused (fun _ => ⟨h3, h4⟩) (by omega) (by omega) (by omega)
  next hr =>
    split
    next ho => exact .text hr ho
    next ho => exact .refused (by omega) (by omega) (by omega) (by omega)
  next hr =>
    split
    next ho => exact .bits hr ho
    next ho => exact .refused (by omega) (by omega) (by omega) (by omega)
  next hr =>
    split
    next ho => exact .freq hr ho
    next ho => exact .refused (by omega) (by omega) (by omega) (by omega)
  next hr =>
    split
    next ho => exact .ctLen hr ho
    next ho => exact .refused (by omega) (by omega) (by omega) (by omega)
  next hr =>
    split
    next ho => exact .ctCode hr ho
    next ho => exact .refused (by omega) (by omega) (by omega) (by omega)
  next h0 h1 h2 h3 h4 h5 =>
    have houtside : ¬ (3 ≤ region a ∧ region a ≤ 5) := by
      rintro ⟨hlo, hhi⟩
      interval_cases hr : region a
      exacts [h3 rfl, h4 rfl, h5 rfl]
    exact .refused (fun h => (h0 h).elim) (fun h => (h1 h).elim) (fun h => (h2 h).elim)
      (fun hlo hhi => (houtside ⟨hlo, hhi⟩).elim)

/-! ### The elementary changes -/

/-- The elementary changes of the architectural state: the record of a result, the reset, an
accepted write, and what each stage leaves when it ends without an error. -/
inductive Arch.Change (hw : Hardware) (c : Arch) : Arch → Prop
  | record (e : ErrCode) (info : Word) : Change hw c (c.record e info)
  | reset : Change hw c Arch.reset
  | write {a : Addr} {v : Word} {d : Arch} (h : hostWrite hw c a v = some d) : Change hw c d
  | freq {d : Arch} (h : freqStage hw c = .done d) : Change hw c d
  | tree {d : Arch} (h : treeStage hw c = .done d) : Change hw c d
  | derive {d : Arch} (h : deriveStage hw c = .done d) : Change hw c d
  | encode {d : Arch} (h : encodeStage hw c = .done d) : Change hw c d
  | decode {d : Arch} (h : decodeStage hw c = .done d) : Change hw c d
  | ctclr {d : Arch} (h : ctclrStage hw c = .done d) : Change hw c d
  | ctchk {d : Arch} (h : ctchkStage hw c = .done d) : Change hw c d

/-- Any number of elementary changes, one after the other. -/
abbrev Arch.Changes (hw : Hardware) : Arch → Arch → Prop := Relation.ReflTransGen (Arch.Change hw)

/-- What every elementary change keeps, any number of them keeps. -/
theorem Arch.Changes.keep {hw : Hardware} {P : Arch → Prop}
    (hstep : ∀ c d, c.Change hw d → P c → P d) {c d : Arch} (h : c.Changes hw d) (hc : P c) :
    P d := by
  induction h with
  | refl => exact hc
  | tail _ hlast ih => exact hstep _ _ hlast ih

/-! ### Every command is made of elementary changes -/

/-- A result that is an error leaves the state `c` that the stage began with (R246). -/
def Result.Precise (c : Arch) : Result → Prop
  | .done _ => True
  | .raised e _ d => e ≠ .ok ∧ d = c

/-- Whatever the state, a raise of the stage is precise. -/
def RaisesPrecisely (stage : Hardware → Arch → Result) : Prop :=
  ∀ hw c, (stage hw c).Precise c

theorem freqStage_raisesPrecisely : RaisesPrecisely freqStage := by
  intro hw c
  obtain ⟨-, h⟩ | ⟨-, h⟩ := freqStage_cases hw c <;> rw [h]
  exacts [⟨nofun, rfl⟩, trivial]

theorem treeStage_raisesPrecisely : RaisesPrecisely treeStage := by
  intro hw c
  obtain ⟨-, h⟩ | ⟨_, _, -, -, -, h⟩ := treeStage_cases hw c <;> rw [h]
  exacts [⟨nofun, rfl⟩, trivial]

theorem deriveStage_raisesPrecisely : RaisesPrecisely deriveStage := by
  intro hw c
  obtain ⟨-, h⟩ | ⟨_, -, -, h⟩ | ⟨-, -, h⟩ := deriveStage_cases hw c <;> rw [h]
  exacts [⟨nofun, rfl⟩, ⟨nofun, rfl⟩, trivial]

theorem encodeStage_raisesPrecisely : RaisesPrecisely encodeStage := by
  intro hw c
  obtain ⟨-, h⟩ | ⟨-, -, h⟩ | ⟨_, -, -, -, h⟩ | ⟨-, -, -, -, h⟩ | ⟨-, -, -, -, h⟩ :=
    encodeStage_cases hw c <;> rw [h]
  exacts [⟨nofun, rfl⟩, ⟨nofun, rfl⟩, ⟨nofun, rfl⟩, ⟨nofun, rfl⟩, trivial]

theorem decodeStage_raisesPrecisely : RaisesPrecisely decodeStage := by
  intro hw c
  obtain ⟨-, h⟩ | ⟨-, -, h⟩ | ⟨-, -, -, h⟩ | ⟨-, -, -, h⟩ := decodeStage_cases hw c <;> rw [h]
  exacts [⟨nofun, rfl⟩, ⟨nofun, rfl⟩, ⟨nofun, rfl⟩, trivial]

theorem ctchkStage_raisesPrecisely : RaisesPrecisely ctchkStage := by
  intro hw c
  obtain ⟨_, -, h⟩ | ⟨-, -, h⟩ | ⟨_, _, -, -, -, h⟩ | ⟨-, -, -, h⟩ := ctchkStage_cases hw c <;>
    rw [h]
  exacts [⟨nofun, rfl⟩, ⟨nofun, rfl⟩, ⟨nofun, rfl⟩, trivial]

/-- How a command ends whose stage raises precisely: with OK and what the stage left, or with an
error recorded in the state that it began with. -/
theorem RaisesPrecisely.commit_cases {stage : Hardware → Arch → Result}
    (h : RaisesPrecisely stage) (hw : Hardware) (c : Arch) :
    (∃ d, stage hw c = .done d ∧ (stage hw c).commit = d.record .ok 0#32) ∨
    (∃ e info, e ≠ .ok ∧ (stage hw c).commit = c.record e info) := by
  have hprecise := h hw c
  cases hstage : stage hw c with
  | done d => exact .inl ⟨d, rfl, rfl⟩
  | raised e info d =>
    rw [hstage] at hprecise
    obtain ⟨he, rfl⟩ := hprecise
    exact .inr ⟨e, info, he, rfl⟩

theorem Arch.changes_record {hw : Hardware} {c d : Arch} (h : c.Changes hw d) (e : ErrCode)
    (info : Word) : c.Changes hw (d.record e info) := h.tail (.record e info)

/-- A primitive command: one change if it succeeds, and the record of its result. -/
theorem RaisesPrecisely.changes {stage : Hardware → Arch → Result} (hraise : RaisesPrecisely stage)
    (hdone : ∀ {hw c d}, stage hw c = .done d → Arch.Change hw c d) (hw : Hardware) (c : Arch) :
    c.Changes hw (stage hw c).commit := by
  obtain ⟨d, hd, hcommit⟩ | ⟨e, info, -, hcommit⟩ := hraise.commit_cases hw c <;> rw [hcommit]
  · exact Arch.changes_record (.single (hdone hd)) _ _
  · exact Arch.changes_record .refl _ _

/-- BUILD: the changes of the stages it finished, and the record of its result (R190, R191). -/
theorem buildStage_changes (hw : Hardware) (c : Arch) :
    c.Changes hw (buildStage hw c).commit := by
  obtain ⟨e, info, -, h⟩ | ⟨c₁, e, info, hf, -, h⟩ | ⟨c₁, c₂, hf, ht, h⟩ := buildStage_cases hw c
  · rw [h]
    exact Arch.changes_record .refl _ _
  · rw [h]
    exact Arch.changes_record (.single (.freq hf)) _ _
  · rw [h]
    exact .head (.freq hf) (.head (.tree ht)
      (deriveStage_raisesPrecisely.changes .derive hw c₂))

/-- A word written to CMD runs some command, whose changes are elementary ones. -/
theorem dispatchCommand_runs (w : Word) (s : State) :
    ∃ stage : Hardware → Arch → Result, (∀ hw c, Arch.Changes hw c (stage hw c).commit) ∧
      dispatchCommand w s = .next (s.runCommand stage) := by
  have hnop (hw c) : Arch.Changes hw c (nopStage hw c).commit := Arch.changes_record .refl _ _
  have hreset (hw c) : Arch.Changes hw c (resetStage hw c).commit :=
    Arch.changes_record (.single .reset) _ _
  have hctclr (hw c) : Arch.Changes hw c (ctclrStage hw c).commit :=
    Arch.changes_record (.single (.ctclr rfl)) _ _
  have hillegal (hw c) : Arch.Changes hw c (illegalStage w hw c).commit :=
    Arch.changes_record .refl _ _
  unfold dispatchCommand
  split
  · exact ⟨_, hnop, rfl⟩
  · exact ⟨_, freqStage_raisesPrecisely.changes .freq, rfl⟩
  · exact ⟨_, treeStage_raisesPrecisely.changes .tree, rfl⟩
  · exact ⟨_, deriveStage_raisesPrecisely.changes .derive, rfl⟩
  · exact ⟨_, buildStage_changes, rfl⟩
  · exact ⟨_, encodeStage_raisesPrecisely.changes .encode, rfl⟩
  · exact ⟨_, decodeStage_raisesPrecisely.changes .decode, rfl⟩
  · exact ⟨_, hctclr, rfl⟩
  · exact ⟨_, ctchkStage_raisesPrecisely.changes .ctchk, rfl⟩
  · exact ⟨_, hreset, rfl⟩
  all_goals exact ⟨_, hillegal, rfl⟩

/-! ### Every step is made of elementary changes -/

theorem exec_rd_keeps {a : Addr} {s t : State} (h : exec (.rd a) s = .next t) :
    t.hw = s.hw ∧ t.arch = s.arch := by
  rw [exec_rd] at h
  cases h
  exact ⟨rfl, rfl⟩

theorem exec_wr_changes {a : Addr} {v : Word} {s t : State} (h : exec (.wr a v) s = .next t) :
    t.hw = s.hw ∧ s.arch.Changes s.hw t.arch := by
  by_cases ha : a = cmdAddr
  · subst ha
    obtain ⟨stage, hstage, hd⟩ := dispatchCommand_runs v s
    rw [exec_wr_cmd, hd] at h
    cases h
    exact ⟨rfl, hstage _ _⟩
  · rw [exec_wr_of_ne ha] at h
    obtain ⟨c, hc, hs⟩ | ⟨-, hs⟩ := s.write_cases a v
    · rw [hs] at h
      cases h
      exact ⟨rfl, .single (.write hc)⟩
    · rw [hs] at h
      cases h
      exact ⟨rfl, .refl⟩

/-- A step leaves the parameters and makes elementary changes only. -/
theorem step_changes {s t : State} (h : step s = .next t) :
    t.hw = s.hw ∧ s.arch.Changes s.hw t.arch := by
  obtain ⟨-, hs⟩ | ⟨rest, -, hs⟩ | ⟨w, rest, -, hs⟩ := step_cases s
  · rw [hs] at h
    cases h
    exact ⟨rfl, .refl⟩
  · rw [hs] at h
    cases h
    exact ⟨rfl, .single .reset⟩
  · rw [hs] at h
    cases hk : w.getLsbD 52 with
    | false =>
      rw [decodeBus_of_kind_read hk] at h
      obtain ⟨hhw, harch⟩ := exec_rd_keeps h
      exact ⟨hhw, harch ▸ .refl⟩
    | true =>
      rw [decodeBus_of_kind_write hk] at h
      exact exec_wr_changes (s := { s with requests := rest }) h

end Sys2Proof.Machine
end

section
/-! The merge of the Tree Builder and the arena it writes (spec/42_tree_builder.md R150 to R156):
what the merge does to the ids and the weights of its queue, and what is then read of the arena. -/

namespace Sys2Proof

/-! ### Sizes -/

theorem Hardware.nSym_le (hw : Hardware) : hw.nSym ≤ 2 ^ 15 := by
  obtain ⟨-, h, -⟩ := hw.ok
  exact Nat.pow_le_pow_right (by decide) h

theorem Hardware.nSym_pos (hw : Hardware) : 0 < hw.nSym := Nat.two_pow_pos _

theorem Hardware.two_mul_nSym (hw : Hardware) : 2 * hw.nSym = 2 ^ (hw.symw + 1) := by
  rw [Params.nSym, pow_succ, mul_comm]

end Sys2Proof

namespace Sys2Proof.Machine

theorem mem_counted {hw : Hardware} {c : Arch} {s : Nat} :
    s ∈ c.counted hw ↔ s < hw.nSym ∧ 0 < (c.freq.read s).toNat := by
  simp [Arch.counted]

theorem nodup_counted (hw : Hardware) (c : Arch) : (c.counted hw).Nodup :=
  List.nodup_range.filter _

theorem length_counted_le (hw : Hardware) (c : Arch) : (c.counted hw).length ≤ hw.nSym := by
  simpa [Arch.counted] using
    List.length_filter_le (fun s => decide (0 < (c.freq.read s).toNat)) (List.range hw.nSym)

/-- A number of `k` bits is still one when held as a word. -/
theorem toNat_ofNat_lt {n k : Nat} (h : n < 2 ^ k) : (BitVec.ofNat 32 n).toNat < 2 ^ k := by
  rw [BitVec.toNat_ofNat]
  exact lt_of_le_of_lt (Nat.mod_le _ _) h

/-- A number that fits a word is what the word holds. -/
theorem toNat_ofNat_of_lt {n : Nat} (h : n < 2 ^ 32) : (BitVec.ofNat 32 n).toNat = n := by
  rw [BitVec.toNat_ofNat, Nat.mod_eq_of_lt h]

/-! ### The queue -/

/-- The pair that the leaf `s` is pushed as (R152). -/
def leafKey (c : Arch) (s : Nat) : Key := { weight := (c.freq.read s).toNat, id := s }

/-- The sum of the weights in a queue. -/
def totalWeight (q : List Key) : Nat := (q.map Key.weight).sum

theorem foldl_queuePush_perm (f : Nat → Key) (xs : List Nat) (q : List Key) :
    (xs.foldl (fun q s => queuePush (f s) q) q).Perm (xs.map f ++ q) := by
  induction xs generalizing q with
  | nil => exact .refl _
  | cons x xs ih =>
    calc xs.foldl (fun q s => queuePush (f s) q) (queuePush (f x) q)
      _ |>.Perm (xs.map f ++ queuePush (f x) q) := ih _
      _ |>.Perm (xs.map f ++ f x :: q) := (queuePush_perm _ _).append_left _
      _ |>.Perm (f x :: (xs.map f ++ q)) := List.perm_middle

/-- The queue starts with exactly the pairs of the counted symbols. -/
theorem leafQueue_perm (hw : Hardware) (c : Arch) :
    (leafQueue hw c).Perm ((c.counted hw).map (leafKey c)) := by
  simpa [leafQueue, leafKey] using foldl_queuePush_perm (leafKey c) (c.counted hw) []

theorem totalWeight_queuePush (k : Key) (q : List Key) :
    totalWeight (queuePush k q) = k.weight + totalWeight q := by
  simpa [totalWeight] using ((queuePush_perm k q).map Key.weight).sum_eq

/-- The total weight of the queue is the sum of the counts. -/
theorem totalWeight_leafQueue (hw : Hardware) (c : Arch) :
    totalWeight (leafQueue hw c) = ((c.counted hw).map fun s => (c.freq.read s).toNat).sum := by
  simpa [totalWeight, leafKey, Function.comp_def] using
    ((leafQueue_perm hw c).map Key.weight).sum_eq

theorem mem_queuePush {k x : Key} {q : List Key} : x ∈ queuePush k q ↔ x = k ∨ x ∈ q := by
  simpa using (queuePush_perm k q).mem_iff (a := x)

/-! ### The merge -/

/-- The ids of the children of a created node, in the order of their pops. -/
def Merged.children (n : Merged) : List Nat := [n.left, n.right]

/-- The merge makes a child, once, of everything that was in the queue or was created, except of
what it leaves. -/
theorem children_mergeRounds_perm (rounds fresh : Nat) (q : List Key) :
    ((mergeRounds rounds fresh q).1.flatMap Merged.children ++
        (mergeRounds rounds fresh q).2.map Key.id).Perm
      (q.map Key.id ++ List.range' fresh (mergeRounds rounds fresh q).1.length) := by
  fun_induction mergeRounds rounds fresh q with
  | case1 rounds fresh a b queue node rest ih =>
    have hpush := (queuePush_perm { weight := node.weight, id := fresh } queue).map Key.id
    have hrest := (ih.trans (hpush.append_right _)).trans
      (List.perm_middle (l₁ := queue.map Key.id) (a := fresh)).symm
    simpa [Merged.children, node, List.range'_succ] using hrest
  | case2 rounds fresh queue _ => simp

/-- The merge keeps the total weight. -/
theorem totalWeight_mergeRounds (rounds fresh : Nat) (q : List Key) :
    totalWeight (mergeRounds rounds fresh q).2 = totalWeight q := by
  fun_induction mergeRounds rounds fresh q with
  | case1 rounds fresh a b queue node rest ih =>
    rw [ih, totalWeight_queuePush]
    simp [totalWeight, node, Nat.add_assoc]
  | case2 rounds fresh queue _ => rfl

/-- No created node is heavier than the whole queue. -/
theorem weight_mergeRounds_le (rounds fresh : Nat) (q : List Key) :
    ∀ n ∈ (mergeRounds rounds fresh q).1, n.weight ≤ totalWeight q := by
  fun_induction mergeRounds rounds fresh q with
  | case1 rounds fresh a b queue node rest ih =>
    rw [totalWeight_queuePush] at ih
    have hsum : totalWeight (a :: b :: queue) = node.weight + totalWeight queue := by
      simp [totalWeight, node, Nat.add_assoc]
    intro n hn
    rw [hsum]
    rcases List.mem_cons.mp hn with rfl | hn
    · exact Nat.le_add_right _ _
    · exact ih n hn
  | case2 rounds fresh queue _ => simp

/-- The children of a created node are older than it is. -/
theorem children_mergeRounds_lt (rounds fresh : Nat) (q : List Key) (hq : ∀ x ∈ q, x.id < fresh) :
    ∀ i, (h : i < (mergeRounds rounds fresh q).1.length) →
      ((mergeRounds rounds fresh q).1[i]).left < fresh + i ∧
      ((mergeRounds rounds fresh q).1[i]).right < fresh + i := by
  fun_induction mergeRounds rounds fresh q with
  | case1 rounds fresh a b queue node rest ih =>
    simp only [List.mem_cons, forall_eq_or_imp] at hq
    obtain ⟨ha, hb, hqueue⟩ := hq
    intro i h
    cases i with
    | zero => exact ⟨ha, hb⟩
    | succ i =>
      have hpushed : ∀ x ∈ queuePush { weight := node.weight, id := fresh } queue,
          x.id < fresh + 1 := by
        intro x hx
        rcases mem_queuePush.mp hx with rfl | hx
        · exact Nat.lt_succ_self _
        · exact Nat.lt_succ_of_lt (hqueue x hx)
      have := ih hpushed i (by simpa using h)
      rwa [Nat.add_right_comm, Nat.add_assoc] at this
  | case2 rounds fresh queue _ => simp

/-- If `W` gives every queued pair and every created node its weight, a created node weighs as much
as its children, and `W` gives the pairs that are left their weights. -/
theorem weights_mergeRounds (W : Nat → Nat) (rounds fresh : Nat) (q : List Key)
    (hq : ∀ x ∈ q, W x.id = x.weight)
    (hnew : ∀ i, (h : i < (mergeRounds rounds fresh q).1.length) →
      W (fresh + i) = ((mergeRounds rounds fresh q).1[i]).weight) :
    (∀ n ∈ (mergeRounds rounds fresh q).1, n.weight = W n.left + W n.right) ∧
    ∀ x ∈ (mergeRounds rounds fresh q).2, W x.id = x.weight := by
  fun_induction mergeRounds rounds fresh q with
  | case1 rounds fresh a b queue node rest ih =>
    simp only [List.mem_cons, forall_eq_or_imp] at hq
    obtain ⟨ha, hb, hqueue⟩ := hq
    have hfresh : W fresh = node.weight := hnew 0 (by simp)
    obtain ⟨hnodes, hleft⟩ := ih
      (by
        intro x hx
        rcases mem_queuePush.mp hx with rfl | hx
        · exact hfresh
        · exact hqueue x hx)
      (by
        intro i h
        have := hnew (i + 1) (by simpa using h)
        rwa [← Nat.add_assoc, Nat.add_right_comm] at this)
    refine ⟨?_, hleft⟩
    intro n hn
    rcases List.mem_cons.mp hn with rfl | hn
    · simp [node, ha, hb]
    · exact hnodes n hn
  | case2 rounds fresh queue _ => exact ⟨by simp, hq⟩

/-- When anything was merged, what is left is the node created last. -/
theorem last_mergeRounds (rounds fresh : Nat) (q : List Key) (h : q.length = rounds + 2) :
    ∀ x ∈ (mergeRounds (rounds + 1) fresh q).2, x.id = fresh + rounds := by
  induction rounds generalizing fresh q with
  | zero =>
    obtain ⟨a, b, rfl⟩ := List.length_eq_two.mp h
    simp [mergeRounds, queuePush]
  | succ rounds ih =>
    match q, h with
    | a :: b :: queue, h =>
      have hlen : (queuePush { weight := a.weight + b.weight, id := fresh } queue).length =
          rounds + 2 := by simpa using h
      have := ih (fresh + 1) _ hlen
      rw [mergeRounds]
      intro x hx
      rw [this x hx, Nat.add_assoc, Nat.add_comm 1]

/-! ### The whole merge of a frequency map -/

section
variable {hw : Hardware} {c : Arch} {nodes : List Merged} {last : Key}
  (hm : mergeAll hw c = (nodes, [last]))
include hm

theorem mergeAll_nodes : (mergeRounds ((leafQueue hw c).length - 1) hw.nSym (leafQueue hw c)).1 =
    nodes := congrArg Prod.fst hm

theorem mergeAll_left : (mergeRounds ((leafQueue hw c).length - 1) hw.nSym (leafQueue hw c)).2 =
    [last] := congrArg Prod.snd hm

/-- Every counted symbol and every created node is a child once, except the one that is left. -/
theorem children_mergeAll_perm : (nodes.flatMap Merged.children ++ [last.id]).Perm
    (c.counted hw ++ List.range' hw.nSym nodes.length) := by
  have h := children_mergeRounds_perm ((leafQueue hw c).length - 1) hw.nSym (leafQueue hw c)
  rw [mergeAll_nodes hm, mergeAll_left hm] at h
  have hids : ((leafQueue hw c).map Key.id).Perm (c.counted hw) := by
    simpa [leafKey, Function.comp_def] using (leafQueue_perm hw c).map Key.id
  exact h.trans (hids.append_right _)

theorem nodup_children_mergeAll : (nodes.flatMap Merged.children ++ [last.id]).Nodup := by
  rw [(children_mergeAll_perm hm).nodup_iff, List.nodup_append]
  refine ⟨nodup_counted hw c, List.nodup_range', ?_⟩
  intro s hs n hn
  have := (mem_counted.mp hs).1
  have := (List.mem_range'_1.mp hn).1
  omega

theorem mem_children_mergeAll {x : Nat} : x ∈ nodes.flatMap Merged.children ∨ x = last.id ↔
    x ∈ c.counted hw ∨ hw.nSym ≤ x ∧ x < hw.nSym + nodes.length := by
  simpa [-List.mem_flatMap] using (children_mergeAll_perm hm).mem_iff (a := x)

theorem children_mergeAll_lt (i : Nat) (h : i < nodes.length) :
    nodes[i].left < hw.nSym + i ∧ nodes[i].right < hw.nSym + i := by
  have hids : ∀ x ∈ leafQueue hw c, x.id < hw.nSym := by
    intro x hx
    obtain ⟨s, hs, rfl⟩ := List.mem_map.mp ((leafQueue_perm hw c).mem_iff.mp hx)
    exact (mem_counted.mp hs).1
  have := children_mergeRounds_lt ((leafQueue hw c).length - 1) hw.nSym (leafQueue hw c) hids i
  simp only [mergeAll_nodes hm] at this
  exact this h

theorem last_weight_mergeAll :
    last.weight = ((c.counted hw).map fun s => (c.freq.read s).toNat).sum := by
  have h := totalWeight_mergeRounds ((leafQueue hw c).length - 1) hw.nSym (leafQueue hw c)
  rw [mergeAll_left hm, totalWeight_leafQueue] at h
  simpa [totalWeight] using h

theorem weight_mergeAll_le : ∀ n ∈ nodes,
    n.weight ≤ ((c.counted hw).map fun s => (c.freq.read s).toNat).sum := by
  have h := weight_mergeRounds_le ((leafQueue hw c).length - 1) hw.nSym (leafQueue hw c)
  rwa [mergeAll_nodes hm, totalWeight_leafQueue] at h

theorem weights_mergeAll (W : Nat → Nat) (hleaf : ∀ s ∈ c.counted hw, W s = (c.freq.read s).toNat)
    (hnew : ∀ i, (h : i < nodes.length) → W (hw.nSym + i) = nodes[i].weight) :
    (∀ n ∈ nodes, n.weight = W n.left + W n.right) ∧ W last.id = last.weight := by
  have hq : ∀ x ∈ leafQueue hw c, W x.id = x.weight := by
    intro x hx
    obtain ⟨s, hs, rfl⟩ := List.mem_map.mp ((leafQueue_perm hw c).mem_iff.mp hx)
    exact hleaf s hs
  have h := weights_mergeRounds W ((leafQueue hw c).length - 1) hw.nSym (leafQueue hw c) hq
  simp only [mergeAll_nodes hm, mergeAll_left hm] at h
  simpa using h hnew

/-- With one symbol the root is its leaf (R155). -/
theorem last_id_of_one (h : (c.counted hw).length = 1) : c.counted hw = [last.id] := by
  obtain ⟨s, hs⟩ := List.length_eq_one_iff.mp h
  have hq : leafQueue hw c = [leafKey c s] := by
    simpa [hs] using leafQueue_perm hw c
  have hleft := mergeAll_left hm
  rw [hq] at hleft
  obtain rfl : leafKey c s = last := by simpa [mergeRounds] using hleft
  exact hs

/-- With two symbols or more the root is the node created last (R153). -/
theorem last_id_of_two_le (h : 2 ≤ (c.counted hw).length) :
    last.id = hw.nSym + (c.counted hw).length - 2 := by
  obtain ⟨r, hr⟩ := Nat.exists_eq_add_of_le' h
  have hlast := last_mergeRounds r hw.nSym (leafQueue hw c) (by simp [hr])
  have hleft := mergeAll_left hm
  rw [length_leafQueue, hr] at hleft
  rw [show r + 2 - 1 = r + 1 from rfl] at hleft
  rw [hleft] at hlast
  have := hlast last (by simp)
  omega

end

/-! ### The arena written -/

section
variable (m : Memory) {leaves created : List Word} {k pad : Nat}

theorem read_writeBlock_leaf {s : Nat} (h : s < leaves.length) :
    (m.writeBlock 0 (leaves ++ created ++ List.replicate pad 0#32)).read s = leaves[s] := by
  rw [Memory.read_writeBlock, if_pos (by simp; omega), List.append_assoc,
    List.getElem?_append_left (by omega)]
  simp [h]

variable (hk : leaves.length = k)
include hk

theorem read_writeBlock_created {i : Nat} (h : i < created.length) :
    (m.writeBlock 0 (leaves ++ created ++ List.replicate pad 0#32)).read (k + i) = created[i] := by
  rw [Memory.read_writeBlock, if_pos (by simp; omega), List.append_assoc,
    List.getElem?_append_right (by omega), List.getElem?_append_left (by omega)]
  simp [h, hk]

theorem read_writeBlock_cleared {n : Nat} (hlo : k + created.length ≤ n)
    (hhi : n < k + created.length + pad) :
    (m.writeBlock 0 (leaves ++ created ++ List.replicate pad 0#32)).read n = 0#32 := by
  rw [Memory.read_writeBlock, if_pos (by simp; omega),
    List.getElem?_append_right (by simp; omega), List.getElem?_replicate]
  split <;> rfl

end

section
variable (hw : Hardware) (c : Arch) (nodes : List Merged)

theorem length_arenaWeights (h : nodes.length ≤ hw.nSym - 1) :
    (arenaWeights hw c nodes).length = hw.arenaDepth := by
  simp only [arenaWeights, List.length_append, List.length_map, List.length_range,
    List.length_replicate, Params.arenaDepth]
  omega

theorem length_arenaChildren (h : nodes.length ≤ hw.nSym - 1) :
    (arenaChildren hw nodes).length = hw.arenaDepth := by
  simp only [arenaChildren, List.length_append, List.length_map, List.length_replicate,
    Params.arenaDepth]
  omega

theorem read_arenaWeights_leaf (m : Memory) {s : Nat} (h : s < hw.nSym) :
    (m.writeBlock 0 (arenaWeights hw c nodes)).read s = c.freq.read s := by
  rw [arenaWeights, read_writeBlock_leaf m (by simpa using h)]
  simp

theorem read_arenaWeights_created (m : Memory) {i : Nat} (h : i < nodes.length) :
    (m.writeBlock 0 (arenaWeights hw c nodes)).read (hw.nSym + i) =
      BitVec.ofNat 32 nodes[i].weight := by
  rw [arenaWeights, read_writeBlock_created m (by simp) (by simpa using h)]
  simp

theorem read_arenaWeights_cleared (m : Memory) {n : Nat} (hlo : hw.nSym + nodes.length ≤ n)
    (hhi : n < hw.arenaDepth) : (m.writeBlock 0 (arenaWeights hw c nodes)).read n = 0#32 := by
  rw [Params.arenaDepth] at hhi
  exact read_writeBlock_cleared m (k := hw.nSym) (by simp) (by simpa using hlo) (by simp; omega)

theorem read_arenaChildren_leaf (m : Memory) {s : Nat} (h : s < hw.nSym) :
    (m.writeBlock 0 (arenaChildren hw nodes)).read s = 0#32 := by
  rw [arenaChildren, read_writeBlock_leaf m (by simpa using h)]
  simp

theorem read_arenaChildren_created (m : Memory) {i : Nat} (h : i < nodes.length) :
    (m.writeBlock 0 (arenaChildren hw nodes)).read (hw.nSym + i) =
      halves nodes[i].right nodes[i].left := by
  rw [arenaChildren, read_writeBlock_created m (by simp) (by simpa using h)]
  simp

theorem read_arenaChildren_cleared (m : Memory) {n : Nat} (hlo : hw.nSym + nodes.length ≤ n)
    (hhi : n < hw.arenaDepth) : (m.writeBlock 0 (arenaChildren hw nodes)).read n = 0#32 := by
  rw [Params.arenaDepth] at hhi
  exact read_writeBlock_cleared m (k := hw.nSym) (by simp) (by simpa using hlo) (by simp; omega)

end

end Sys2Proof.Machine
end

section
/-! Every step keeps the form of the memories and the widths of ROOT and NLEAF (spec/10_state.md
R29, R30, R33; spec/20_memory.md R68), one elementary change at a time. -/

namespace Sys2Proof.Machine

/-! ### What a successful stage leaves -/

theorem freqStage_done {hw : Hardware} {c d : Arch} (h : freqStage hw c = .done d) :
    c.textLen.toNat ≤ hw.textCap ∧ d = { c with
      freq := c.freq.writeBlock 0
        ((List.range hw.nSym).map fun s => BitVec.ofNat 32 (c.currentText.count s))
      treeValid := false } := by
  obtain ⟨-, h'⟩ | ⟨hlen, h'⟩ := freqStage_cases hw c <;> rw [h'] at h <;> cases h
  exact ⟨hlen, rfl⟩

theorem treeStage_done {hw : Hardware} {c d : Arch} (h : treeStage hw c = .done d) :
    ∃ nodes last, c.counted hw ≠ [] ∧ mergeAll hw c = (nodes, [last]) ∧
      nodes.length = (c.counted hw).length - 1 ∧ d = { c with
        nodeW := c.nodeW.writeBlock 0 (arenaWeights hw c nodes)
        nodeLR := c.nodeLR.writeBlock 0 (arenaChildren hw nodes)
        root := BitVec.ofNat 32 last.id
        nleaf := BitVec.ofNat 32 (c.counted hw).length
        treeValid := true } := by
  obtain ⟨-, h'⟩ | ⟨nodes, last, hne, hm, hlen, h'⟩ := treeStage_cases hw c <;> rw [h'] at h <;>
    cases h
  exact ⟨nodes, last, hne, hm, hlen, rfl⟩

theorem deriveStage_done {hw : Hardware} {c d : Arch} (h : deriveStage hw c = .done d) :
    c.treeValid = true ∧
    (∀ s ∈ treeLeaves hw c, (codeOf (treeCodes hw c) s).length ≤ hw.maxlen) ∧ d = { c with
      ctLen := c.ctLen.writeBlock 0 (tableColumn hw c (treeCodes hw c) List.length)
      ctCode := c.ctCode.writeBlock 0 (tableColumn hw c (treeCodes hw c) bitsVal)
      ctValid := true } := by
  obtain ⟨-, h'⟩ | ⟨_, -, -, h'⟩ | ⟨ht, hlen, h'⟩ := deriveStage_cases hw c <;> rw [h'] at h <;>
    cases h
  exact ⟨ht, hlen, rfl⟩

theorem encodeStage_done {hw : Hardware} {c d : Arch} (h : encodeStage hw c = .done d) :
    encodedLength c ≤ 8 * hw.bitsCap ∧ d = { c with
      bits := c.bits.writeBlock 0 (packBytes (byteCount (encodedLength c)) (encodedBits c))
      bitLen := BitVec.ofNat 32 (encodedLength c) } := by
  obtain ⟨-, h'⟩ | ⟨-, -, h'⟩ | ⟨_, -, -, -, h'⟩ | ⟨-, -, -, -, h'⟩ | ⟨-, -, -, hlen, h'⟩ :=
    encodeStage_cases hw c <;> rw [h'] at h <;> cases h
  exact ⟨hlen, rfl⟩

theorem decodeStage_done {hw : Hardware} {c d : Arch} (h : decodeStage hw c = .done d) :
    (decodeBits hw c c.currentBits []).1.length ≤ hw.textCap ∧ d = { c with
      text := c.text.writeBlock 0 ((decodeBits hw c c.currentBits []).1.map (BitVec.ofNat 32))
      textLen := BitVec.ofNat 32 (decodeBits hw c c.currentBits []).1.length
      resid := BitVec.ofNat 32 (decodeBits hw c c.currentBits []).2.length } := by
  obtain ⟨-, h'⟩ | ⟨-, -, h'⟩ | ⟨-, -, -, h'⟩ | ⟨-, -, hlen, h'⟩ := decodeStage_cases hw c <;>
    rw [h'] at h <;> cases h
  exact ⟨hlen, rfl⟩

theorem ctchkStage_done {hw : Hardware} {c d : Arch} (h : ctchkStage hw c = .done d) :
    (List.range hw.nSym).find? (entryMalformed hw c) = none ∧ c.coded hw ≠ [] ∧
    prefixPair hw c = none ∧ d = { c with ctValid := true } := by
  obtain ⟨_, -, h'⟩ | ⟨-, -, h'⟩ | ⟨_, _, -, -, -, h'⟩ | ⟨hform, hne, hpair, h'⟩ :=
    ctchkStage_cases hw c <;> rw [h'] at h <;> cases h
  exact ⟨hform, hne, hpair, rfl⟩

theorem ctclrStage_done {hw : Hardware} {c d : Arch} (h : ctclrStage hw c = .done d) :
    d = { c with
      ctLen := c.ctLen.writeBlock 0 (List.replicate hw.nSym 0#32)
      ctCode := c.ctCode.writeBlock 0 (List.replicate hw.nSym 0#32)
      ctValid := false } := by
  rw [ctclrStage_eq] at h
  cases h
  rfl

/-! ### Writes to one memory -/

theorem Memory.Ok.writeBlock {m : Memory} {depth width : Nat} (h : m.Ok depth width)
    {vs : List Word} (hlen : vs.length ≤ depth) (hv : ∀ v ∈ vs, v.toNat < 2 ^ width) :
    (m.writeBlock 0 vs).Ok depth width :=
  ⟨m.wf_writeBlock 0 vs h.1, m.fits_writeBlock 0 vs depth width h.2 (by omega) hv⟩

/-- A host write stores the low bits of its data (R68). -/
theorem Memory.Ok.write_lowBits {m : Memory} {depth width : Nat} (h : m.Ok depth width) {i : Nat}
    (hi : i < depth) (v : Word) : (m.write i (lowBits width v)).Ok depth width :=
  ⟨m.wf_write i _ h.1, m.fits_write i _ depth width h.2 hi (by
    rw [toNat_lowBits]
    exact Nat.mod_lt _ (Nat.two_pow_pos _))⟩

/-! ### The values that the stages write -/

/-- A count is at most the length of the text, which fits the counter (R142). -/
theorem count_currentText_lt {hw : Hardware} {c : Arch} (h : c.textLen.toNat ≤ hw.textCap)
    (s : Nat) : c.currentText.count s < 2 ^ hw.cntw := by
  obtain ⟨-, -, -, -, -, -, -, -, hcap, -⟩ := hw.ok
  have hcount : c.currentText.count s ≤ c.textLen.toNat := by
    simpa [Arch.currentText] using List.count_le_length (a := s) (l := c.currentText)
  have := Nat.two_pow_pos hw.cntw
  omega

/-- The counts together stay within the width of a weight (R7). -/
theorem sum_counted_lt {hw : Hardware} {c : Arch} (h : c.freq.Ok hw.nSym hw.cntw) :
    ((c.counted hw).map fun s => (c.freq.read s).toNat).sum < 2 ^ hw.weightWidth := by
  have hone : ∀ w ∈ (c.counted hw).map fun s => (c.freq.read s).toNat, w ≤ 2 ^ hw.cntw - 1 := by
    intro w hw'
    obtain ⟨s, -, rfl⟩ := List.mem_map.mp hw'
    exact Nat.le_pred_of_lt (c.freq.read_lt _ _ s h.2)
  have hpos := Nat.two_pow_pos hw.cntw
  calc ((c.counted hw).map fun s => (c.freq.read s).toNat).sum
    _ ≤ (c.counted hw).length * (2 ^ hw.cntw - 1) := by
      simpa using List.sum_le_card_nsmul _ _ hone
    _ ≤ hw.nSym * (2 ^ hw.cntw - 1) := Nat.mul_le_mul_right _ (length_counted_le hw c)
    _ < hw.nSym * 2 ^ hw.cntw := Nat.mul_lt_mul_of_pos_left (by omega) hw.nSym_pos
    _ = 2 ^ hw.weightWidth := by rw [Params.nSym, Params.weightWidth, ← pow_add, Nat.add_comm]

theorem arenaWeights_lt {hw : Hardware} {c : Arch} {nodes : List Merged} {last : Key}
    (h : c.freq.Ok hw.nSym hw.cntw) (hm : mergeAll hw c = (nodes, [last])) :
    ∀ v ∈ arenaWeights hw c nodes, v.toNat < 2 ^ hw.weightWidth := by
  intro v hv
  simp only [arenaWeights, List.mem_append, List.mem_map, List.mem_replicate] at hv
  obtain (⟨s, -, rfl⟩ | ⟨n, hn, rfl⟩) | ⟨-, rfl⟩ := hv
  · exact lt_of_lt_of_le (c.freq.read_lt _ _ s h.2)
      (Nat.pow_le_pow_right (by decide) (Nat.le_add_right _ _))
  · exact toNat_ofNat_lt (lt_of_le_of_lt (weight_mergeAll_le hm n hn) (sum_counted_lt h))
  · exact Nat.two_pow_pos _

/-- Every id fits ROOT (R29). -/
theorem last_id_lt {hw : Hardware} {c : Arch} {nodes : List Merged} {last : Key}
    (hm : mergeAll hw c = (nodes, [last])) (hlen : nodes.length ≤ hw.nSym) :
    last.id < 2 ^ (hw.symw + 1) := by
  rw [← hw.two_mul_nSym]
  rcases (mem_children_mergeAll hm).mp (.inr rfl) with hleaf | ⟨-, hnew⟩
  · have := (mem_counted.mp hleaf).1
    omega
  · omega

/-- DECODE emits symbols of the alphabet. -/
theorem decodeBits_lt (hw : Hardware) (c : Arch) (q acc : Bits) :
    ∀ s ∈ (decodeBits hw c q acc).1, s < hw.nSym := by
  fun_induction decodeBits hw c q acc with
  | case1 acc => simp
  | case2 acc b rest s hs tail ih =>
    simpa using ⟨(matchSymbol_some hs).1, ih⟩
  | case3 acc b rest hs ih => exact ih

theorem packBytes_lt (n : Nat) (q : Bits) : ∀ v ∈ packBytes n q, v.toNat < 2 ^ 8 := by
  intro v hv
  obtain ⟨k, hk, rfl⟩ := List.mem_iff_getElem.mp hv
  rw [getElem_packBytes]
  exact packByte_lt _

/-- A column of the table fits, if what it holds of each leaf's code does. -/
theorem tableColumn_lt {hw : Hardware} {c : Arch} {codes : Codes} {f : Bits → Nat} {width : Nat}
    (h : ∀ s ∈ treeLeaves hw c, f (codeOf codes s) < 2 ^ width) :
    ∀ v ∈ tableColumn hw c codes f, v.toNat < 2 ^ width := by
  intro v hv
  simp only [tableColumn, List.mem_map, List.mem_range] at hv
  obtain ⟨s, hs, rfl⟩ := hv
  split
  next hpos => exact toNat_ofNat_lt (h s (by simp [treeLeaves, hs, hpos]))
  next => exact Nat.two_pow_pos _

theorem length_tableColumn (hw : Hardware) (c : Arch) (codes : Codes) (f : Bits → Nat) :
    (tableColumn hw c codes f).length = hw.nSym := by simp [tableColumn]

/-! ### Every change keeps the form -/

theorem Arch.memoriesOk_reset (hw : Hardware) : Arch.reset.MemoriesOk hw :=
  ⟨Memory.ok_empty _ _, Memory.ok_empty _ _, Memory.ok_empty _ _, Memory.ok_empty _ _,
    Memory.ok_empty _ _, Memory.ok_empty _ _, Memory.ok_empty _ _⟩

theorem hostWrite_memoriesOk {hw : Hardware} {c d : Arch} {a : Addr} {v : Word}
    (h : hostWrite hw c a v = some d) (hc : c.MemoriesOk hw) : d.MemoriesOk hw := by
  have ho := hostWrite_outcome hw c a v
  rw [h] at ho
  cases ho with
  | textLen => exact { hc with }
  | bitLen => exact { hc with }
  | text _ ho => exact { hc with text := hc.text.write_lowBits ho v }
  | bits _ ho => exact { hc with bits := hc.bits.write_lowBits ho v }
  | freq _ ho => exact { hc with freq := hc.freq.write_lowBits ho v }
  | ctLen _ ho => exact { hc with ctLen := hc.ctLen.write_lowBits ho v }
  | ctCode _ ho => exact { hc with ctCode := hc.ctCode.write_lowBits ho v }

theorem freqStage_memoriesOk {hw : Hardware} {c d : Arch} (h : freqStage hw c = .done d)
    (hc : c.MemoriesOk hw) : d.MemoriesOk hw := by
  obtain ⟨hlen, rfl⟩ := freqStage_done h
  refine { hc with freq := hc.freq.writeBlock (by simp) ?_ }
  intro v hv
  obtain ⟨s, -, rfl⟩ := List.mem_map.mp hv
  exact toNat_ofNat_lt (count_currentText_lt hlen s)

theorem treeStage_memoriesOk {hw : Hardware} {c d : Arch} (h : treeStage hw c = .done d)
    (hc : c.MemoriesOk hw) : d.MemoriesOk hw := by
  obtain ⟨nodes, last, -, hm, hlen, rfl⟩ := treeStage_done h
  have hcounted := length_counted_le hw c
  have hdepth : nodes.length ≤ hw.nSym - 1 := by omega
  exact { hc with
    nodeW := hc.nodeW.writeBlock (length_arenaWeights hw c nodes hdepth).le
      (arenaWeights_lt hc.freq hm)
    nodeLR := hc.nodeLR.writeBlock (length_arenaChildren hw nodes hdepth).le (fun v _ => v.isLt) }

theorem deriveStage_memoriesOk {hw : Hardware} {c d : Arch} (h : deriveStage hw c = .done d)
    (hc : c.MemoriesOk hw) : d.MemoriesOk hw := by
  obtain ⟨-, hlen, rfl⟩ := deriveStage_done h
  obtain ⟨-, -, -, -, -, hmax, -⟩ := hw.ok
  refine { hc with
    ctLen := hc.ctLen.writeBlock (length_tableColumn ..).le (tableColumn_lt ?_)
    ctCode := hc.ctCode.writeBlock (length_tableColumn ..).le (tableColumn_lt ?_) }
  · intro s hs
    have := hlen s hs
    omega
  · intro s hs
    exact lt_of_lt_of_le (bitsVal_lt _) (Nat.pow_le_pow_right (by decide) (hlen s hs))

theorem ctclrStage_memoriesOk {hw : Hardware} {c d : Arch} (h : ctclrStage hw c = .done d)
    (hc : c.MemoriesOk hw) : d.MemoriesOk hw := by
  obtain rfl := ctclrStage_done h
  have hzero (width : Nat) : ∀ v ∈ List.replicate hw.nSym 0#32, v.toNat < 2 ^ width := by
    intro v hv
    rw [List.eq_of_mem_replicate hv]
    exact Nat.two_pow_pos _
  exact { hc with
    ctLen := hc.ctLen.writeBlock (by simp) (hzero _)
    ctCode := hc.ctCode.writeBlock (by simp) (hzero _) }

theorem encodeStage_memoriesOk {hw : Hardware} {c d : Arch} (h : encodeStage hw c = .done d)
    (hc : c.MemoriesOk hw) : d.MemoriesOk hw := by
  obtain ⟨hlen, rfl⟩ := encodeStage_done h
  have hbytes : byteCount (encodedLength c) ≤ hw.bitsCap := by
    unfold byteCount
    omega
  exact { hc with bits := hc.bits.writeBlock (by simpa using hbytes) (packBytes_lt _ _) }

theorem decodeStage_memoriesOk {hw : Hardware} {c d : Arch} (h : decodeStage hw c = .done d)
    (hc : c.MemoriesOk hw) : d.MemoriesOk hw := by
  obtain ⟨hlen, rfl⟩ := decodeStage_done h
  refine { hc with text := hc.text.writeBlock (by simpa using hlen) ?_ }
  intro v hv
  obtain ⟨s, hs, rfl⟩ := List.mem_map.mp hv
  exact toNat_ofNat_lt (decodeBits_lt hw c _ _ s hs)

theorem Arch.Change.memoriesOk {hw : Hardware} {c d : Arch} (h : c.Change hw d)
    (hc : c.MemoriesOk hw) : d.MemoriesOk hw := by
  cases h with
  | record e info => exact { hc with }
  | reset => exact Arch.memoriesOk_reset hw
  | write h => exact hostWrite_memoriesOk h hc
  | freq h => exact freqStage_memoriesOk h hc
  | tree h => exact treeStage_memoriesOk h hc
  | derive h => exact deriveStage_memoriesOk h hc
  | encode h => exact encodeStage_memoriesOk h hc
  | decode h => exact decodeStage_memoriesOk h hc
  | ctclr h => exact ctclrStage_memoriesOk h hc
  | ctchk h =>
    obtain ⟨-, -, -, rfl⟩ := ctchkStage_done h
    exact { hc with }

/-- Only TREE writes ROOT and NLEAF, and then an id and a number of leaves (R29, R30). -/
theorem treeStage_registersOk {hw : Hardware} {c d : Arch} (h : treeStage hw c = .done d) :
    d.RegistersOk hw := by
  obtain ⟨nodes, last, -, hm, hlen, rfl⟩ := treeStage_done h
  have hcounted := length_counted_le hw c
  have hleaves : (c.counted hw).length < 2 ^ (hw.symw + 1) := by
    rw [← hw.two_mul_nSym]
    have := hw.nSym_pos
    omega
  exact ⟨toNat_ofNat_lt (last_id_lt hm (by omega)), toNat_ofNat_lt hleaves⟩

theorem Arch.Change.registersOk {hw : Hardware} {c d : Arch} (h : c.Change hw d)
    (hc : c.RegistersOk hw) : d.RegistersOk hw := by
  cases h with
  | record e info => exact { hc with }
  | reset => exact ⟨Nat.two_pow_pos _, Nat.two_pow_pos _⟩
  | @write a v d h =>
    have ho := hostWrite_outcome hw c a v
    rw [h] at ho
    cases ho <;> exact { hc with }
  | freq h =>
    obtain ⟨-, rfl⟩ := freqStage_done h
    exact { hc with }
  | tree h => exact treeStage_registersOk h
  | derive h =>
    obtain ⟨-, -, rfl⟩ := deriveStage_done h
    exact { hc with }
  | encode h =>
    obtain ⟨-, rfl⟩ := encodeStage_done h
    exact { hc with }
  | decode h =>
    obtain ⟨-, rfl⟩ := decodeStage_done h
    exact { hc with }
  | ctclr h =>
    obtain rfl := ctclrStage_done h
    exact { hc with }
  | ctchk h =>
    obtain ⟨-, -, -, rfl⟩ := ctchkStage_done h
    exact { hc with }

end Sys2Proof.Machine

open Sys2Proof Sys2Proof.Machine

/-- Settles O57: every elementary change keeps the form of the memories and the widths of the two
registers, so every step does. -/
theorem stepKeepsMemoryForm : Obligations.StepKeepsMemoryForm := by
  intro s t hmem hreg h
  obtain ⟨hhw, hchanges⟩ := step_changes h
  rw [hhw]
  exact ⟨rfl, hchanges.keep (fun _ _ => Arch.Change.memoriesOk) hmem,
    hchanges.keep (fun _ _ => Arch.Change.registersOk) hreg⟩
end

section
/-! A successful TREE establishes the arena invariant (spec/10_state.md R43; spec/42_tree_builder.md
R153), and every step keeps it while TREE_VALID is 1. -/

namespace Sys2Proof.Machine

/-! ### The arena that TREE leaves -/

/-- `d` holds the arena of the merge of `c`'s frequency map: what is read of it for the leaves, for
the created nodes, and beyond them. -/
structure Arch.HoldsMerge (hw : Hardware) (c : Arch) (nodes : List Merged) (last : Key) (d : Arch) :
    Prop where
  merge : mergeAll hw c = (nodes, [last])
  nonempty : 1 ≤ (c.counted hw).length
  created : nodes.length = (c.counted hw).length - 1
  freq : d.freq = c.freq
  root : d.root.toNat = last.id
  nleaf : d.nleaf.toNat = (c.counted hw).length
  leafWeight : ∀ s < hw.nSym, d.nodeW.read s = c.freq.read s
  leafChildren : ∀ s < hw.nSym, d.nodeLR.read s = 0#32
  weight : ∀ i, (h : i < nodes.length) → d.weightOf (hw.nSym + i) = nodes[i].weight
  left : ∀ i, (h : i < nodes.length) → d.leftOf (hw.nSym + i) = nodes[i].left
  right : ∀ i, (h : i < nodes.length) → d.rightOf (hw.nSym + i) = nodes[i].right
  cleared : ∀ n < hw.arenaDepth, hw.nSym + nodes.length ≤ n →
    d.nodeW.read n = 0#32 ∧ d.nodeLR.read n = 0#32

/-- Created nodes have weights of the width of R7, so none is cut off when it is stored. -/
theorem weight_created_lt {hw : Hardware} {c : Arch} {nodes : List Merged} {last : Key}
    (hfreq : c.freq.Ok hw.nSym hw.cntw) (hm : mergeAll hw c = (nodes, [last])) {n : Merged}
    (hn : n ∈ nodes) : n.weight < 2 ^ 32 := by
  obtain ⟨-, -, -, hwidth, -⟩ := hw.ok
  calc n.weight
    _ ≤ ((c.counted hw).map fun s => (c.freq.read s).toNat).sum := weight_mergeAll_le hm n hn
    _ < 2 ^ hw.weightWidth := sum_counted_lt hfreq
    _ ≤ 2 ^ 32 := Nat.pow_le_pow_right (by decide) hwidth

theorem treeStage_holdsMerge {hw : Hardware} {c d : Arch} (hfreq : c.freq.Ok hw.nSym hw.cntw)
    (h : treeStage hw c = .done d) : ∃ nodes last, Arch.HoldsMerge hw c nodes last d := by
  obtain ⟨nodes, last, hne, hm, hlen, rfl⟩ := treeStage_done h
  have hcounted := length_counted_le hw c
  have hsize := hw.nSym_le
  have hroot := last_id_lt hm (by omega)
  rw [← hw.two_mul_nSym] at hroot
  refine ⟨nodes, last, {
    merge := hm
    nonempty := List.length_pos_iff.mpr hne
    created := hlen
    freq := rfl
    root := toNat_ofNat_of_lt (by omega)
    nleaf := toNat_ofNat_of_lt (by omega)
    leafWeight := fun _ hs => read_arenaWeights_leaf hw c nodes _ hs
    leafChildren := fun _ hs => read_arenaChildren_leaf hw nodes _ hs
    weight := ?_
    left := ?_
    right := ?_
    cleared := fun _ hn hlo => ⟨read_arenaWeights_cleared hw c nodes _ hlo hn,
      read_arenaChildren_cleared hw nodes _ hlo hn⟩ }⟩
  · intro i hi
    rw [Arch.weightOf, read_arenaWeights_created hw c nodes _ hi]
    exact toNat_ofNat_of_lt (weight_created_lt hfreq hm (List.getElem_mem hi))
  · intro i hi
    have := children_mergeAll_lt hm i hi
    rw [Arch.leftOf, read_arenaChildren_created hw nodes _ hi, lowHalf_halves]
    omega
  · intro i hi
    have := children_mergeAll_lt hm i hi
    rw [Arch.rightOf, read_arenaChildren_created hw nodes _ hi, highHalf_halves]
    omega

/-! ### That arena meets R43 -/

namespace Arch.HoldsMerge

section
variable {hw : Hardware} {c d : Arch} {nodes : List Merged} {last : Key}
  (h : Arch.HoldsMerge hw c nodes last d)
include h

theorem counted_eq : d.counted hw = c.counted hw := by rw [Arch.counted, h.freq, Arch.counted]

theorem root_of_one (hone : (c.counted hw).length = 1) : c.counted hw = [d.root.toNat] := by
  rw [h.root]
  exact last_id_of_one h.merge hone

theorem root_of_two_le (htwo : 2 ≤ (c.counted hw).length) :
    d.root.toNat = hw.nSym + (c.counted hw).length - 2 := by
  rw [h.root]
  exact last_id_of_two_le h.merge htwo

/-- The internal nodes are the ids from `N_SYM` to ROOT. -/
theorem internal_count : d.root.toNat + 1 - hw.nSym = nodes.length := by
  have hpos := h.nonempty
  have hlen := h.created
  by_cases hone : (c.counted hw).length = 1
  · have hroot : d.root.toNat ∈ c.counted hw := by
      rw [h.root_of_one hone]
      exact List.mem_singleton_self _
    have := (mem_counted.mp hroot).1
    omega
  · have := h.root_of_two_le (by omega)
    omega

theorem isNode_iff {x : Nat} : d.IsNode hw x ↔
    x ∈ c.counted hw ∨ hw.nSym ≤ x ∧ x < hw.nSym + nodes.length := by
  have := h.internal_count
  rw [Arch.IsNode, ← mem_counted, h.counted_eq]
  refine or_congr Iff.rfl (and_congr_right fun hx => ?_)
  omega

theorem childIds_eq : d.childIds hw = nodes.flatMap Merged.children := by
  rw [Arch.childIds, h.internal_count, List.flatMap_def, List.flatMap_def]
  congr 1
  apply List.ext_getElem (by simp)
  intro i hi _
  have hi : i < nodes.length := by simpa using hi
  simp [Merged.children, h.left i hi, h.right i hi]

theorem isNode_of_child {n : Merged} (hn : n ∈ nodes) {x : Nat} (hx : x ∈ n.children) :
    d.IsNode hw x :=
  h.isNode_iff.mpr ((mem_children_mergeAll h.merge).mp (.inl (List.mem_flatMap.mpr ⟨n, hn, hx⟩)))

/-- The weights of the arena are those of the merge: a created node weighs as much as its children,
and the root as much as all leaves. -/
theorem weights : (∀ n ∈ nodes, n.weight = d.weightOf n.left + d.weightOf n.right) ∧
    d.weightOf last.id = last.weight := by
  refine weights_mergeAll h.merge d.weightOf ?_ h.weight
  intro s hs
  rw [Arch.weightOf, h.leafWeight s (mem_counted.mp hs).1]

theorem children_ok : ∀ n ≤ d.root.toNat, hw.nSym ≤ n →
    (d.leftOf n < n ∧ d.IsNode hw (d.leftOf n)) ∧ (d.rightOf n < n ∧ d.IsNode hw (d.rightOf n)) ∧
    d.weightOf n = d.weightOf (d.leftOf n) + d.weightOf (d.rightOf n) := by
  intro n hn hlo
  have hcount := h.internal_count
  obtain ⟨i, rfl⟩ := Nat.exists_eq_add_of_le hlo
  have hi : i < nodes.length := by omega
  have hmem : nodes[i] ∈ nodes := List.getElem_mem hi
  obtain ⟨hleft, hright⟩ := children_mergeAll_lt h.merge i hi
  rw [h.left i hi, h.right i hi, h.weight i hi]
  exact ⟨⟨hleft, h.isNode_of_child hmem (by simp [Merged.children])⟩,
    ⟨hright, h.isNode_of_child hmem (by simp [Merged.children])⟩, h.weights.1 _ hmem⟩

/-- Every node but the root is a child exactly once, the root never (R43 (d)). -/
theorem count_childIds {x : Nat} (hx : d.IsNode hw x) :
    (d.childIds hw).count x = if x = d.root.toNat then 0 else 1 := by
  have hmem : x ∈ nodes.flatMap Merged.children ++ [last.id] :=
    (children_mergeAll_perm h.merge).mem_iff.mpr (by simpa using h.isNode_iff.mp hx)
  have hone := List.count_eq_one_of_mem (nodup_children_mergeAll h.merge) hmem
  rw [List.count_append, List.count_singleton] at hone
  rw [h.childIds_eq, h.root]
  by_cases hroot : x = last.id
  · simpa [hroot] using hone
  · simpa [hroot, Ne.symm hroot] using hone

theorem isNode_root : d.IsNode hw d.root.toNat := by
  rw [h.isNode_iff, h.root]
  exact (mem_children_mergeAll h.merge).mp (.inr rfl)

theorem arenaOk : d.ArenaOk hw where
  leafCount := by
    rw [h.counted_eq]
    exact ⟨h.nleaf, h.nonempty⟩
  leafWeights := by
    rw [h.freq]
    exact h.leafWeight
  loneRoot := by
    rw [h.counted_eq]
    exact h.root_of_one
  lastRoot := by
    rw [h.counted_eq]
    exact h.root_of_two_le
  children := h.children_ok
  oneParent := by
    intro x _ hx hne
    rw [h.count_childIds hx, if_neg hne]
  rootNoChild := by rw [h.count_childIds h.isNode_root, if_pos rfl]
  rootWeight := by
    rw [h.counted_eq, h.freq, h.root, h.weights.2]
    exact last_weight_mergeAll h.merge
  cleared := by
    intro n hn hlo hroot
    have := h.internal_count
    exact h.cleared n hn (by omega)
  leafChildren := h.leafChildren

end

end Arch.HoldsMerge

/-- A successful TREE leaves an arena that meets R43. -/
theorem treeStage_arenaOk {hw : Hardware} {c d : Arch} (hfreq : c.freq.Ok hw.nSym hw.cntw)
    (h : treeStage hw c = .done d) : d.ArenaOk hw := by
  obtain ⟨nodes, last, hmerge⟩ := treeStage_holdsMerge hfreq h
  exact hmerge.arenaOk

/-! ### Every change keeps the arena -/

/-- R43: "while STATUS.TREE_VALID = 1" the arena is a strict tree of the frequency map. -/
def Arch.ArenaInv (hw : Hardware) (c : Arch) : Prop := c.treeValid = true → c.ArenaOk hw

theorem hostWrite_arenaInv {hw : Hardware} {c d : Arch} {a : Addr} {v : Word}
    (h : hostWrite hw c a v = some d) (hc : c.ArenaInv hw) : d.ArenaInv hw := by
  have ho := hostWrite_outcome hw c a v
  rw [h] at ho
  cases ho with
  | freq => exact nofun
  | textLen | bitLen | text | bits | ctLen | ctCode => exact fun ht => { hc ht with }

theorem Arch.Change.arenaInv {hw : Hardware} {c d : Arch} (h : c.Change hw d)
    (hmem : c.MemoriesOk hw) (hc : c.ArenaInv hw) : d.ArenaInv hw := by
  cases h with
  | record e info => exact fun ht => { hc ht with }
  | reset => exact nofun
  | write h => exact hostWrite_arenaInv h hc
  | freq h =>
    obtain ⟨-, rfl⟩ := freqStage_done h
    exact nofun
  | tree h => exact fun _ => treeStage_arenaOk hmem.freq h
  | derive h =>
    obtain ⟨-, -, rfl⟩ := deriveStage_done h
    exact fun ht => { hc ht with }
  | encode h =>
    obtain ⟨-, rfl⟩ := encodeStage_done h
    exact fun ht => { hc ht with }
  | decode h =>
    obtain ⟨-, rfl⟩ := decodeStage_done h
    exact fun ht => { hc ht with }
  | ctclr h =>
    obtain rfl := ctclrStage_done h
    exact fun ht => { hc ht with }
  | ctchk h =>
    obtain ⟨-, -, -, rfl⟩ := ctchkStage_done h
    exact fun ht => { hc ht with }

end Sys2Proof.Machine

open Sys2Proof Sys2Proof.Machine

/-- Settles O58: every elementary change keeps the arena, on memories of the form that the changes
before it have kept. -/
theorem stepKeepsArenaInvariant : Obligations.StepKeepsArenaInvariant := by
  intro s t hmem harena h
  obtain ⟨hhw, hchanges⟩ := step_changes h
  rw [hhw]
  exact (hchanges.keep (P := fun c => c.MemoriesOk s.hw ∧ c.ArenaInv s.hw)
    (fun _ _ hchange hc => ⟨hchange.memoriesOk hc.1, hchange.arenaInv hc.1 hc.2⟩)
    ⟨hmem, harena⟩).2
end

section
/-! The codes that DERIVE reads off the tree are its path codes, and no leaf's begins another's
(spec/43_code_table.md R170 to R174). -/

namespace Sys2Proof.Machine

/-! ### The walk of R170 -/

theorem codeOf_cons (codes : Codes) (m n : Nat) (q : Bits) :
    codeOf ((m, q) :: codes) n = if n = m then q else codeOf codes n := by
  by_cases h : n = m
  · simp [codeOf, h]
  · simp [codeOf, h, List.lookup_cons, beq_eq_false_iff_ne.mpr h]

/-- The children of the first `count` internal nodes. -/
def Arch.firstChildren (hw : Hardware) (c : Arch) (count : Nat) : List Nat :=
  (List.range count).flatMap fun i => [c.leftOf (hw.nSym + i), c.rightOf (hw.nSym + i)]

theorem Arch.childIds_eq_firstChildren (hw : Hardware) (c : Arch) :
    c.childIds hw = c.firstChildren hw (c.root.toNat + 1 - hw.nSym) := rfl

theorem Arch.firstChildren_succ (hw : Hardware) (c : Arch) (count : Nat) :
    c.firstChildren hw (count + 1) =
      c.firstChildren hw count ++ [c.leftOf (hw.nSym + count), c.rightOf (hw.nSym + count)] := by
  simp [Arch.firstChildren, List.range_succ]

theorem Arch.mem_firstChildren {hw : Hardware} {c : Arch} {count x : Nat} :
    x ∈ c.firstChildren hw count ↔
      ∃ i < count, x = c.leftOf (hw.nSym + i) ∨ x = c.rightOf (hw.nSym + i) := by
  simp [Arch.firstChildren]

theorem Arch.mem_childIds {hw : Hardware} {c : Arch} {x : Nat} : x ∈ c.childIds hw ↔
    ∃ n ≤ c.root.toNat, hw.nSym ≤ n ∧ (x = c.leftOf n ∨ x = c.rightOf n) := by
  rw [Arch.childIds_eq_firstChildren, Arch.mem_firstChildren]
  constructor
  · rintro ⟨i, hi, hx⟩
    exact ⟨hw.nSym + i, by omega, by omega, hx⟩
  · rintro ⟨n, hn, hlo, hx⟩
    obtain ⟨i, rfl⟩ := Nat.exists_eq_add_of_le hlo
    exact ⟨i, by omega, hx⟩

theorem walkDown_succ (hw : Hardware) (c : Arch) (count : Nat) (codes : Codes) :
    walkDown hw c (count + 1) codes = walkDown hw c count
      ((c.rightOf (hw.nSym + count), codeOf codes (hw.nSym + count) ++ [false]) ::
        (c.leftOf (hw.nSym + count), codeOf codes (hw.nSym + count) ++ [true]) :: codes) := rfl

/-- The walk binds children only. -/
theorem codeOf_walkDown_of_not_mem {hw : Hardware} {c : Arch} {count x : Nat} (codes : Codes)
    (hx : x ∉ c.firstChildren hw count) :
    codeOf (walkDown hw c count codes) x = codeOf codes x := by
  induction count generalizing codes with
  | zero => rfl
  | succ count ih =>
    simp only [Arch.firstChildren_succ, List.mem_append, List.mem_cons, List.not_mem_nil, or_false,
      not_or] at hx
    obtain ⟨hbelow, hleft, hright⟩ := hx
    rw [walkDown_succ, ih _ hbelow, codeOf_cons, if_neg hright, codeOf_cons, if_neg hleft]

/-- Where every child is older than its parent and has one parent only, the walk gives it its
parent's code and the bit of its edge (R171). -/
theorem codeOf_walkDown_child {hw : Hardware} {c : Arch} {count : Nat} (codes : Codes)
    (hlt : ∀ i < count,
      c.leftOf (hw.nSym + i) < hw.nSym + i ∧ c.rightOf (hw.nSym + i) < hw.nSym + i)
    (hnodup : (c.firstChildren hw count).Nodup) : ∀ i < count,
    codeOf (walkDown hw c count codes) (c.leftOf (hw.nSym + i)) =
      codeOf (walkDown hw c count codes) (hw.nSym + i) ++ [true] ∧
    codeOf (walkDown hw c count codes) (c.rightOf (hw.nSym + i)) =
      codeOf (walkDown hw c count codes) (hw.nSym + i) ++ [false] := by
  induction count generalizing codes with
  | zero => exact fun _ h => absurd h (Nat.not_lt_zero _)
  | succ count ih =>
    rw [Arch.firstChildren_succ, List.nodup_append] at hnodup
    obtain ⟨hbelow, hpair, hdisjoint⟩ := hnodup
    intro i hi
    rcases Nat.lt_succ_iff_lt_or_eq.mp hi with hi | rfl
    · rw [walkDown_succ]
      exact ih _ (fun j hj => hlt j (by omega)) hbelow i hi
    · obtain ⟨hl, hr⟩ := hlt i (by omega)
      have hleft : c.leftOf (hw.nSym + i) ∉ c.firstChildren hw i :=
        fun hm => hdisjoint _ hm _ (by simp) rfl
      have hright : c.rightOf (hw.nSym + i) ∉ c.firstChildren hw i :=
        fun hm => hdisjoint _ hm _ (by simp) rfl
      have hself : hw.nSym + i ∉ c.firstChildren hw i := by
        intro hm
        obtain ⟨j, hj, hx⟩ := Arch.mem_firstChildren.mp hm
        have := hlt j (by omega)
        omega
      have hne : c.leftOf (hw.nSym + i) ≠ c.rightOf (hw.nSym + i) := by simpa using hpair
      rw [walkDown_succ, codeOf_walkDown_of_not_mem _ hleft, codeOf_walkDown_of_not_mem _ hright,
        codeOf_walkDown_of_not_mem _ hself]
      simp [codeOf_cons, hne, Nat.ne_of_gt hl, Nat.ne_of_gt hr]

/-! ### The nodes of a good arena -/

namespace Arch.ArenaOk

section
variable {hw : Hardware} {c : Arch} (h : c.ArenaOk hw)
include h

/-- A tree whose root is a leaf has no other node (R155). -/
theorem eq_root_of_lone (hlone : c.root.toNat < hw.nSym) {x : Nat} (hx : c.IsNode hw x) :
    x = c.root.toNat := by
  have hone : (c.counted hw).length = 1 := by
    by_contra hne
    have htwo : 2 ≤ (c.counted hw).length := by
      have := h.leafCount.2
      omega
    have := h.lastRoot htwo
    omega
  rcases hx with hleaf | ⟨hlo, hhi⟩
  · have hmem := mem_counted.mpr hleaf
    rw [h.loneRoot hone] at hmem
    exact List.mem_singleton.mp hmem
  · omega

theorem isNode_le_root {x : Nat} (hx : c.IsNode hw x) : x ≤ c.root.toNat := by
  by_cases hlone : c.root.toNat < hw.nSym
  · exact (h.eq_root_of_lone hlone hx).le
  · rcases hx with ⟨hlt, -⟩ | ⟨-, hle⟩ <;> omega

theorem isNode_of_mem_childIds {x : Nat} (hx : x ∈ c.childIds hw) : c.IsNode hw x := by
  obtain ⟨n, hn, hlo, rfl | rfl⟩ := Arch.mem_childIds.mp hx
  · exact (h.children n hn hlo).1.2
  · exact (h.children n hn hlo).2.1.2

/-- No node is a child twice (R43 (d)). -/
theorem nodup_childIds : (c.childIds hw).Nodup := by
  rw [List.nodup_iff_count_le_one]
  intro x
  by_cases hx : x ∈ c.childIds hw
  · have hnode := h.isNode_of_mem_childIds hx
    by_cases hroot : x = c.root.toNat
    · rw [hroot, h.rootNoChild]
      exact Nat.zero_le _
    · exact (h.oneParent x (h.isNode_le_root hnode) hnode hroot).le
  · rw [List.count_eq_zero_of_not_mem hx]
    exact Nat.zero_le _

/-- DERIVE reads off the tree its path codes (R170 to R172). -/
theorem pathCodes_treeCodes : c.PathCodes hw (codeOf (treeCodes hw c)) where
  loneLeaf := by
    intro hlone
    simp [treeCodes, hlone, codeOf_cons]
  root := by
    intro hroot
    have hcount : c.root.toNat - hw.nSym + 1 = c.root.toNat + 1 - hw.nSym := by omega
    have hnot : c.root.toNat ∉ c.childIds hw := List.count_eq_zero.mp h.rootNoChild
    rw [treeCodes, if_neg (by omega), hcount, codeOf_walkDown_of_not_mem _ hnot, codeOf_cons,
      if_pos rfl]
  edges := by
    intro n hn hlo
    have hcount : c.root.toNat - hw.nSym + 1 = c.root.toNat + 1 - hw.nSym := by omega
    obtain ⟨i, rfl⟩ := Nat.exists_eq_add_of_le hlo
    rw [treeCodes, if_neg (by omega), hcount]
    refine codeOf_walkDown_child _ ?_ h.nodup_childIds i (by omega)
    intro j hj
    obtain ⟨⟨hl, -⟩, ⟨hr, -⟩, -⟩ := h.children (hw.nSym + j) (by omega) (by omega)
    exact ⟨hl, hr⟩

end

/-! ### No leaf's path code begins another node's -/

section
variable {hw : Hardware} {c : Arch} {code : Nat → Bits} (h : c.ArenaOk hw)
  (hp : c.PathCodes hw code)
include h hp

/-- A node that is not the root has the code of its parent and the bit of its edge. -/
theorem exists_parent {x : Nat} (hx : c.IsNode hw x) (hroot : x ≠ c.root.toNat) :
    ∃ n b, hw.nSym ≤ n ∧ n ≤ c.root.toNat ∧ x = (if b then c.leftOf n else c.rightOf n) ∧
      code x = code n ++ [b] := by
  have hone := h.oneParent x (h.isNode_le_root hx) hx hroot
  have hmem : x ∈ c.childIds hw := List.count_pos_iff.mp (by omega)
  obtain ⟨n, hn, hlo, rfl | rfl⟩ := Arch.mem_childIds.mp hmem
  · exact ⟨n, true, hlo, hn, rfl, (hp.edges n hn hlo).1⟩
  · exact ⟨n, false, hlo, hn, rfl, (hp.edges n hn hlo).2⟩

/-- Different nodes have different codes: by the length of the code, since nodes of one code that
are not the root are the same child of parents of one code. -/
theorem eq_of_code_eq {x y : Nat} (hx : c.IsNode hw x) (hy : c.IsNode hw y)
    (hxy : code x = code y) : x = y := by
  by_cases hlone : c.root.toNat < hw.nSym
  · rw [h.eq_root_of_lone hlone hx, h.eq_root_of_lone hlone hy]
  have hroot := hp.root (by omega)
  generalize hq : code y = q at hxy
  induction q using List.reverseRecOn generalizing x y with
  | nil =>
    have (z : Nat) (hz : c.IsNode hw z) (he : code z = []) : z = c.root.toNat := by
      by_contra hne
      obtain ⟨n, b, -, -, -, hcode⟩ := h.exists_parent hp hz hne
      simp [he] at hcode
    rw [this x hx hxy, this y hy hq]
  | append_singleton q b ih =>
    have (z : Nat) (hz : c.IsNode hw z) (he : code z = q ++ [b]) :
        ∃ n, c.IsNode hw n ∧ code n = q ∧ z = (if b then c.leftOf n else c.rightOf n) := by
      have hne : z ≠ c.root.toNat := by
        rintro rfl
        simp [hroot] at he
      obtain ⟨n, b', hlo, hn, hchild, hcode⟩ := h.exists_parent hp hz hne
      obtain ⟨hparent, hbit⟩ := List.append_inj' (hcode.symm.trans he) rfl
      obtain rfl : b' = b := by simpa using hbit
      exact ⟨n, .inr ⟨hlo, hn⟩, hparent, hchild⟩
    obtain ⟨m, hm, hmcode, hxm⟩ := this x hx hxy
    obtain ⟨n, hn, hncode, hyn⟩ := this y hy hq
    rw [hxm, hyn, ih hm hn hncode hmcode]

/-- A leaf's code begins no other node's code: by the length of that code, since what begins it
without being all of it begins the parent's, and the leaf is not the parent. -/
theorem eq_of_leaf_prefix {x y : Nat} (hx : x ∈ c.counted hw) (hy : c.IsNode hw y)
    (hpre : code x <+: code y) : x = y := by
  have hleaf := mem_counted.mp hx
  by_cases hlone : c.root.toNat < hw.nSym
  · rw [h.eq_root_of_lone hlone (.inl hleaf), h.eq_root_of_lone hlone hy]
  have hroot := hp.root (by omega)
  generalize hq : code y = q at hpre
  induction q using List.reverseRecOn generalizing y with
  | nil => exact h.eq_of_code_eq hp (.inl hleaf) hy (by rw [hq, List.prefix_nil.mp hpre])
  | append_singleton q b ih =>
    rcases List.prefix_concat_iff.mp hpre with heq | hpre
    · exact h.eq_of_code_eq hp (.inl hleaf) hy (by rw [heq, hq])
    · have hne : y ≠ c.root.toNat := by
        rintro rfl
        simp [hroot] at hq
      obtain ⟨n, b', hlo, hn, -, hcode⟩ := h.exists_parent hp hy hne
      have hparent : code n = q := (List.append_inj' (hcode.symm.trans hq) rfl).1
      have := ih (.inr ⟨hlo, hn⟩) hparent hpre
      omega

theorem code_ne_nil {x : Nat} (hx : x ∈ c.counted hw) : code x ≠ [] := by
  have hleaf := mem_counted.mp hx
  by_cases hlone : c.root.toNat < hw.nSym
  · rw [h.eq_root_of_lone hlone (.inl hleaf), hp.loneLeaf hlone]
    exact List.cons_ne_nil _ _
  · obtain ⟨n, b, -, -, -, hcode⟩ := h.exists_parent hp (.inl hleaf) (by omega)
    simp [hcode]

end

end Arch.ArenaOk

end Sys2Proof.Machine
end

section
/-! A successful DERIVE or CTCHK establishes CTOK (spec/10_state.md R42; spec/43_code_table.md R174,
R176), and every step keeps it while CT_VALID is 1. -/

namespace Sys2Proof.Machine

/-! ### DERIVE establishes CTOK -/

theorem read_tableColumn (m : Memory) (hw : Hardware) (c : Arch) (codes : Codes) (f : Bits → Nat)
    {s : Nat} (h : s < hw.nSym) : (m.writeBlock 0 (tableColumn hw c codes f)).read s =
      if 0 < (c.nodeW.read s).toNat then BitVec.ofNat 32 (f (codeOf codes s)) else 0#32 := by
  rw [Memory.read_writeBlock, length_tableColumn, if_pos (by omega)]
  simp [tableColumn, h]

theorem Arch.ArenaOk.mem_treeLeaves {hw : Hardware} {c : Arch} (h : c.ArenaOk hw) {s : Nat} :
    s ∈ treeLeaves hw c ↔ s ∈ c.counted hw := by
  rw [mem_counted]
  simp only [treeLeaves, List.mem_filter, List.mem_range, decide_eq_true_eq]
  exact and_congr_right fun hs => by rw [h.leafWeights s hs]

section
variable {hw : Hardware} {c d : Arch} (harena : c.ArenaOk hw) (h : deriveStage hw c = .done d)
include harena h

/-- A leaf's entries are the length and the value of its code, which fit (R170, R173). -/
theorem deriveStage_leaf {s : Nat} (hs : s ∈ c.counted hw) :
    (d.ctLen.read s).toNat = (codeOf (treeCodes hw c) s).length ∧
    (d.ctCode.read s).toNat = bitsVal (codeOf (treeCodes hw c) s) ∧
    (codeOf (treeCodes hw c) s).length ≤ hw.maxlen := by
  obtain ⟨-, hdepth, rfl⟩ := deriveStage_done h
  obtain ⟨-, -, -, -, -, hmax, -⟩ := hw.ok
  obtain ⟨hsym, hpos⟩ := mem_counted.mp hs
  rw [← harena.leafWeights s hsym] at hpos
  have hlen := hdepth s (harena.mem_treeLeaves.mpr hs)
  have hval : bitsVal (codeOf (treeCodes hw c) s) < 2 ^ 32 :=
    lt_of_lt_of_le (bitsVal_lt _) (Nat.pow_le_pow_right (by decide) (by omega))
  simp only [read_tableColumn _ _ _ _ _ hsym, if_pos hpos]
  exact ⟨toNat_ofNat_of_lt (by omega), toNat_ofNat_of_lt hval, hlen⟩

/-- Every other symbol's entries are 0 (R170). -/
theorem deriveStage_absent {s : Nat} (hsym : s < hw.nSym) (hs : s ∉ c.counted hw) :
    d.ctLen.read s = 0#32 ∧ d.ctCode.read s = 0#32 := by
  obtain ⟨-, -, rfl⟩ := deriveStage_done h
  have hzero : ¬ 0 < (c.nodeW.read s).toNat := by
    rw [harena.leafWeights s hsym]
    exact fun hpos => hs (mem_counted.mpr ⟨hsym, hpos⟩)
  constructor <;> rw [read_tableColumn _ _ _ _ _ hsym, if_neg hzero]

theorem deriveStage_codeword {s : Nat} (hs : s ∈ c.counted hw) :
    d.codeword s = codeOf (treeCodes hw c) s := by
  obtain ⟨hlen, hval, -⟩ := deriveStage_leaf harena h hs
  rw [Arch.codeword, hlen, hval, bitsSeq_bitsVal]

/-- The leaves are the symbols with a codeword (R174). -/
theorem deriveStage_present {s : Nat} (hsym : s < hw.nSym) :
    0 < (d.ctLen.read s).toNat ↔ s ∈ c.counted hw := by
  by_cases hs : s ∈ c.counted hw
  · have hne := harena.code_ne_nil harena.pathCodes_treeCodes hs
    simpa [hs, (deriveStage_leaf harena h hs).1, List.length_pos_iff] using hne
  · simp [hs, (deriveStage_absent harena h hsym hs).1]

/-- A successful DERIVE on a good arena leaves a table that meets CTOK (R174). -/
theorem deriveStage_ctOk : d.CtOk hw where
  lengths := by
    intro s hsym
    by_cases hs : s ∈ c.counted hw
    · obtain ⟨hlen, -, hmax⟩ := deriveStage_leaf harena h hs
      omega
    · simp [(deriveStage_absent harena h hsym hs).1]
  codes := by
    intro s hsym
    by_cases hs : s ∈ c.counted hw
    · obtain ⟨hlen, hval, -⟩ := deriveStage_leaf harena h hs
      rw [hlen, hval]
      exact bitsVal_lt _
    · simp [deriveStage_absent harena h hsym hs]
  nonempty := by
    obtain ⟨s, hs⟩ := List.exists_mem_of_length_pos harena.leafCount.2
    obtain ⟨hsym, -⟩ := mem_counted.mp hs
    exact ⟨s, hsym, (deriveStage_present harena h hsym).mpr hs⟩
  prefixFree := by
    intro s hs t ht hne hspos htpos hpre
    have hs := (deriveStage_present harena h hs).mp hspos
    have ht := (deriveStage_present harena h ht).mp htpos
    rw [deriveStage_codeword harena h hs, deriveStage_codeword harena h ht] at hpre
    exact hne (harena.eq_of_leaf_prefix harena.pathCodes_treeCodes hs (.inl (mem_counted.mp ht))
      hpre)

end

/-! ### CTCHK establishes CTOK -/

theorem mem_coded {hw : Hardware} {c : Arch} {s : Nat} :
    s ∈ c.coded hw ↔ s < hw.nSym ∧ 0 < (c.ctLen.read s).toNat := by
  simp [Arch.coded]

/-- Where CTCHK finds no clash, no codeword begins another (R176). -/
theorem not_prefix_of_prefixPair_none {hw : Hardware} {c : Arch} (h : prefixPair hw c = none)
    {s t : Nat} (hs : s ∈ c.coded hw) (ht : t ∈ c.coded hw) (hne : s ≠ t) :
    ¬ c.codeword s <+: c.codeword t := by
  have hvictim : prefixVictim hw c s = none := by
    simpa using List.findSome?_eq_none_iff.mp h s hs
  simpa [Ne.symm hne] using List.find?_eq_none.mp hvictim t ht

theorem ctchkStage_ctOk {hw : Hardware} {c d : Arch} (h : ctchkStage hw c = .done d) :
    d.CtOk hw := by
  obtain ⟨hform, hne, hpair, rfl⟩ := ctchkStage_done h
  have hwell : ∀ s < hw.nSym, (c.ctLen.read s).toNat ≤ hw.maxlen ∧
      (c.ctCode.read s).toNat < 2 ^ (c.ctLen.read s).toNat := by
    intro s hs
    simpa [entryMalformed] using List.find?_eq_none.mp hform s (List.mem_range.mpr hs)
  obtain ⟨s, hs⟩ := List.exists_mem_of_ne_nil _ hne
  exact {
    lengths := fun s hs => (hwell s hs).1
    codes := fun s hs => (hwell s hs).2
    nonempty := ⟨s, mem_coded.mp hs⟩
    prefixFree := fun s hs t ht hne hspos htpos =>
      not_prefix_of_prefixPair_none hpair (mem_coded.mpr ⟨hs, hspos⟩) (mem_coded.mpr ⟨ht, htpos⟩)
        hne }

/-! ### Every change keeps CTOK -/

/-- R42: "STATUS.CT_VALID = 1 implies CTOK". -/
def Arch.TableInv (hw : Hardware) (c : Arch) : Prop := c.ctValid = true → c.CtOk hw

theorem hostWrite_tableInv {hw : Hardware} {c d : Arch} {a : Addr} {v : Word}
    (h : hostWrite hw c a v = some d) (hc : c.TableInv hw) : d.TableInv hw := by
  have ho := hostWrite_outcome hw c a v
  rw [h] at ho
  cases ho with
  | ctLen | ctCode => exact nofun
  | textLen | bitLen | text | bits | freq => exact fun hv => { hc hv with }

theorem Arch.Change.tableInv {hw : Hardware} {c d : Arch} (h : c.Change hw d)
    (harena : c.ArenaInv hw) (hc : c.TableInv hw) : d.TableInv hw := by
  cases h with
  | record e info => exact fun hv => { hc hv with }
  | reset => exact nofun
  | write h => exact hostWrite_tableInv h hc
  | freq h =>
    obtain ⟨-, rfl⟩ := freqStage_done h
    exact fun hv => { hc hv with }
  | tree h =>
    obtain ⟨_, _, -, -, -, rfl⟩ := treeStage_done h
    exact fun hv => { hc hv with }
  | derive h => exact fun _ => deriveStage_ctOk (harena (deriveStage_done h).1) h
  | encode h =>
    obtain ⟨-, rfl⟩ := encodeStage_done h
    exact fun hv => { hc hv with }
  | decode h =>
    obtain ⟨-, rfl⟩ := decodeStage_done h
    exact fun hv => { hc hv with }
  | ctclr h =>
    obtain rfl := ctclrStage_done h
    exact nofun
  | ctchk h => exact fun _ => ctchkStage_ctOk h

end Sys2Proof.Machine

open Sys2Proof Sys2Proof.Machine

/-- Settles O59: every elementary change keeps CTOK, DERIVE by the arena invariant that the changes
before it have kept. -/
theorem stepKeepsTableInvariant : Obligations.StepKeepsTableInvariant := by
  intro s t hinv h
  obtain ⟨hhw, hchanges⟩ := step_changes h
  rw [hhw]
  exact (hchanges.keep
    (P := fun c => c.MemoriesOk s.hw ∧ c.ArenaInv s.hw ∧ c.TableInv s.hw)
    (fun _ _ hchange ⟨hmem, harena, htable⟩ => ⟨hchange.memoriesOk hmem,
      hchange.arenaInv hmem harena, hchange.tableInv harena htable⟩)
    ⟨hinv.memories, hinv.arena, hinv.table⟩).2.2
end

section
/-! The control registers as read, and their values after reset (spec/10_state.md R22 to
R32, R44). -/

namespace Sys2Proof.Machine

/-! ### Addresses in numbers -/

theorem region_eq (a : Addr) : region a = a.toNat / 2 ^ 16 := by
  have := a.isLt
  rw [region, BitVec.extractLsb'_toNat, Nat.shiftRight_eq_div_pow]
  omega

theorem offset_eq (a : Addr) : offset a = a.toNat % 2 ^ 16 := by
  rw [offset, BitVec.extractLsb'_toNat, Nat.shiftRight_zero]

/-! ### What a read of region 0 finds -/

/-- A read of a control register is told what the table of R22 gives at its offset. -/
theorem exec_rd_register {off : Nat} (hoff : off < 2 ^ 16) {s : State} {w : Word}
    (h : readRegister s.hw s.arch off = some w) :
    exec (.rd (BitVec.ofNat 20 off)) s = .next (s.told w) := by
  have hlt : off % 2 ^ 20 = off := Nat.mod_eq_of_lt (by omega)
  have hregion : region (BitVec.ofNat 20 off) = 0 := by
    rw [region_eq, BitVec.toNat_ofNat, hlt]
    omega
  have hoffset : offset (BitVec.ofNat 20 off) = off := by
    rw [offset_eq, BitVec.toNat_ofNat, hlt, Nat.mod_eq_of_lt hoff]
  have hfound : hostRead s.hw s.arch (BitVec.ofNat 20 off) = some w := by
    rw [hostRead, hregion, hoffset]
    exact h
  rw [exec_rd, hfound]
  rfl

/-- A write outside CMD that stores nothing is turned away. -/
theorem exec_wr_turnedAway {a : Addr} {v : Word} {s : State} (ha : a ≠ cmdAddr)
    (h : hostWrite s.hw s.arch a v = none) : exec (.wr a v) s = .next s.turnedAway := by
  rw [exec_wr_of_ne ha, State.write, h]
  rfl

/-! ### CFG and STATUS in numbers -/

theorem cfgWord_eq (hw : Hardware) :
    cfgWord hw = BitVec.ofNat 32 (hw.symw + hw.maxlen * 32 + hw.cntw * 2048) := by
  simp [cfgWord, Nat.shiftLeft_eq]

/-- The three parameters fit their fields of CFG (R6, R32). -/
theorem toNat_cfgWord (hw : Hardware) :
    (cfgWord hw).toNat = hw.symw + hw.maxlen * 32 + hw.cntw * 2048 := by
  obtain ⟨_, _, _, _, _, _, -⟩ := hw.ok
  rw [cfgWord_eq, toNat_ofNat_of_lt (by omega)]

theorem toNat_append_eq_add {m n : Nat} (x : BitVec m) (y : BitVec n) :
    (x ++ y).toNat = x.toNat * 2 ^ n + y.toNat := by
  rw [BitVec.toNat_append, ← Nat.shiftLeft_add_eq_or_of_lt y.isLt, Nat.shiftLeft_eq]

theorem toNat_statusWord (c : Arch) : c.statusWord.toNat =
    c.err.code.toNat * 256 + c.treeValid.toNat * 4 + c.ctValid.toNat * 2 := by
  simp only [Arch.statusWord, toNat_append_eq_add, BitVec.toNat_ofBool, BitVec.toNat_ofNat]
  omega

/-- A bit field of a word, as a number. -/
theorem toNat_field (w : Word) (start len : Nat) :
    (w.extractLsb' start len).toNat = w.toNat / 2 ^ start % 2 ^ len := by
  rw [BitVec.extractLsb'_toNat, Nat.shiftRight_eq_div_pow]

/-- A flag stands in bit `i` when the word, as a number, has the flag's number there. -/
theorem getLsbD_eq_of_toNat (w : Word) (i : Nat) {b : Bool} (h : w.toNat / 2 ^ i % 2 = b.toNat) :
    w.getLsbD i = b := by
  rw [← BitVec.testBit_toNat, Nat.testBit_eq_decide_div_mod_eq, h]
  cases b <;> rfl

/-! ### The three ways to the reset state -/

/-- RESET records success in the reset state, which holds that already (R44, R232). -/
theorem resetStage_commit (hw : Hardware) (c : Arch) : (resetStage hw c).commit = Arch.reset := rfl

theorem step_of_hardwareReset {s : State} {rest : List Input}
    (h : s.requests = .hardwareReset :: rest) :
    step s = .next { s with arch := Arch.reset, requests := rest } := by
  obtain ⟨h', -⟩ | ⟨r, h', hstep⟩ | ⟨t, r, h', -⟩ := step_cases s
  · simp [h] at h'
  · obtain rfl : rest = r := by simpa [h] using h'
    exact hstep
  · simp [h] at h'

/-- The RESET command, the reset event and the start of a run leave the same state (R44). -/
theorem arch_after_reset {s u : State}
    (h : exec .reset s = .next u ∨ (s.requests.head? = some .hardwareReset ∧ step s = .next u) ∨
      u = State.resetOf s.hw) : u.hw = s.hw ∧ u.arch = Arch.reset := by
  obtain h | ⟨hhead, h⟩ | rfl := h
  · rw [exec_reset, resetStage_commit] at h
    cases h
    exact ⟨rfl, rfl⟩
  · obtain ⟨rest, hrest⟩ := List.head?_eq_some_iff.mp hhead
    rw [step_of_hardwareReset hrest] at h
    cases h
    exact ⟨rfl, rfl⟩
  · exact ⟨rfl, rfl⟩

end Sys2Proof.Machine

open Sys2Proof Sys2Proof.Machine

/-- Settles O10: all three leave `Arch.reset`, whose fields and memories are 0. -/
theorem resetStateValues : Obligations.ResetStateValues := by
  intro s u h
  obtain ⟨hhw, harch⟩ := arch_after_reset h
  have hstatus : u.arch.statusWord = 0#32 := by
    rw [harch]
    decide
  rw [← hhw]
  refine ⟨rfl, ?_, ?_, ⟨?_, ?_, ?_, ?_, ?_⟩, ?_⟩
  · rw [harch]
    exact ⟨rfl, rfl, rfl⟩
  · rw [harch]
    exact ⟨rfl, rfl, rfl, rfl, rfl, rfl⟩
  · exact exec_rd_register (off := 1) (by decide) (congrArg some hstatus)
  · exact exec_rd_register (off := 8) (by decide) rfl
  · exact exec_rd_register (off := 9) (by decide) (congrArg some (cfgWord_eq u.hw))
  · exact exec_rd_register (off := 10) (by decide) rfl
  · exact exec_rd_register (off := 11) (by decide) rfl
  · rw [harch]
    exact fun _ => ⟨rfl, rfl, rfl, rfl, rfl, rfl, rfl⟩

/-- Settles O12, register by register. -/
theorem registerReads : Obligations.RegisterReads := by
  intro s
  exact ⟨exec_rd_register (off := 0) (by decide) rfl,
    exec_rd_register (off := 1) (by decide) rfl,
    exec_rd_register (off := 2) (by decide) rfl,
    exec_rd_register (off := 3) (by decide) rfl,
    exec_rd_register (off := 4) (by decide) rfl,
    exec_rd_register (off := 5) (by decide) rfl,
    exec_rd_register (off := 6) (by decide) rfl,
    exec_rd_register (off := 7) (by decide) rfl,
    exec_rd_register (off := 8) (by decide) rfl,
    exec_rd_register (off := 9) (by decide) (congrArg some (cfgWord_eq s.hw)),
    exec_rd_register (off := 10) (by decide) rfl,
    exec_rd_register (off := 11) (by decide) rfl⟩

/-- Settles O13: each field is read off STATUS as a number. -/
theorem statusFields : Obligations.StatusFields := by
  intro s
  have hword := toNat_statusWord s.arch
  have hcode := s.arch.err.code.isLt
  have htree := s.arch.treeValid.toNat_lt
  have hct := s.arch.ctValid.toNat_lt
  have herr : s.arch.statusWord.extractLsb' 8 4 = s.arch.err.code := by
    apply BitVec.eq_of_toNat_eq
    rw [toNat_field]
    omega
  refine ⟨s.arch.statusWord, exec_rd_register (off := 1) (by decide) rfl,
    getLsbD_eq_of_toNat _ _ ?_, getLsbD_eq_of_toNat _ _ ?_, getLsbD_eq_of_toNat _ _ ?_, ?_, ?_, ?_⟩
  · rw [Bool.toNat_false]
    omega
  · omega
  · omega
  · apply BitVec.eq_of_toNat_eq
    rw [toNat_field, BitVec.toNat_ofNat]
    omega
  · apply BitVec.eq_of_toNat_eq
    rw [toNat_field, BitVec.toNat_ofNat]
    omega
  · rw [herr]
    cases s.arch.err <;> rfl

/-- Settles O14: each parameter fits its field, and a write to these registers stores nothing. -/
theorem configurationFields : Obligations.ConfigurationFields := by
  refine ⟨fun s => ?_, fun s hs => ?_, fun s v => ?_⟩
  · obtain ⟨_, _, _, _, _, _, _, _, _, _, _⟩ := s.hw.ok
    have hcfg := toNat_cfgWord s.hw
    refine ⟨cfgWord s.hw, BitVec.ofNat 32 s.hw.textCap, BitVec.ofNat 32 s.hw.bitsCap,
      exec_rd_register (off := 9) (by decide) rfl, ?_, ?_, ?_, ?_,
      exec_rd_register (off := 10) (by decide) rfl, toNat_ofNat_of_lt (by omega),
      exec_rd_register (off := 11) (by decide) rfl, toNat_ofNat_of_lt (by omega)⟩
    · rw [toNat_field]
      omega
    · rw [toNat_field]
      omega
    · rw [toNat_field]
      omega
    · apply BitVec.eq_of_toNat_eq
      rw [toNat_field, BitVec.toNat_ofNat]
      omega
  · exact exec_rd_register (off := 9) (by decide) (by rw [hs]; rfl)
  · exact ⟨exec_wr_turnedAway (by decide) rfl, exec_wr_turnedAway (by decide) rfl,
      exec_wr_turnedAway (by decide) rfl⟩
end

section
/-! The events that set and clear the two validity flags (spec/10_state.md R40, R41). -/

namespace Sys2Proof.Machine

/-! ### The flags after a successful stage -/

theorem freqStage_flags {hw : Hardware} {c d : Arch} (h : freqStage hw c = .done d) :
    d.ctValid = c.ctValid ∧ d.treeValid = false := by
  obtain ⟨-, rfl⟩ := freqStage_done h
  exact ⟨rfl, rfl⟩

theorem treeStage_flags {hw : Hardware} {c d : Arch} (h : treeStage hw c = .done d) :
    d.ctValid = c.ctValid ∧ d.treeValid = true := by
  obtain ⟨_, _, -, -, -, rfl⟩ := treeStage_done h
  exact ⟨rfl, rfl⟩

theorem deriveStage_flags {hw : Hardware} {c d : Arch} (h : deriveStage hw c = .done d) :
    d.ctValid = true ∧ d.treeValid = c.treeValid := by
  obtain ⟨-, -, rfl⟩ := deriveStage_done h
  exact ⟨rfl, rfl⟩

theorem encodeStage_flags {hw : Hardware} {c d : Arch} (h : encodeStage hw c = .done d) :
    d.ctValid = c.ctValid ∧ d.treeValid = c.treeValid := by
  obtain ⟨-, rfl⟩ := encodeStage_done h
  exact ⟨rfl, rfl⟩

theorem decodeStage_flags {hw : Hardware} {c d : Arch} (h : decodeStage hw c = .done d) :
    d.ctValid = c.ctValid ∧ d.treeValid = c.treeValid := by
  obtain ⟨-, rfl⟩ := decodeStage_done h
  exact ⟨rfl, rfl⟩

theorem ctchkStage_flags {hw : Hardware} {c d : Arch} (h : ctchkStage hw c = .done d) :
    d.ctValid = true ∧ d.treeValid = c.treeValid := by
  obtain ⟨-, -, -, rfl⟩ := ctchkStage_done h
  exact ⟨rfl, rfl⟩

/-! ### The flags after a command -/

section
variable {stage : Hardware → Arch → Result} (hs : RaisesPrecisely stage) {hw : Hardware} {c : Arch}
  {b : Bool}
include hs

/-- A command that sets CT_VALID to `b` on success leaves it alone on an error. -/
theorem RaisesPrecisely.commit_ctValid (hdone : ∀ {d}, stage hw c = .done d → d.ctValid = b) :
    (stage hw c).commit.ctValid = if (stage hw c).commit.err = .ok then b else c.ctValid := by
  obtain ⟨d, hd, h⟩ | ⟨e, info, he, h⟩ := hs.commit_cases hw c
  · simp [h, hdone hd]
  · simp [h, he]

/-- A command that sets TREE_VALID to `b` on success leaves it alone on an error. -/
theorem RaisesPrecisely.commit_treeValid (hdone : ∀ {d}, stage hw c = .done d → d.treeValid = b) :
    (stage hw c).commit.treeValid = if (stage hw c).commit.err = .ok then b else c.treeValid := by
  obtain ⟨d, hd, h⟩ | ⟨e, info, he, h⟩ := hs.commit_cases hw c
  · simp [h, hdone hd]
  · simp [h, he]

/-- A command that leaves CT_VALID alone on success leaves it alone. -/
theorem RaisesPrecisely.commit_keeps_ctValid
    (hdone : ∀ {d}, stage hw c = .done d → d.ctValid = c.ctValid) :
    (stage hw c).commit.ctValid = c.ctValid := by
  rw [hs.commit_ctValid hdone, ite_self]

/-- A command that leaves TREE_VALID alone on success leaves it alone. -/
theorem RaisesPrecisely.commit_keeps_treeValid
    (hdone : ∀ {d}, stage hw c = .done d → d.treeValid = c.treeValid) :
    (stage hw c).commit.treeValid = c.treeValid := by
  rw [hs.commit_treeValid hdone, ite_self]

end

/-! ### BUILD -/

theorem freqStage_raised {hw : Hardware} {c d : Arch} {e : ErrCode} {info : Word}
    (h : freqStage hw c = .raised e info d) : e = .length ∧ d = c := by
  obtain ⟨-, h'⟩ | ⟨-, h'⟩ := freqStage_cases hw c <;> rw [h'] at h <;> cases h
  exact ⟨rfl, rfl⟩

theorem treeStage_raised {hw : Hardware} {c d : Arch} {e : ErrCode} {info : Word}
    (h : treeStage hw c = .raised e info d) : e = .empty ∧ d = c := by
  obtain ⟨-, h'⟩ | ⟨_, _, -, -, -, h'⟩ := treeStage_cases hw c <;> rw [h'] at h <;> cases h
  exact ⟨rfl, rfl⟩

/-- With a tree, DERIVE can fail by a path that is too long only (R173). -/
theorem deriveStage_raised {hw : Hardware} {c d : Arch} {e : ErrCode} {info : Word}
    (htree : c.treeValid = true) (h : deriveStage hw c = .raised e info d) :
    e = .depth ∧ d = c := by
  obtain ⟨hno, -⟩ | ⟨_, -, -, h'⟩ | ⟨-, -, h'⟩ := deriveStage_cases hw c
  · exact absurd htree (by simp [hno])
  all_goals
    rw [h'] at h
    cases h
  exact ⟨rfl, rfl⟩

/-- How BUILD ends, by the stage that ends it (R190, R191), and the flags it then leaves. -/
theorem buildStage_ends (hw : Hardware) (c : Arch) :
    (∃ info, buildStage hw c = .raised .length info c) ∨
    (∃ info d, buildStage hw c = .raised .empty info d ∧ d.ctValid = c.ctValid ∧
      d.treeValid = false) ∨
    (∃ info d, buildStage hw c = .raised .depth info d ∧ d.ctValid = c.ctValid ∧
      d.treeValid = true) ∨
    (∃ d, buildStage hw c = .done d ∧ d.ctValid = true ∧ d.treeValid = true) := by
  rw [buildStage]
  cases hf : freqStage hw c with
  | raised e info d =>
    obtain ⟨rfl, rfl⟩ := freqStage_raised hf
    exact .inl ⟨info, rfl⟩
  | done c₁ =>
    obtain ⟨hct₁, htree₁⟩ := freqStage_flags hf
    rw [Result.andThen_done]
    cases ht : treeStage hw c₁ with
    | raised e info d =>
      obtain ⟨rfl, rfl⟩ := treeStage_raised ht
      exact .inr (.inl ⟨info, d, rfl, hct₁, htree₁⟩)
    | done c₂ =>
      obtain ⟨hct₂, htree₂⟩ := treeStage_flags ht
      rw [Result.andThen_done]
      cases hd : deriveStage hw c₂ with
      | raised e info d =>
        obtain ⟨rfl, rfl⟩ := deriveStage_raised htree₂ hd
        exact .inr (.inr (.inl ⟨info, d, rfl, hct₂.trans hct₁, htree₂⟩))
      | done c₃ =>
        obtain ⟨hct₃, htree₃⟩ := deriveStage_flags hd
        exact .inr (.inr (.inr ⟨c₃, rfl, hct₃, htree₃.trans htree₂⟩))

/-- CT_VALID after BUILD (R40). -/
theorem buildStage_commit_ctValid (hw : Hardware) (c : Arch) : (buildStage hw c).commit.ctValid =
    if (buildStage hw c).commit.err = .ok then true else c.ctValid := by
  obtain ⟨_, h⟩ | ⟨_, _, h, hct, -⟩ | ⟨_, _, h, hct, -⟩ | ⟨_, h, hct, -⟩ := buildStage_ends hw c
  · simp [h]
  · simp [h, hct]
  · simp [h, hct]
  · simp [h, hct]

/-- TREE_VALID after BUILD (R41). -/
theorem buildStage_commit_treeValid (hw : Hardware) (c : Arch) :
    (buildStage hw c).commit.treeValid =
      if (buildStage hw c).commit.err = .ok ∨ (buildStage hw c).commit.err = .depth then true
      else if (buildStage hw c).commit.err = .empty then false else c.treeValid := by
  obtain ⟨_, h⟩ | ⟨_, _, h, -, htree⟩ | ⟨_, _, h, -, htree⟩ | ⟨_, h, -, htree⟩ :=
    buildStage_ends hw c
  · simp [h]
  · simp [h, htree]
  · simp [h, htree]
  · simp [h, htree]

/-! ### The flags after a write -/

/-- The addresses of the first `n` words of region `r`, by numbers (R62). -/
theorem mem_region_iff {a : Addr} {base r n : Nat} (hbase : base = r * 2 ^ 16) (hn : n ≤ 2 ^ 16) :
    (base ≤ a.toNat ∧ a.toNat < base + n) ↔ region a = r ∧ offset a < n := by
  rw [region_eq, offset_eq]
  omega

theorem State.write_arch (s : State) (a : Addr) (v : Word) :
    (s.write a v).arch = (hostWrite s.hw s.arch a v).getD s.arch := by
  obtain ⟨c, hc, h⟩ | ⟨hn, h⟩ := s.write_cases a v
  · rw [h, hc]
    rfl
  · rw [h, hn]
    rfl

/-- An accepted write to CT_LEN or CT_CODE clears CT_VALID, any other write leaves it (R40). -/
theorem State.write_ctValid (s : State) (a : Addr) (v : Word) : (s.write a v).arch.ctValid =
    if (0x40000 ≤ a.toNat ∧ a.toNat < 0x40000 + s.hw.nSym) ∨
      (0x50000 ≤ a.toNat ∧ a.toNat < 0x50000 + s.hw.nSym) then false else s.arch.ctValid := by
  have hsize : s.hw.nSym ≤ 2 ^ 16 := s.hw.nSym_le.trans (by decide)
  simp only [mem_region_iff (base := 0x40000) (r := 4) rfl hsize,
    mem_region_iff (base := 0x50000) (r := 5) rfl hsize, s.write_arch]
  have ho := hostWrite_outcome s.hw s.arch a v
  generalize hostWrite s.hw s.arch a v = o at ho
  cases ho with
  | textLen hr | bitLen hr | text hr | bits hr | freq hr => simp [hr]
  | ctLen hr ho | ctCode hr ho => simp [hr, ho]
  | refused _ _ _ htable =>
    rw [if_neg]
    · rfl
    · rintro (⟨hr, hlt⟩ | ⟨hr, hlt⟩) <;> have := htable (by omega) (by omega) <;> omega

/-- An accepted write to FREQ clears TREE_VALID, any other write leaves it (R41). -/
theorem State.write_treeValid (s : State) (a : Addr) (v : Word) : (s.write a v).arch.treeValid =
    if 0x30000 ≤ a.toNat ∧ a.toNat < 0x30000 + s.hw.nSym then false else s.arch.treeValid := by
  have hsize : s.hw.nSym ≤ 2 ^ 16 := s.hw.nSym_le.trans (by decide)
  simp only [mem_region_iff (base := 0x30000) (r := 3) rfl hsize, s.write_arch]
  have ho := hostWrite_outcome s.hw s.arch a v
  generalize hostWrite s.hw s.arch a v = o at ho
  cases ho with
  | textLen hr | bitLen hr | text hr | bits hr | ctLen hr | ctCode hr => simp [hr]
  | freq hr ho => simp [hr, ho]
  | refused _ _ _ htable =>
    rw [if_neg]
    · rfl
    · rintro ⟨hr, hlt⟩
      have := htable (by omega) (by omega)
      omega

/-! ### Illegal command words -/

/-- The command decoder accepts the ten words of R93 only. -/
theorem mem_commandWords_of_decodeCommand {w : Word} {i : Instr} (h : decodeCommand w = .ok i) :
    (w, i) ∈ commandWords := by
  unfold decodeCommand at h
  split at h
  next => cases h
  next hz =>
    have hnum := word_eq_of_fields w (by simpa using hz)
    have hw (n : Nat) (hn : (w.extractLsb' 0 8).toNat = n) : w = BitVec.ofNat 32 n := by
      rw [← hn, ← hnum, BitVec.ofNat_toNat, BitVec.setWidth_eq]
    split at h <;> cases h
    all_goals
      rename_i hn
      rw [hw _ hn]
      decide

/-- Every other word written to CMD runs no command (R94). -/
theorem exec_wr_illegal {s : State} {w : Word} (h : w ∉ commandWords.map Prod.fst) :
    exec (.wr 0x00000#20 w) s = .next (s.finished (s.arch.record .illCmd w)) := by
  rw [show (0x00000#20 : Addr) = cmdAddr from rfl, exec_wr_cmd, dispatchCommand]
  cases hd : decodeCommand w with
  | ok i => exact absurd (List.mem_map_of_mem (mem_commandWords_of_decodeCommand hd)) h
  | error r => rfl

/-! ### Commands that find no table or no tree -/

theorem exec_encode_of_noTable {s : State} (h : s.arch.ctValid = false) :
    exec .encode s = .next (s.finished { s.arch with err := .noTable, errInfo := 0#32 }) := by
  rw [exec_encode, encodeStage, h]
  rfl

theorem exec_decode_of_noTable {s : State} (h : s.arch.ctValid = false) :
    exec .decode s = .next (s.finished { s.arch with err := .noTable, errInfo := 0#32 }) := by
  rw [exec_decode, decodeStage, h]
  rfl

theorem exec_derive_of_noTree {s : State} (h : s.arch.treeValid = false) :
    exec .derive s = .next (s.finished { s.arch with err := .noTree, errInfo := 0#32 }) := by
  rw [exec_derive, deriveStage, h]
  rfl

end Sys2Proof.Machine

open Sys2Proof Sys2Proof.Machine

/-- Settles O21, instruction by instruction. -/
theorem ctValidEvents : Obligations.CtValidEvents := by
  refine ⟨fun s t i hi h => ?_, fun s w hw => ⟨_, exec_wr_illegal hw, rfl⟩,
    fun s rest h => ⟨_, step_of_hardwareReset h, rfl⟩,
    fun s h => ⟨exec_encode_of_noTable h, exec_decode_of_noTable h⟩⟩
  cases i with
  | nop => cases h; rfl
  | freq =>
    cases h
    exact freqStage_raisesPrecisely.commit_keeps_ctValid fun hd => (freqStage_flags hd).1
  | tree =>
    cases h
    exact treeStage_raisesPrecisely.commit_keeps_ctValid fun hd => (treeStage_flags hd).1
  | derive =>
    cases h
    exact deriveStage_raisesPrecisely.commit_ctValid fun hd => (deriveStage_flags hd).1
  | build =>
    cases h
    exact buildStage_commit_ctValid s.hw s.arch
  | encode =>
    cases h
    exact encodeStage_raisesPrecisely.commit_keeps_ctValid fun hd => (encodeStage_flags hd).1
  | decode =>
    cases h
    exact decodeStage_raisesPrecisely.commit_keeps_ctValid fun hd => (decodeStage_flags hd).1
  | ctclr => cases h; rfl
  | ctchk =>
    cases h
    exact ctchkStage_raisesPrecisely.commit_ctValid fun hd => (ctchkStage_flags hd).1
  | reset => cases h; rfl
  | rd a => cases h; rfl
  | wr a v =>
    have ha : a ≠ cmdAddr := fun ha => hi v (congrArg (Instr.wr · v) ha)
    rw [exec_wr_of_ne ha] at h
    cases h
    exact s.write_ctValid a v

/-- Settles O22, instruction by instruction. -/
theorem treeValidEvents : Obligations.TreeValidEvents := by
  refine ⟨fun s t i hi h => ?_, fun s w hw => ⟨_, exec_wr_illegal hw, rfl⟩,
    fun s rest h => ⟨_, step_of_hardwareReset h, rfl⟩, fun s h => exec_derive_of_noTree h⟩
  cases i with
  | nop => cases h; rfl
  | freq =>
    cases h
    exact freqStage_raisesPrecisely.commit_treeValid fun hd => (freqStage_flags hd).2
  | tree =>
    cases h
    exact treeStage_raisesPrecisely.commit_treeValid fun hd => (treeStage_flags hd).2
  | derive =>
    cases h
    exact deriveStage_raisesPrecisely.commit_keeps_treeValid fun hd => (deriveStage_flags hd).2
  | build =>
    cases h
    exact buildStage_commit_treeValid s.hw s.arch
  | encode =>
    cases h
    exact encodeStage_raisesPrecisely.commit_keeps_treeValid fun hd => (encodeStage_flags hd).2
  | decode =>
    cases h
    exact decodeStage_raisesPrecisely.commit_keeps_treeValid fun hd => (decodeStage_flags hd).2
  | ctclr => cases h; rfl
  | ctchk =>
    cases h
    exact ctchkStage_raisesPrecisely.commit_keeps_treeValid fun hd => (ctchkStage_flags hd).2
  | reset => cases h; rfl
  | rd a => cases h; rfl
  | wr a v =>
    have ha : a ≠ cmdAddr := fun ha => hi v (congrArg (Instr.wr · v) ha)
    rw [exec_wr_of_ne ha] at h
    cases h
    exact s.write_treeValid a v
end

section
/-! The memory regions of the host port: what a read of an entry finds, what a write to one stores,
and the read after the write (spec/20_memory.md R62, R63, R66, R68). -/

namespace Sys2Proof.Hardware

/-! ### The depths of the memories (R6, R33) -/

theorem textCap_le (hw : Hardware) : hw.textCap ≤ 2 ^ 16 := by
  obtain ⟨-, -, -, -, -, -, -, h, -⟩ := hw.ok
  exact h

theorem bitsCap_le (hw : Hardware) : hw.bitsCap ≤ 2 ^ 16 := by
  obtain ⟨-, -, -, -, -, -, -, -, -, -, h⟩ := hw.ok
  exact h

theorem arenaDepth_le (hw : Hardware) : hw.arenaDepth ≤ 2 ^ 16 := by
  have := hw.nSym_le
  rw [Params.arenaDepth]
  omega

end Sys2Proof.Hardware

namespace Sys2Proof.Machine

/-! ### The address of an entry -/

section
variable {base r i : Nat} (hbase : base = r * 2 ^ 16) (hr : r < 16) (hi : i < 2 ^ 16)
include hbase hr hi

theorem toNat_entryAddr : (entryAddr base i).toNat = r * 2 ^ 16 + i := by
  rw [entryAddr, BitVec.toNat_ofNat, hbase]
  exact Nat.mod_eq_of_lt (by omega)

theorem region_entryAddr : region (entryAddr base i) = r := by
  rw [region_eq, toNat_entryAddr hbase hr hi]
  omega

theorem offset_entryAddr : offset (entryAddr base i) = i := by
  rw [offset_eq, toNat_entryAddr hbase hr hi]
  omega

end

/-- CMD is in region 0. -/
theorem ne_cmdAddr_of_region {a : Addr} (h : region a ≠ 0) : a ≠ cmdAddr := by
  rintro rfl
  exact h rfl

/-! ### What each memory region holds -/

theorem readEntry_of_lt {m : Memory} {depth off : Nat} (h : off < depth) :
    readEntry m depth off = some (m.read off) := if_pos h

/-- The entry a write has just stored is read back. -/
theorem readEntry_write {m : Memory} {depth off : Nat} {v : Word} (h : off < depth) :
    readEntry (m.write off v) depth off = some v := by
  rw [readEntry_of_lt h, Memory.read_write_same]

section
variable {hw : Hardware} {c : Arch} {a : Addr} {v : Word}

theorem hostRead_text (hr : region a = 1) :
    hostRead hw c a = readEntry c.text hw.textCap (offset a) := by simp only [hostRead, hr]

theorem hostRead_bits (hr : region a = 2) :
    hostRead hw c a = readEntry c.bits hw.bitsCap (offset a) := by simp only [hostRead, hr]

theorem hostRead_freq (hr : region a = 3) :
    hostRead hw c a = readEntry c.freq hw.nSym (offset a) := by simp only [hostRead, hr]

theorem hostRead_ctLen (hr : region a = 4) :
    hostRead hw c a = readEntry c.ctLen hw.nSym (offset a) := by simp only [hostRead, hr]

theorem hostRead_ctCode (hr : region a = 5) :
    hostRead hw c a = readEntry c.ctCode hw.nSym (offset a) := by simp only [hostRead, hr]

theorem hostRead_nodeW (hr : region a = 6) :
    hostRead hw c a = readEntry c.nodeW hw.arenaDepth (offset a) := by simp only [hostRead, hr]

theorem hostRead_nodeLR (hr : region a = 7) :
    hostRead hw c a = readEntry c.nodeLR hw.arenaDepth (offset a) := by simp only [hostRead, hr]

/-! ### What a write to an entry stores -/

theorem hostWrite_text (hr : region a = 1) (ho : offset a < hw.textCap) :
    hostWrite hw c a v =
      some { c with text := c.text.write (offset a) (lowBits hw.symw v) } := by
  rw [hostWrite, hr]
  exact if_pos ho

theorem hostWrite_bits (hr : region a = 2) (ho : offset a < hw.bitsCap) :
    hostWrite hw c a v = some { c with bits := c.bits.write (offset a) (lowBits 8 v) } := by
  rw [hostWrite, hr]
  exact if_pos ho

theorem hostWrite_freq (hr : region a = 3) (ho : offset a < hw.nSym) :
    hostWrite hw c a v = some { c with
      freq := c.freq.write (offset a) (lowBits hw.cntw v), treeValid := false } := by
  rw [hostWrite, hr]
  exact if_pos ho

theorem hostWrite_ctLen (hr : region a = 4) (ho : offset a < hw.nSym) :
    hostWrite hw c a v = some { c with
      ctLen := c.ctLen.write (offset a) (lowBits 6 v), ctValid := false } := by
  rw [hostWrite, hr]
  exact if_pos ho

theorem hostWrite_ctCode (hr : region a = 5) (ho : offset a < hw.nSym) :
    hostWrite hw c a v = some { c with
      ctCode := c.ctCode.write (offset a) (lowBits hw.maxlen v), ctValid := false } := by
  rw [hostWrite, hr]
  exact if_pos ho

end

/-! ### RD and WR of an entry -/

/-- A read is told what it finds. -/
theorem exec_rd_told {a : Addr} {s : State} {w : Word} (h : hostRead s.hw s.arch a = some w) :
    exec (.rd a) s = .next (s.told w) := by
  rw [exec_rd, h]
  rfl

/-- A write outside CMD finishes with what it stores. -/
theorem exec_wr_finished {a : Addr} {v : Word} {s : State} {d : Arch} (ha : a ≠ cmdAddr)
    (h : hostWrite s.hw s.arch a v = some d) : exec (.wr a v) s = .next (s.finished d) := by
  rw [exec_wr_of_ne ha, State.write, h]
  rfl

/-- The write of `v` to `a` is accepted, and a read of `a` after it is told `w`. -/
def WriteThenRead (s : State) (a : Addr) (v w : Word) : Prop :=
  ∃ t, exec (.wr a v) s = .next t ∧ exec (.rd a) t = .next (t.told w)

/-- The read after an accepted write finds what stands at the address in the state stored. -/
theorem writeThenRead_of_hostWrite {s : State} {a : Addr} {v w : Word} {d : Arch}
    (ha : a ≠ cmdAddr) (hstore : hostWrite s.hw s.arch a v = some d)
    (hfind : hostRead s.hw d a = some w) :
    WriteThenRead s a v w :=
  ⟨s.finished d, exec_wr_finished ha hstore, exec_rd_told hfind⟩

section
variable {s : State} {base r depth : Nat} (hbase : base = r * 2 ^ 16) (hr : r < 16)
  (hdepth : depth ≤ 2 ^ 16) {i : Nat} (hi : i < depth)
include hbase hr hdepth hi

/-- Where region `r` holds the memory `m`, the word at offset `i` is entry `i` of `m` (R63). -/
theorem exec_rd_entry {m : Memory}
    (hregion : ∀ {a}, region a = r → hostRead s.hw s.arch a = readEntry m depth (offset a)) :
    exec (.rd (entryAddr base i)) s = .next (s.told (m.read i)) := by
  have hi16 : i < 2 ^ 16 := hi.trans_le hdepth
  apply exec_rd_told
  rw [hregion (region_entryAddr hbase hr hi16), offset_entryAddr hbase hr hi16,
    readEntry_of_lt hi]

/-- Where every write of `v` inside the depth of region `r` leaves `w` at its address, so does the
write to entry `i` (R68). -/
theorem writeThenRead_entry {v w : Word} (hr0 : r ≠ 0)
    (hstores : ∀ {a}, region a = r → offset a < depth →
      ∃ d, hostWrite s.hw s.arch a v = some d ∧ hostRead s.hw d a = some w) :
    WriteThenRead s (entryAddr base i) v w := by
  have hi16 : i < 2 ^ 16 := hi.trans_le hdepth
  have hregion := region_entryAddr hbase hr hi16
  have hoffset := offset_entryAddr hbase hr hi16
  obtain ⟨d, hstore, hfind⟩ := hstores hregion (hoffset.trans_lt hi)
  exact writeThenRead_of_hostWrite (ne_cmdAddr_of_region (hregion.trans_ne hr0)) hstore hfind

end

end Sys2Proof.Machine

open Sys2Proof Sys2Proof.Machine

/-- Settles O11: a read is told a word or turned away, and both add the reply only. -/
theorem readsHaveNoSideEffect : Obligations.ReadsHaveNoSideEffect := by
  intro s a
  obtain ⟨w, -, h⟩ | ⟨-, h⟩ := exec_rd_cases a s
  · exact .inl ⟨w, h⟩
  · exact .inr h

/-- Settles O15, region by region. -/
theorem entryReads : Obligations.EntryReads := by
  intro s i
  have hsize : s.hw.nSym ≤ 2 ^ 16 := s.hw.nSym_le.trans (by decide)
  exact ⟨
    fun hi => exec_rd_entry (r := 1) rfl (by decide) s.hw.textCap_le hi hostRead_text,
    fun hi => exec_rd_entry (r := 2) rfl (by decide) s.hw.bitsCap_le hi hostRead_bits,
    fun hi => exec_rd_entry (r := 3) rfl (by decide) hsize hi hostRead_freq,
    fun hi => exec_rd_entry (r := 4) rfl (by decide) hsize hi hostRead_ctLen,
    fun hi => exec_rd_entry (r := 5) rfl (by decide) hsize hi hostRead_ctCode,
    fun hi => exec_rd_entry (r := 6) rfl (by decide) s.hw.arenaDepth_le hi hostRead_nodeW,
    fun hi => exec_rd_entry (r := 7) rfl (by decide) s.hw.arenaDepth_le hi hostRead_nodeLR⟩

/-- Settles O18: each region stores the low bits at its entry, the two length registers store the
whole word. -/
theorem writeThenReadTruncates : Obligations.WriteThenReadTruncates := by
  intro s v i
  have hsize : s.hw.nSym ≤ 2 ^ 16 := s.hw.nSym_le.trans (by decide)
  refine ⟨fun hi => ?_, fun hi => ?_, fun hi => ?_, fun hi => ?_, fun hi => ?_, ?_, ?_⟩
  · exact writeThenRead_entry (r := 1) rfl (by decide) s.hw.textCap_le hi (by decide)
      fun hr ho => ⟨_, hostWrite_text hr ho, (hostRead_text hr).trans (readEntry_write ho)⟩
  · exact writeThenRead_entry (r := 2) rfl (by decide) s.hw.bitsCap_le hi (by decide)
      fun hr ho => ⟨_, hostWrite_bits hr ho, (hostRead_bits hr).trans (readEntry_write ho)⟩
  · exact writeThenRead_entry (r := 3) rfl (by decide) hsize hi (by decide)
      fun hr ho => ⟨_, hostWrite_freq hr ho, (hostRead_freq hr).trans (readEntry_write ho)⟩
  · exact writeThenRead_entry (r := 4) rfl (by decide) hsize hi (by decide)
      fun hr ho => ⟨_, hostWrite_ctLen hr ho, (hostRead_ctLen hr).trans (readEntry_write ho)⟩
  · exact writeThenRead_entry (r := 5) rfl (by decide) hsize hi (by decide)
      fun hr ho => ⟨_, hostWrite_ctCode hr ho, (hostRead_ctCode hr).trans (readEntry_write ho)⟩
  · exact writeThenRead_of_hostWrite (a := 0x00003#20) (by decide) rfl rfl
  · exact writeThenRead_of_hostWrite (a := 0x00004#20) (by decide) rfl rfl
end

section
/-! Command words at the CMD register: the ten legal ones run their commands, every other one is
illegal (spec/30_encoding.md R93, R94; spec/40_host_access.md R124). -/

namespace Sys2Proof.Machine

/-- The command decoder reads every row of R93 as its command. -/
theorem decodeCommand_of_mem_commandWords :
    ∀ p ∈ commandWords, decodeCommand p.1 = .ok p.2 := by decide

/-- The dispatch of a word that decodes is the execution of the command it decodes to (R124). -/
theorem dispatchCommand_of_decodeCommand {w : Word} {i : Instr} (h : decodeCommand w = .ok i)
    (s : State) : dispatchCommand w s = exec i s := by
  obtain ⟨hrd, hwr⟩ := decodeCommand_ne_bus w
  rw [dispatchCommand, h]
  cases i with
  | rd a => exact absurd h (hrd a)
  | wr a v => exact absurd h (hwr a v)
  | _ => rfl

end Sys2Proof.Machine

open Sys2Proof Sys2Proof.Machine

/-- Settles O4: the write to CMD dispatches on the decoded word, and each row of R93 decodes to its
command; a triple is told by its kind bit. -/
theorem commandWordsRunTheirCommands : Obligations.CommandWordsRunTheirCommands := by
  refine ⟨fun s p hp => ?_, fun t => ⟨decodeBus_of_kind_read, decodeBus_of_kind_write⟩⟩
  calc exec (.wr cmdAddr p.1) s
      = dispatchCommand p.1 s := exec_wr_cmd p.1 s
    _ = exec p.2 s :=
      dispatchCommand_of_decodeCommand (decodeCommand_of_mem_commandWords p hp) s

/-- Settles O5: the command decoder accepts no word outside the table of R93, so the write raises
and changes the two result fields only. -/
theorem illegalWordsRaiseIllcmd : Obligations.IllegalWordsRaiseIllcmd :=
  fun _ _ hw => exec_wr_illegal hw
end

section
/-! The locations of the host port that turn a transaction away (spec/20_memory.md R62;
spec/40_host_access.md R122, R123). -/

namespace Sys2Proof.Machine

/-- The table of R22 ends at offset 0xB. -/
theorem offset_le_of_readRegister {hw : Hardware} {c : Arch} {off : Nat} {w : Word}
    (h : readRegister hw c off = some w) : off ≤ 0xB := by
  unfold readRegister at h
  split at h
  case h_13 => cases h
  all_goals omega

theorem offset_lt_of_readEntry {m : Memory} {depth off : Nat} {w : Word}
    (h : readEntry m depth off = some w) : off < depth := by
  by_contra hge
  rw [readEntry, if_neg hge] at h
  cases h

section
variable {hw : Hardware} {c : Arch} {a : Addr}

/-- A read finds something at mapped addresses only. -/
theorem not_unmapped_of_hostRead {w : Word} (h : hostRead hw c a = some w) :
    ¬ Unmapped hw a.toNat := by
  have hregion := region_eq a
  have hoffset := offset_eq a
  unfold hostRead at h
  split at h
  case h_1 =>
    have := offset_le_of_readRegister h
    omega
  case h_9 => cases h
  all_goals
    have := offset_lt_of_readEntry h
    omega

/-- A write outside CMD stores something at mapped addresses that are not read-only, and only
there. -/
theorem writable_of_hostWrite {v : Word} {d : Arch} (h : hostWrite hw c a v = some d) :
    ¬ Unmapped hw a.toNat ∧ ¬ ReadOnly a.toNat := by
  have hregion := region_eq a
  have hoffset := offset_eq a
  have hwrite := hostWrite_outcome hw c a v
  rw [h] at hwrite
  cases hwrite
  all_goals constructor <;> omega

theorem hostRead_of_unmapped (h : Unmapped hw a.toNat) : hostRead hw c a = none :=
  Option.eq_none_iff_forall_ne_some.mpr fun _ hfind => not_unmapped_of_hostRead hfind h

theorem hostWrite_of_unmapped {v : Word} (h : Unmapped hw a.toNat) : hostWrite hw c a v = none :=
  Option.eq_none_iff_forall_ne_some.mpr fun _ hstore => (writable_of_hostWrite hstore).1 h

theorem hostWrite_of_readOnly {v : Word} (h : ReadOnly a.toNat) : hostWrite hw c a v = none :=
  Option.eq_none_iff_forall_ne_some.mpr fun _ hstore => (writable_of_hostWrite hstore).2 h

/-- CMD is the word address 0. -/
theorem ne_cmdAddr_of_toNat (h : a.toNat ≠ 0) : a ≠ cmdAddr := by
  rintro rfl
  exact h rfl

end

end Sys2Proof.Machine

open Sys2Proof Sys2Proof.Machine

/-- Settles O16: at an unmapped address a read finds nothing and a write stores nothing. -/
theorem unmappedAddressesAnswerError : Obligations.UnmappedAddressesAnswerError := by
  intro s a v h
  constructor
  · rw [exec_rd, hostRead_of_unmapped h]
    rfl
  · exact exec_wr_turnedAway (ne_cmdAddr_of_toNat (by omega)) (hostWrite_of_unmapped h)

/-- Settles O17: at a read-only location a write stores nothing. -/
theorem readOnlyWritesAnswerError : Obligations.ReadOnlyWritesAnswerError :=
  fun _ _ _ h => exec_wr_turnedAway (ne_cmdAddr_of_toNat (by omega)) (hostWrite_of_readOnly h)
end

section
/-! The frame of a write to an entry, and to a length register (spec/20_memory.md R66, R68;
spec/40_host_access.md R125). -/

namespace Sys2Proof.Machine

/-- Where a write of `v` inside the depth of region `r` stores the low `n` bits in the memory `m`
and leaves the state `update` of the new memory, so does the write to entry `i`, which changes no
other entry of `m`. -/
theorem exec_wr_entry {s : State} {base r depth : Nat} (hbase : base = r * 2 ^ 16) (hr : r < 16)
    (hdepth : depth ≤ 2 ^ 16) {i : Nat} (hi : i < depth) (hr0 : r ≠ 0) {m : Memory}
    {update : Memory → Arch} {n : Nat} {v : Word}
    (hstores : ∀ {a}, region a = r → offset a < depth →
      hostWrite s.hw s.arch a v = some (update (m.write (offset a) (lowBits n v)))) :
    ∃ m', exec (.wr (entryAddr base i) v) s = .next (s.finished (update m')) ∧
      (m'.read i).toNat = v.toNat % 2 ^ n ∧ m.SameOutside m' i (i + 1) := by
  have hi16 : i < 2 ^ 16 := hi.trans_le hdepth
  have hregion := region_entryAddr hbase hr hi16
  have hoffset := offset_entryAddr hbase hr hi16
  have hstore := hstores hregion (hoffset.trans_lt hi)
  rw [hoffset] at hstore
  refine ⟨m.write i (lowBits n v),
    exec_wr_finished (ne_cmdAddr_of_region (hregion.trans_ne hr0)) hstore, ?_,
    m.sameOutside_write i _⟩
  rw [Memory.read_write_same, toNat_lowBits]

end Sys2Proof.Machine

open Sys2Proof Sys2Proof.Machine

/-- Settles O19: TEXT and BITS by the frame of a write to an entry; each length register stores the
whole word. -/
theorem bufferWriteFrame : Obligations.BufferWriteFrame := by
  intro s v i
  exact ⟨fun hi => exec_wr_entry (r := 1) rfl (by decide) s.hw.textCap_le hi (by decide)
      hostWrite_text,
    fun hi => exec_wr_entry (r := 2) (n := 8) rfl (by decide) s.hw.bitsCap_le hi (by decide)
      hostWrite_bits,
    exec_wr_finished (a := 0x00003#20) (by decide) rfl,
    exec_wr_finished (a := 0x00004#20) (by decide) rfl⟩

/-- Settles O20: each of the three memories by the frame of a write to an entry, the cleared flag
included. -/
theorem tableWriteFrame : Obligations.TableWriteFrame := by
  intro s v i hi
  have hsize : s.hw.nSym ≤ 2 ^ 16 := s.hw.nSym_le.trans (by decide)
  exact ⟨exec_wr_entry (r := 3) rfl (by decide) hsize hi (by decide) hostWrite_freq,
    exec_wr_entry (r := 4) (n := 6) rfl (by decide) hsize hi (by decide) hostWrite_ctLen,
    exec_wr_entry (r := 5) rfl (by decide) hsize hi (by decide) hostWrite_ctCode⟩
end

section
/-! The end of a command, and its separation from the bus response (spec/10_state.md R25;
spec/40_host_access.md R124, R126). -/

namespace Sys2Proof.Machine

/-- A command whose stage raises no OK records the detail 0 when it records OK (R25). -/
theorem RaisesPrecisely.commit_errInfo {stage : Hardware → Arch → Result}
    (hs : RaisesPrecisely stage) {hw : Hardware} {c : Arch} (hok : (stage hw c).commit.err = .ok) :
    (stage hw c).commit.errInfo = 0#32 := by
  obtain ⟨d, -, h⟩ | ⟨e, info, he, h⟩ := hs.commit_cases hw c
  · rw [h]
    rfl
  · rw [h] at hok
    exact absurd hok he

/-- BUILD records the detail 0 when it records OK: each stage that can end it raises another
code. -/
theorem buildStage_commit_errInfo {hw : Hardware} {c : Arch}
    (hok : (buildStage hw c).commit.err = .ok) : (buildStage hw c).commit.errInfo = 0#32 := by
  obtain ⟨_, h⟩ | ⟨_, _, h, -⟩ | ⟨_, _, h, -⟩ | ⟨_, h, -⟩ := buildStage_ends hw c
  case inr.inr.inr =>
    rw [h]
    rfl
  all_goals
    rw [h] at hok
    cases hok

/-- No host write touches the result of the last command (R126). -/
theorem hostWrite_keeps_result {hw : Hardware} {c d : Arch} {a : Addr} {v : Word}
    (h : hostWrite hw c a v = some d) : d.err = c.err ∧ d.errInfo = c.errInfo := by
  have hwrite := hostWrite_outcome hw c a v
  rw [h] at hwrite
  cases hwrite <;> exact ⟨rfl, rfl⟩

end Sys2Proof.Machine

open Sys2Proof Sys2Proof.Machine

/-- Settles O23, command by command. -/
theorem commandsAlwaysComplete : Obligations.CommandsAlwaysComplete := by
  intro s i hi
  cases i with
  | nop => exact ⟨_, exec_nop s, fun _ => rfl⟩
  | freq => exact ⟨_, exec_freq s, freqStage_raisesPrecisely.commit_errInfo⟩
  | tree => exact ⟨_, exec_tree s, treeStage_raisesPrecisely.commit_errInfo⟩
  | derive => exact ⟨_, exec_derive s, deriveStage_raisesPrecisely.commit_errInfo⟩
  | build => exact ⟨_, exec_build s, buildStage_commit_errInfo⟩
  | encode => exact ⟨_, exec_encode s, encodeStage_raisesPrecisely.commit_errInfo⟩
  | decode => exact ⟨_, exec_decode s, decodeStage_raisesPrecisely.commit_errInfo⟩
  | ctclr => exact ⟨_, exec_ctclr s, fun _ => rfl⟩
  | ctchk => exact ⟨_, exec_ctchk s, ctchkStage_raisesPrecisely.commit_errInfo⟩
  | reset => exact ⟨_, exec_reset s, fun _ => rfl⟩
  | rd a =>
    obtain ⟨w, hw⟩ := (Laws.Format.rd a).2.mp hi
    cases hw
  | wr a v =>
    obtain ⟨w, hw⟩ := (Laws.Format.wr a v).2.mp hi
    cases hw

/-- Settles O24: a read keeps the state, a write outside CMD keeps the result fields, and a write to
CMD finishes whatever the word. -/
theorem busAndCommandResultsSeparate : Obligations.BusAndCommandResultsSeparate := by
  refine ⟨fun s t a h => ?_, fun s t a v ha h => ?_, fun s w => ?_⟩
  · obtain ⟨-, harch⟩ := exec_rd_keeps h
    rw [harch]
    exact ⟨rfl, rfl⟩
  · rw [exec_wr_of_ne ha] at h
    obtain ⟨d, hd, hs⟩ | ⟨-, hs⟩ := s.write_cases a v
    · rw [hs] at h
      cases h
      exact hostWrite_keeps_result hd
    · rw [hs] at h
      cases h
      exact ⟨rfl, rfl⟩
  · obtain ⟨c, hc⟩ := dispatchCommand_finishes w s
    exact ⟨s.finished c, hc, rfl⟩
end

section
/-! What FREQ leaves in the frequency map: the counts of the current text, and their sum
(spec/41_frequency.md R140 to R142). -/

namespace Sys2Proof.Machine

/-! ### The counts of a text -/

@[simp] theorem length_currentText (c : Arch) : c.currentText.length = c.textLen.toNat := by
  simp [Arch.currentText]

theorem count_currentText_le (c : Arch) (x : Nat) : c.currentText.count x ≤ c.textLen.toNat :=
  List.count_le_length.trans_eq (length_currentText c)

/-- Counting a symbol in the text is counting the indexes of TEXT that hold it (R140). -/
theorem count_currentText (c : Arch) (x : Nat) :
    c.currentText.count x = (List.range c.textLen.toNat).countP
      (fun i => decide ((c.text.read i).toNat = x)) := by
  rw [Arch.currentText, List.count_eq_countP, List.countP_map]
  rfl

/-- The symbols of the text are in the alphabet, since TEXT holds `SYMW` bits an entry (R33). -/
theorem lt_nSym_of_mem_currentText {hw : Hardware} {c : Arch} (h : c.text.Ok hw.textCap hw.symw)
    {x : Nat} (hx : x ∈ c.currentText) : x < hw.nSym := by
  obtain ⟨i, -, rfl⟩ := List.mem_map.mp hx
  exact c.text.read_lt _ _ i h.2

/-- The counts of all numbers below a bound of the list sum to its length. -/
theorem sum_count_range {l : List Nat} {n : Nat} (h : ∀ x ∈ l, x < n) :
    ((List.range n).map fun x => l.count x).sum = l.length := by
  have hmem : ∀ x ∈ (l : Multiset Nat), x ∈ Finset.range n := by simpa using h
  simpa [Finset.sum, Multiset.range] using Multiset.sum_count_eq_card hmem

/-! ### The map that FREQ writes -/

/-- On a text that fits, FREQ replaces the map by the counts of the text and clears TREE_VALID; the
counts fit their words because TEXT_LEN is a word. -/
theorem freqStage_of_fits {hw : Hardware} {c : Arch} (hfits : c.textLen.toNat ≤ hw.textCap) :
    ∃ m, freqStage hw c = .done { c with freq := m, treeValid := false } ∧
      (∀ x < hw.nSym, (m.read x).toNat = c.currentText.count x) ∧
      c.freq.SameOutside m 0 hw.nSym := by
  obtain ⟨hlong, -⟩ | ⟨-, hdone⟩ := freqStage_cases hw c
  · omega
  · refine ⟨_, hdone, fun x hx => ?_, ?_⟩
    · have hword : c.currentText.count x < 2 ^ 32 :=
        (count_currentText_le c x).trans_lt c.textLen.isLt
      rw [Memory.read_writeBlock, if_pos (by simpa using hx)]
      simpa [hx] using toNat_ofNat_of_lt hword
    · simpa using c.freq.sameOutside_writeBlock 0
        ((List.range hw.nSym).map fun s => BitVec.ofNat 32 (c.currentText.count s))

/-- A text above the capacity is ERR_LENGTH with its length as the detail (R141). -/
theorem freqStage_of_tooLong {hw : Hardware} {c : Arch} (hlong : hw.textCap < c.textLen.toNat) :
    freqStage hw c = .raised .length c.textLen c := by
  obtain ⟨-, hraised⟩ | ⟨hfits, -⟩ := freqStage_cases hw c
  · exact hraised
  · omega

end Sys2Proof.Machine

open Sys2Proof Sys2Proof.Machine

/-- Settles O28, by the two ends of FREQ. -/
theorem freqCountsTheText : Obligations.FreqCountsTheText := by
  constructor
  · intro s hfits
    obtain ⟨m, hdone, hcounts, hframe⟩ := freqStage_of_fits hfits
    refine ⟨m, ?_, fun x hx => ?_, hframe⟩
    · rw [exec_freq, hdone]
      rfl
    · rw [hcounts x hx, count_currentText]
  · intro s hlong
    rw [exec_freq, freqStage_of_tooLong hlong]
    rfl

/-- Settles O29: a count of the text is at most its length, and every symbol of the text is
counted, since the stored symbols are below `N_SYM`. -/
theorem freqCountsFitAndSum : Obligations.FreqCountsFitAndSum := by
  intro s c hmem hfits hexec
  obtain ⟨m, hdone, hcounts, -⟩ := freqStage_of_fits hfits
  have hc : c.freq = m := by
    rw [exec_freq, hdone] at hexec
    rw [← State.finished_inj (Host.Outcome.next.inj hexec)]
    rfl
  rw [hc]
  constructor
  · intro x hx
    rw [hcounts x hx]
    exact ⟨count_currentText_lt hfits x, count_currentText_le s.arch x⟩
  · calc ((List.range s.hw.nSym).map fun x => (m.read x).toNat).sum
      _ = ((List.range s.hw.nSym).map fun x => s.arch.currentText.count x).sum :=
        congrArg List.sum (List.map_congr_left fun x hx => hcounts x (List.mem_range.mp hx))
      _ = s.arch.currentText.length :=
        sum_count_range fun _ => lt_nSym_of_mem_currentText hmem.text
      _ = s.arch.textLen.toNat := length_currentText s.arch
end

section
/-! The priority queue in the order of R10: `queuePush` keeps the order, and the head of an ordered
queue is its least pair (spec/42_tree_builder.md R150, R156). -/

namespace Sys2Proof.Machine

/-! ### The order of R10 -/

/-- The queue is in the order of R10. -/
abbrev InKeyOrder (q : List Key) : Prop := q.Pairwise fun a b => a.before b = true

theorem Key.before_iff {a b : Key} :
    a.before b = true ↔ a.weight < b.weight ∨ a.weight = b.weight ∧ a.id < b.id := by
  simp [Key.before]

theorem Key.before_trans {a b c : Key} (hab : a.before b = true) (hbc : b.before c = true) :
    a.before c = true := by
  rw [Key.before_iff] at *
  omega

/-- Of two pairs with different ids one comes first (R156). -/
theorem Key.before_of_not_before {a b : Key} (hid : a.id ≠ b.id) (h : ¬a.before b = true) :
    b.before a = true := by
  rw [Key.before_iff] at *
  omega

/-! ### Pushing -/

theorem inKeyOrder_queuePush {k : Key} {q : List Key} (hq : InKeyOrder q)
    (hk : ∀ x ∈ q, x.id ≠ k.id) : InKeyOrder (queuePush k q) := by
  fun_induction queuePush k q with
  | case1 => exact List.pairwise_singleton _ _
  | case2 x xs hbefore =>
    have hx := (List.pairwise_cons.mp hq).1
    refine List.pairwise_cons.mpr ⟨List.forall_mem_cons.mpr ⟨hbefore, fun y hy => ?_⟩, hq⟩
    exact Key.before_trans hbefore (hx y hy)
  | case3 x xs hnot ih =>
    obtain ⟨hx, hxs⟩ := List.pairwise_cons.mp hq
    obtain ⟨hxk, hxsk⟩ := List.forall_mem_cons.mp hk
    refine List.pairwise_cons.mpr ⟨fun y hy => ?_, ih hxs hxsk⟩
    rcases mem_queuePush.mp hy with rfl | hy
    · exact Key.before_of_not_before hxk.symm hnot
    · exact hx y hy

/-- The head of a queue in key order comes before every other pair. -/
theorem head_before_of_inKeyOrder {q : List Key} (hq : InKeyOrder q) {h x : Key}
    (hh : h ∈ q.head?) (hx : x ∈ q) (hne : x ≠ h) : h.before x = true := by
  obtain ⟨rest, rfl⟩ := List.head?_eq_some_iff.mp hh
  exact (List.pairwise_cons.mp hq).1 x (List.mem_of_ne_of_mem hne hx)

end Sys2Proof.Machine

open Sys2Proof Sys2Proof.Machine

/-- Settles O30: the push keeps the order by the totality of R10 on different ids, and is a
permutation. -/
theorem queueHeadIsLeast : Obligations.QueueHeadIsLeast := by
  intro k q hq hk
  have horder := inKeyOrder_queuePush hq hk
  have hperm := queuePush_perm k q
  refine ⟨horder, hperm, fun h hh x hx hne => ?_⟩
  exact Key.before_iff.mp (head_before_of_inKeyOrder horder hh (hperm.mem_iff.mpr hx) hne)
end

section
/-! How TREE ends on an empty map, on a map of one symbol, and on any other
(spec/42_tree_builder.md R153 to R155, R158). -/

namespace Sys2Proof.Machine

/-! ### The frequency map -/

theorem counted_eq_nil_iff {hw : Hardware} {c : Arch} :
    c.counted hw = [] ↔ ∀ x < hw.nSym, (c.freq.read x).toNat = 0 := by
  simp [List.eq_nil_iff_forall_not_mem, mem_counted]

theorem counted_eq_singleton {hw : Hardware} {c : Arch} {x : Nat} (hx : x < hw.nSym)
    (hpos : 0 < (c.freq.read x).toNat)
    (hother : ∀ y < hw.nSym, y ≠ x → (c.freq.read y).toNat = 0) : c.counted hw = [x] := by
  refine List.perm_singleton.mp
    ((List.perm_ext_iff_of_nodup (nodup_counted hw c) (List.nodup_singleton x)).mpr fun y => ?_)
  rw [mem_counted, List.mem_singleton]
  constructor
  · rintro ⟨hy, hypos⟩
    by_contra hne
    have := hother y hy hne
    omega
  · rintro rfl
    exact ⟨hx, hpos⟩

/-! ### The two ends of TREE -/

theorem treeStage_of_empty {hw : Hardware} {c : Arch} (h : c.counted hw = []) :
    treeStage hw c = .raised .empty 0#32 c := by
  obtain ⟨-, hraised⟩ | ⟨_, _, hne, -⟩ := treeStage_cases hw c
  · exact hraised
  · exact absurd h hne

theorem treeStage_of_nonempty {hw : Hardware} {c : Arch} (h : c.counted hw ≠ []) :
    ∃ d, treeStage hw c = .done d := by
  obtain ⟨hempty, -⟩ | ⟨_, _, -, -, -, hdone⟩ := treeStage_cases hw c
  · exact absurd hempty h
  · exact ⟨_, hdone⟩

/-- A TREE that ends with OK had a map to build from. -/
theorem treeStage_done_of_commit_ok {hw : Hardware} {c : Arch}
    (h : (treeStage hw c).commit.err = .ok) : ∃ d, treeStage hw c = .done d := by
  refine treeStage_of_nonempty fun hempty => ?_
  rw [treeStage_of_empty hempty] at h
  cases h

/-- What a TREE that succeeds may change: the arena, ROOT, NLEAF and TREE_VALID. -/
theorem treeStage_frame {hw : Hardware} {c d : Arch} (h : treeStage hw c = .done d) :
    d = { c with nodeW := d.nodeW, nodeLR := d.nodeLR, root := d.root, nleaf := d.nleaf,
                 treeValid := true } ∧
    c.nodeW.SameOutside d.nodeW 0 hw.arenaDepth ∧
    c.nodeLR.SameOutside d.nodeLR 0 hw.arenaDepth := by
  obtain ⟨nodes, last, -, -, hlen, rfl⟩ := treeStage_done h
  have hcounted := length_counted_le hw c
  have hdepth : nodes.length ≤ hw.nSym - 1 := by omega
  have hweights := c.nodeW.sameOutside_writeBlock 0 (arenaWeights hw c nodes)
  have hchildren := c.nodeLR.sameOutside_writeBlock 0 (arenaChildren hw nodes)
  rw [length_arenaWeights hw c nodes hdepth, Nat.zero_add] at hweights
  rw [length_arenaChildren hw nodes hdepth, Nat.zero_add] at hchildren
  exact ⟨rfl, hweights, hchildren⟩

/-- What TREE leaves of a map with the one symbol `x`: its leaf as the root, and no internal node
(R155). -/
theorem treeStage_of_one {hw : Hardware} {c d : Arch} {x : Nat} (h : treeStage hw c = .done d)
    (hx : c.counted hw = [x]) :
    d.root = BitVec.ofNat 32 x ∧ d.nleaf = 1#32 ∧
    (∀ y < hw.nSym, d.nodeW.read y = c.freq.read y) ∧
    (∀ n, hw.nSym ≤ n → n < hw.arenaDepth → d.nodeW.read n = 0#32) ∧
    (∀ n < hw.arenaDepth, d.nodeLR.read n = 0#32) := by
  obtain ⟨nodes, last, -, hm, hlen, rfl⟩ := treeStage_done h
  have hone : (c.counted hw).length = 1 := by rw [hx, List.length_singleton]
  have hroot : x = last.id := List.singleton_inj.mp (hx.symm.trans (last_id_of_one hm hone))
  have hnone : nodes.length = 0 := by rw [hlen, hone]
  refine ⟨by rw [hroot], by rw [hone], fun y hy => ?_, fun n hlo hn => ?_, fun n hn => ?_⟩
  · exact read_arenaWeights_leaf hw c nodes _ hy
  · exact read_arenaWeights_cleared hw c nodes _ (by omega) hn
  · by_cases hleaf : n < hw.nSym
    · exact read_arenaChildren_leaf hw nodes _ hleaf
    · exact read_arenaChildren_cleared hw nodes _ (by omega) hn

end Sys2Proof.Machine

open Sys2Proof Sys2Proof.Machine

/-- Settles O31: an empty map gives an empty queue; and a valid arena has a leaf with a positive
count (R43 (a)), so it cannot stand beside an empty map. -/
theorem treeRefusesEmptyMap : Obligations.TreeRefusesEmptyMap := by
  refine ⟨fun s hzero => ?_, fun s hinv hzero => ?_⟩
  · rw [exec_tree, treeStage_of_empty (counted_eq_nil_iff.mpr hzero)]
    rfl
  · refine Bool.eq_false_iff.mpr fun hvalid => ?_
    have hleaf := (hinv.arena hvalid).leafCount.2
    rw [counted_eq_nil_iff.mpr hzero] at hleaf
    cases hleaf

/-- Settles O32: one symbol, so no round of the merge. -/
theorem treeOfOneSymbol : Obligations.TreeOfOneSymbol := by
  intro s x hx hpos hother
  have hone := counted_eq_singleton hx hpos hother
  obtain ⟨d, hdone⟩ := treeStage_of_nonempty (hone ▸ List.cons_ne_nil x [])
  obtain ⟨hframe, hweights, hchildren⟩ := treeStage_frame hdone
  obtain ⟨hroot, hnleaf, hleaf, hinternal, hnochild⟩ := treeStage_of_one hdone hone
  have hsize := s.hw.nSym_le
  refine ⟨d.nodeW, d.nodeLR, ?_, by omega, hleaf, hinternal, hnochild, hweights, hchildren⟩
  rw [exec_tree, hdone, hframe, hroot, hnleaf]
  rfl

/-- Settles O33: the symbol with a positive count makes TREE succeed, and a TREE that succeeds
leaves an arena that meets R43. -/
theorem treeBuildsTheArena : Obligations.TreeBuildsTheArena := by
  rintro s hmem ⟨x, hx, hpos⟩
  obtain ⟨d, hdone⟩ := treeStage_of_nonempty (List.ne_nil_of_mem (mem_counted.mpr ⟨hx, hpos⟩))
  obtain ⟨hframe, hweights, hchildren⟩ := treeStage_frame hdone
  have harena := treeStage_arenaOk hmem.freq hdone
  rw [hframe] at harena
  refine ⟨d.nodeW, d.nodeLR, d.root, d.nleaf, ?_, { harena with }, hweights, hchildren⟩
  rw [exec_tree, hdone, hframe]
  rfl
end

section
/-! The pairs that the merge pops, in the order of their pops, rise in the order of R10
(spec/42_tree_builder.md R153, R156). -/

namespace Sys2Proof.Machine

/-! ### The pops of a merge -/

/-- The pairs that `mergeRounds` takes from the queue, in the order of their pops. -/
def mergePops : Nat → Nat → List Key → List Key
  | rounds + 1, fresh, a :: b :: queue =>
    a :: b :: mergePops rounds (fresh + 1)
      (queuePush { weight := a.weight + b.weight, id := fresh } queue)
  | _, _, _ => []

/-- The children of the created nodes, in order, are the pairs that were popped. -/
theorem children_mergeRounds_eq (rounds fresh : Nat) (q : List Key) :
    (mergeRounds rounds fresh q).1.flatMap Merged.children =
      (mergePops rounds fresh q).map Key.id := by
  fun_induction mergeRounds rounds fresh q with
  | case1 rounds fresh a b queue node rest ih => simpa [Merged.children, mergePops, node] using ih
  | case2 => simp [mergePops]

/-- A popped pair was in the queue, or is a created node with its weight. -/
theorem mem_mergePops {rounds fresh : Nat} {q : List Key} {x : Key}
    (hx : x ∈ mergePops rounds fresh q) : x ∈ q ∨
      ∃ i, ∃ h : i < (mergeRounds rounds fresh q).1.length,
        x.id = fresh + i ∧ x.weight = ((mergeRounds rounds fresh q).1[i]).weight := by
  fun_induction mergePops rounds fresh q with
  | case1 rounds fresh a b queue ih =>
    simp only [List.mem_cons] at hx
    obtain rfl | rfl | hx := hx
    · exact .inl (List.mem_cons_self ..)
    · exact .inl (List.mem_cons_of_mem _ (List.mem_cons_self ..))
    · rcases ih hx with hpushed | ⟨i, hi, hid, hweight⟩
      · rcases mem_queuePush.mp hpushed with rfl | hqueue
        · exact .inr ⟨0, by simp [mergeRounds], rfl, rfl⟩
        · exact .inl (List.mem_cons_of_mem _ (List.mem_cons_of_mem _ hqueue))
      · exact .inr ⟨i + 1, by simpa [mergeRounds] using hi, by omega, hweight⟩
  | case2 => cases hx

/-- A pair that is no heavier than the second pop, older than the new node and before the rest of
the queue is before everything that the queue holds after the push of the new node. -/
theorem before_of_mem_queuePush {k a b : Key} {fresh : Nat} {queue : List Key} (hid : k.id < fresh)
    (hweight : k.weight ≤ b.weight) (hqueue : ∀ x ∈ queue, k.before x = true) :
    ∀ x ∈ queuePush { weight := a.weight + b.weight, id := fresh } queue, k.before x = true := by
  intro x hx
  rcases mem_queuePush.mp hx with rfl | hx
  · rw [Key.before_iff]
    dsimp only
    omega
  · exact hqueue x hx

/-- A pair before the whole queue, with an id older than the nodes to come, is before everything
that the merge pops. -/
theorem before_mergePops {k : Key} {rounds fresh : Nat} {q : List Key} (hid : k.id < fresh)
    (hq : ∀ x ∈ q, k.before x = true) : ∀ x ∈ mergePops rounds fresh q, k.before x = true := by
  fun_induction mergePops rounds fresh q with
  | case1 rounds fresh a b queue ih =>
    simp only [List.forall_mem_cons] at hq ⊢
    obtain ⟨ha, hb, hqueue⟩ := hq
    have hweight : k.weight ≤ b.weight := by
      rw [Key.before_iff] at hb
      omega
    exact ⟨ha, hb, ih (by omega) (before_of_mem_queuePush hid hweight hqueue)⟩
  | case2 => exact List.forall_mem_nil _

/-- The merge of a queue in key order pops in key order: both pops of a round come before what the
queue holds after it. -/
theorem inKeyOrder_mergePops {rounds fresh : Nat} {q : List Key} (hq : InKeyOrder q)
    (hids : ∀ x ∈ q, x.id < fresh) : InKeyOrder (mergePops rounds fresh q) := by
  fun_induction mergePops rounds fresh q with
  | case1 rounds fresh a b queue ih =>
    obtain ⟨ha, hbqueue⟩ := List.pairwise_cons.mp hq
    obtain ⟨hb, hqueue⟩ := List.pairwise_cons.mp hbqueue
    obtain ⟨hab, haqueue⟩ := List.forall_mem_cons.mp ha
    simp only [List.forall_mem_cons] at hids
    obtain ⟨haid, hbid, hqueueids⟩ := hids
    have hweight : a.weight ≤ b.weight := by
      rw [Key.before_iff] at hab
      omega
    have hapops := before_mergePops (rounds := rounds) (Nat.lt_succ_of_lt haid)
      (before_of_mem_queuePush (a := a) haid hweight haqueue)
    have hbpops := before_mergePops (rounds := rounds) (Nat.lt_succ_of_lt hbid)
      (before_of_mem_queuePush (a := a) hbid le_rfl hb)
    refine List.pairwise_cons.mpr ⟨List.forall_mem_cons.mpr ⟨hab, hapops⟩,
      List.pairwise_cons.mpr ⟨hbpops, ih ?_ fun x hx => ?_⟩⟩
    · exact inKeyOrder_queuePush hqueue fun x hx => (hqueueids x hx).ne
    · rcases mem_queuePush.mp hx with rfl | hx
      · exact Nat.lt_succ_self _
      · exact Nat.lt_succ_of_lt (hqueueids x hx)
  | case2 => exact .nil

/-! ### The pops of TREE -/

theorem inKeyOrder_foldl_queuePush {c : Arch} {xs : List Nat} {q : List Key} (hxs : xs.Nodup)
    (hq : InKeyOrder q) (hnew : ∀ x ∈ q, x.id ∉ xs) :
    InKeyOrder (xs.foldl (fun q s => queuePush (leafKey c s) q) q) := by
  induction xs generalizing q with
  | nil => exact hq
  | cons s xs ih =>
    obtain ⟨hs, hxs⟩ := List.nodup_cons.mp hxs
    refine ih hxs (inKeyOrder_queuePush hq fun x hx => ?_) fun x hx => ?_
    · exact List.ne_of_not_mem_cons (hnew x hx)
    · rcases mem_queuePush.mp hx with rfl | hx
      · exact hs
      · exact List.not_mem_of_not_mem_cons (hnew x hx)

/-- The queue of the leaves is in key order: each symbol is pushed once (R152). -/
theorem inKeyOrder_leafQueue (hw : Hardware) (c : Arch) : InKeyOrder (leafQueue hw c) :=
  inKeyOrder_foldl_queuePush (nodup_counted hw c) .nil (List.forall_mem_nil _)

theorem mem_leafQueue {hw : Hardware} {c : Arch} {x : Key} :
    x ∈ leafQueue hw c ↔ ∃ s ∈ c.counted hw, leafKey c s = x := by
  rw [(leafQueue_perm hw c).mem_iff, List.mem_map]

theorem id_lt_of_mem_leafQueue {hw : Hardware} {c : Arch} {x : Key} (hx : x ∈ leafQueue hw c) :
    x.id < hw.nSym := by
  obtain ⟨s, hs, rfl⟩ := mem_leafQueue.mp hx
  exact (mem_counted.mp hs).1

/-- The pops of the whole merge of a frequency map. -/
def treePops (hw : Hardware) (c : Arch) : List Key :=
  mergePops ((leafQueue hw c).length - 1) hw.nSym (leafQueue hw c)

theorem inKeyOrder_treePops (hw : Hardware) (c : Arch) : InKeyOrder (treePops hw c) :=
  inKeyOrder_mergePops (inKeyOrder_leafQueue hw c) fun _ => id_lt_of_mem_leafQueue

section
variable {hw : Hardware} {c d : Arch} {nodes : List Merged} {last : Key}
  (h : Arch.HoldsMerge hw c nodes last d)
include h

/-- The children in the arena are the ids of the pops. -/
theorem Arch.HoldsMerge.childIds_eq_pops : d.childIds hw = (treePops hw c).map Key.id := by
  rw [h.childIds_eq, ← mergeAll_nodes h.merge]
  exact children_mergeRounds_eq _ _ _

/-- The weights in the arena are the weights of the pops. -/
theorem Arch.HoldsMerge.weightOf_pop {x : Key} (hx : x ∈ treePops hw c) :
    d.weightOf x.id = x.weight := by
  have hmem := mem_mergePops hx
  simp only [mergeAll_nodes h.merge] at hmem
  rcases hmem with hleaf | ⟨i, hi, hid, hweight⟩
  · obtain ⟨s, hs, rfl⟩ := mem_leafQueue.mp hleaf
    exact congrArg BitVec.toNat (h.leafWeight s (mem_counted.mp hs).1)
  · rw [hid, hweight, h.weight i hi]

theorem Arch.HoldsMerge.pairwise_childIds : (d.childIds hw).Pairwise fun x y =>
    d.weightOf x < d.weightOf y ∨ d.weightOf x = d.weightOf y ∧ x < y := by
  rw [h.childIds_eq_pops, List.pairwise_map]
  refine (inKeyOrder_treePops hw c).imp_of_mem fun hx hy hbefore => ?_
  rw [h.weightOf_pop hx, h.weightOf_pop hy]
  exact Key.before_iff.mp hbefore

end

end Sys2Proof.Machine

open Sys2Proof Sys2Proof.Machine

/-- Settles O34: the children in the arena are the pops of the merge, which come in key order. -/
theorem treePopsInKeyOrder : Obligations.TreePopsInKeyOrder := by
  intro s c hmem hexec hok
  rw [exec_tree] at hexec
  obtain rfl := State.finished_inj (Host.Outcome.next.inj hexec)
  obtain ⟨d, hdone⟩ := treeStage_done_of_commit_ok hok
  obtain ⟨nodes, last, hmerge⟩ := treeStage_holdsMerge hmem.freq hdone
  rw [hdone]
  exact hmerge.pairwise_childIds
end

section
/-! TREE depends on the frequency map alone (spec/42_tree_builder.md R160). -/

namespace Sys2Proof.Machine

/-- Inside a block, what is read does not depend on the memory that the block was written to. -/
theorem Memory.read_writeBlock_eq (m m' : Memory) (vs : List Word) {n : Nat} (h : n < vs.length) :
    (m.writeBlock 0 vs).read n = (m'.writeBlock 0 vs).read n := by
  have hin : 0 ≤ n ∧ n < 0 + vs.length := by omega
  rw [Memory.read_writeBlock, Memory.read_writeBlock, if_pos hin, if_pos hin]

section
variable {hw : Hardware} {c d : Arch} (h : ∀ x < hw.nSym, c.freq.read x = d.freq.read x)
include h

theorem counted_congr : c.counted hw = d.counted hw :=
  List.filter_congr fun x hx => by rw [h x (List.mem_range.mp hx)]

theorem leafQueue_congr : leafQueue hw c = leafQueue hw d := by
  rw [leafQueue, leafQueue, ← counted_congr h]
  refine List.foldl_ext _ _ _ fun q x hx => ?_
  rw [h x (mem_counted.mp hx).1]

theorem mergeAll_congr : mergeAll hw c = mergeAll hw d := by
  rw [mergeAll, mergeAll, leafQueue_congr h]

theorem arenaWeights_congr (nodes : List Merged) :
    arenaWeights hw c nodes = arenaWeights hw d nodes := by
  have hleaves : (List.range hw.nSym).map c.freq.read = (List.range hw.nSym).map d.freq.read :=
    List.map_congr_left fun x hx => h x (List.mem_range.mp hx)
  rw [arenaWeights, arenaWeights, hleaves]

/-- Where TREE succeeds on two equal maps it leaves the same tree, whatever the arena before. -/
theorem treeStage_done_congr {c' d' : Arch} (hc : treeStage hw c = .done c')
    (hd : treeStage hw d = .done d') :
    c'.root = d'.root ∧ c'.nleaf = d'.nleaf ∧
    ∀ n < hw.arenaDepth,
      c'.nodeW.read n = d'.nodeW.read n ∧ c'.nodeLR.read n = d'.nodeLR.read n := by
  obtain ⟨nodes, last, -, hm, hlen, rfl⟩ := treeStage_done hc
  obtain ⟨nodes', last', -, hm', -, rfl⟩ := treeStage_done hd
  rw [← mergeAll_congr h, hm] at hm'
  cases hm'
  have hcounted := length_counted_le hw c
  have hdepth : nodes.length ≤ hw.nSym - 1 := by omega
  refine ⟨rfl, by rw [counted_congr h], fun n hn => ⟨?_, ?_⟩⟩
  · rw [← arenaWeights_congr h]
    exact Memory.read_writeBlock_eq _ _ _ (by rwa [length_arenaWeights hw c nodes hdepth])
  · exact Memory.read_writeBlock_eq _ _ _ (by rwa [length_arenaChildren hw nodes hdepth])

end

end Sys2Proof.Machine

open Sys2Proof Sys2Proof.Machine

/-- Settles O35: equal maps are both empty, or TREE merges equal queues and writes equal arenas. -/
theorem treeDependsOnFreqOnly : Obligations.TreeDependsOnFreqOnly := by
  intro s u c d hhw hfreq hs hu
  rw [exec_tree] at hs hu
  obtain rfl := State.finished_inj (Host.Outcome.next.inj hs)
  obtain rfl := State.finished_inj (Host.Outcome.next.inj hu)
  rw [← hhw]
  have hcounted := counted_congr hfreq
  by_cases hempty : s.arch.counted s.hw = []
  · rw [treeStage_of_empty hempty, treeStage_of_empty (hcounted ▸ hempty)]
    exact ⟨rfl, nofun⟩
  · obtain ⟨c', hc⟩ := treeStage_of_nonempty hempty
    obtain ⟨d', hd⟩ := treeStage_of_nonempty (hcounted ▸ hempty)
    have hsame := treeStage_done_congr hfreq hc hd
    rw [hc, hd]
    exact ⟨rfl, fun _ => hsame⟩
end

section
/-! How DERIVE ends: with the table of the path codes, with ERR_DEPTH at the least symbol whose path
is too long, or with ERR_NOTREE (spec/43_code_table.md R170 to R174). -/

namespace Sys2Proof.Machine

/-! ### Searching an ascending list -/

/-- What stands before a member of an ascending list is below it. -/
theorem exists_split_of_ascending {l : List Nat} (hl : l.Pairwise (· < ·)) {x : Nat} (hx : x ∈ l) :
    ∃ l₁ l₂, l = l₁ ++ x :: l₂ ∧ ∀ y ∈ l₁, y < x := by
  obtain ⟨l₁, l₂, rfl⟩ := List.append_of_mem hx
  exact ⟨l₁, l₂, rfl, fun y hy => (List.pairwise_append.mp hl).2.2 y hy x List.mem_cons_self⟩

theorem find?_of_least {l : List Nat} (hl : l.Pairwise (· < ·)) {p : Nat → Bool} {x : Nat}
    (hx : x ∈ l) (hp : p x = true) (hleast : ∀ y ∈ l, y < x → ¬ p y = true) :
    l.find? p = some x := by
  obtain ⟨l₁, l₂, rfl, hbelow⟩ := exists_split_of_ascending hl hx
  refine List.find?_eq_some_iff_append.mpr ⟨hp, l₁, l₂, rfl, fun y hy => ?_⟩
  simpa using hleast y (List.mem_append_left _ hy) (hbelow y hy)

theorem findSome?_of_least {β : Type} {l : List Nat} (hl : l.Pairwise (· < ·)) {f : Nat → Option β}
    {x : Nat} {b : β} (hx : x ∈ l) (hf : f x = some b)
    (hleast : ∀ y ∈ l, y < x → f y = none) : l.findSome? f = some b := by
  obtain ⟨l₁, l₂, rfl, hbelow⟩ := exists_split_of_ascending hl hx
  exact List.findSome?_eq_some_iff.mpr ⟨l₁, x, l₂, rfl, hf,
    fun y hy => hleast y (List.mem_append_left _ hy) (hbelow y hy)⟩

/-! ### The depth of the tree -/

namespace Arch.ArenaOk

section
variable {hw : Hardware} {c : Arch} (h : c.ArenaOk hw)
include h

/-- A child in the arena is older than its parent (R43 (c)). -/
theorem child_lt {n : Nat} (hlo : hw.nSym ≤ n) (hn : n ≤ c.root.toNat) (b : Bool) :
    (if b then c.leftOf n else c.rightOf n) < n := by
  obtain ⟨⟨hleft, -⟩, ⟨hright, -⟩, -⟩ := h.children n hn hlo
  cases b
  · exact hright
  · exact hleft

/-- With an internal root, the internal nodes are one fewer than the leaves (R43 (a), (b)). -/
theorem internal_count_eq (hroot : hw.nSym ≤ c.root.toNat) :
    c.root.toNat + 1 - hw.nSym = c.nleaf.toNat - 1 := by
  obtain ⟨hnleaf, hpos⟩ := h.leafCount
  have htwo : 2 ≤ (c.counted hw).length := by
    by_contra hlt
    have hone : (c.counted hw).length = 1 := by omega
    have hmem : c.root.toNat ∈ c.counted hw := by simp [h.loneRoot hone]
    have := (mem_counted.mp hmem).1
    omega
  have := h.lastRoot htwo
  omega

variable {code : Nat → Bits} (hp : c.PathCodes hw code)
include hp

/-- Each edge of a path leads to an older node, so a path has at most as many edges as there are
internal nodes from its end, or the oldest internal node, up to ROOT. -/
theorem length_code_add_le (hroot : hw.nSym ≤ c.root.toNat) {x : Nat} (hx : c.IsNode hw x) :
    (code x).length + max x (hw.nSym - 1) ≤ c.root.toNat := by
  by_cases hne : x = c.root.toNat
  · rw [hne, hp.root hroot, List.length_nil]
    omega
  · obtain ⟨n, b, hlo, hn, hchild, hcode⟩ := h.exists_parent hp hx hne
    have hlt : x < n := hchild ▸ h.child_lt hlo hn b
    have hparent := length_code_add_le hroot (.inr ⟨hlo, hn⟩)
    rw [hcode, List.length_append, List.length_singleton]
    omega
termination_by c.root.toNat - x

/-- No path is longer than `NLEAF - 1` edges (R173). -/
theorem length_code_le (hroot : hw.nSym ≤ c.root.toNat) {x : Nat} (hx : c.IsNode hw x) :
    (code x).length ≤ c.nleaf.toNat - 1 := by
  have hdepth := h.length_code_add_le hp hroot hx
  have hcount := h.internal_count_eq hroot
  have hpos := hw.nSym_pos
  omega

end

end Arch.ArenaOk

/-! ### The ends of DERIVE -/

section
variable {hw : Hardware} {c : Arch} (htree : c.treeValid = true) (harena : c.ArenaOk hw)
include htree harena

theorem deriveStage_of_fits
    (hfits : ∀ x ∈ c.counted hw, (codeOf (treeCodes hw c) x).length ≤ hw.maxlen) :
    ∃ d, deriveStage hw c = .done d := by
  obtain ⟨hno, -⟩ | ⟨x, -, hfind, -⟩ | ⟨-, -, hdone⟩ := deriveStage_cases hw c
  · exact absurd htree (by simp [hno])
  · have hfit := hfits x (harena.mem_treeLeaves.mp (List.mem_of_find?_eq_some hfind))
    have hdeep : hw.maxlen < (codeOf (treeCodes hw c) x).length := by
      simpa using List.find?_some hfind
    omega
  · exact ⟨_, hdone⟩

/-- DERIVE reports the least symbol whose path does not fit, and its depth (R170, R173). -/
theorem deriveStage_of_tooDeep {x : Nat} (hx : x ∈ c.counted hw)
    (hdeep : hw.maxlen < (codeOf (treeCodes hw c) x).length)
    (hleast : ∀ y ∈ c.counted hw, y < x → (codeOf (treeCodes hw c) y).length ≤ hw.maxlen) :
    deriveStage hw c = .raised .depth (halves (codeOf (treeCodes hw c) x).length x) c := by
  have hfind : (treeLeaves hw c).find?
      (fun s => decide (hw.maxlen < (codeOf (treeCodes hw c) s).length)) = some x := by
    refine find?_of_least (List.pairwise_lt_range.filter _) (harena.mem_treeLeaves.mpr hx)
      (decide_eq_true hdeep) fun y hy hlt => ?_
    have := hleast y (harena.mem_treeLeaves.mp hy) hlt
    simpa using this
  obtain ⟨hno, -⟩ | ⟨y, -, hfound, hraised⟩ | ⟨-, hfits, -⟩ := deriveStage_cases hw c
  · exact absurd htree (by simp [hno])
  · obtain rfl : x = y := Option.some.inj (hfind.symm.trans hfound)
    exact hraised
  · have := hfits x (harena.mem_treeLeaves.mpr hx)
    omega

end

/-- What a DERIVE that succeeds may change: the table and CT_VALID. -/
theorem deriveStage_frame {hw : Hardware} {c d : Arch} (h : deriveStage hw c = .done d) :
    d = { c with ctLen := d.ctLen, ctCode := d.ctCode, ctValid := true } ∧
    c.ctLen.SameOutside d.ctLen 0 hw.nSym ∧ c.ctCode.SameOutside d.ctCode 0 hw.nSym := by
  obtain ⟨-, -, rfl⟩ := deriveStage_done h
  have hlen := c.ctLen.sameOutside_writeBlock 0 (tableColumn hw c (treeCodes hw c) List.length)
  have hcode := c.ctCode.sameOutside_writeBlock 0 (tableColumn hw c (treeCodes hw c) bitsVal)
  rw [length_tableColumn, Nat.zero_add] at hlen hcode
  exact ⟨rfl, hlen, hcode⟩

theorem exec_derive_of_done {s : State} {d : Arch} (h : deriveStage s.hw s.arch = .done d) :
    exec .derive s = .next (s.finished { s.arch with
      ctLen := d.ctLen, ctCode := d.ctCode, ctValid := true, err := .ok, errInfo := 0#32 }) := by
  rw [exec_derive, h, (deriveStage_frame h).1]
  rfl

/-- A command that ends with OK has not raised. -/
theorem RaisesPrecisely.done_of_commit_ok {stage : Hardware → Arch → Result}
    (hs : RaisesPrecisely stage) {hw : Hardware} {c : Arch} (hok : (stage hw c).commit.err = .ok) :
    ∃ d, stage hw c = .done d := by
  obtain ⟨d, hd, -⟩ | ⟨e, info, he, hcommit⟩ := hs.commit_cases hw c
  · exact ⟨d, hd⟩
  · rw [hcommit] at hok
    exact absurd hok he

end Sys2Proof.Machine

open Sys2Proof Sys2Proof.Machine

/-- Settles O36: the path codes are those that DERIVE's own walk binds. -/
theorem deriveBindsPathCodes : Obligations.DeriveBindsPathCodes := by
  refine ⟨fun s hinv htree => ?_, fun s => exec_derive_of_noTree⟩
  have harena := hinv.arena htree
  have hcodes := harena.pathCodes_treeCodes
  refine ⟨codeOf (treeCodes s.hw s.arch), hcodes, fun hroot x hx => ?_, fun hfits => ?_,
    fun x hx hdeep hleast => ?_⟩
  · exact harena.length_code_le hcodes hroot (.inl (mem_counted.mp hx))
  · obtain ⟨d, hdone⟩ := deriveStage_of_fits htree harena hfits
    obtain ⟨-, hlen, hcode⟩ := deriveStage_frame hdone
    refine ⟨d.ctLen, d.ctCode, exec_derive_of_done hdone, fun x hx => ?_, fun x hsym hx => ?_, hlen,
      hcode⟩
    · obtain ⟨hlength, hvalue, -⟩ := deriveStage_leaf harena hdone hx
      exact ⟨hlength, hvalue⟩
    · exact deriveStage_absent harena hdone hsym hx
  · rw [exec_derive, deriveStage_of_tooDeep htree harena hx hdeep hleast]
    rfl

/-- Settles O37: a DERIVE that succeeds gives a codeword to exactly the leaves of the tree, which
the arena invariant makes the counted symbols. -/
theorem deriveEstablishesPrefixCode : Obligations.DeriveEstablishesPrefixCode := by
  intro s c hinv htree hexec hok
  have harena := hinv.arena htree
  rw [exec_derive] at hexec
  obtain rfl := State.finished_inj (Host.Outcome.next.inj hexec)
  obtain ⟨d, hdone⟩ := deriveStage_raisesPrecisely.done_of_commit_ok hok
  obtain ⟨hframe, -, -⟩ := deriveStage_frame hdone
  have hnodeW : d.nodeW = s.arch.nodeW := by rw [hframe]
  have hfreq : d.freq = s.arch.freq := by rw [hframe]
  have hvalid : d.ctValid = true := by rw [hframe]
  rw [hdone]
  refine ⟨fun x hx => ?_, { deriveStage_ctOk harena hdone with }, hvalid⟩
  have hpresent : 0 < (d.ctLen.read x).toNat ↔ 0 < (d.freq.read x).toNat := by
    rw [deriveStage_present harena hdone hx, mem_counted, hfreq]
    exact and_iff_right hx
  refine ⟨hpresent.trans ?_, hpresent⟩
  change 0 < (d.freq.read x).toNat ↔ 0 < (d.nodeW.read x).toNat
  rw [hnodeW, hfreq, harena.leafWeights x hx]

/-- Settles O38: a lone leaf's path has one edge, which `MAXLEN` always admits, and any other path
has at most `NLEAF - 1`. -/
theorem deriveSucceedsWithinDepth : Obligations.DeriveSucceedsWithinDepth := by
  intro s hinv htree hbound
  have harena := hinv.arena htree
  have hcodes := harena.pathCodes_treeCodes
  have hfits : ∀ x ∈ s.arch.counted s.hw,
      (codeOf (treeCodes s.hw s.arch) x).length ≤ s.hw.maxlen := by
    intro x hx
    have hnode : s.arch.IsNode s.hw x := .inl (mem_counted.mp hx)
    by_cases hlone : s.arch.root.toNat < s.hw.nSym
    · rw [harena.eq_root_of_lone hlone hnode, hcodes.loneLeaf hlone, List.length_singleton]
      obtain ⟨-, -, -, -, hmaxlen, -⟩ := s.hw.ok
      exact hmaxlen
    · exact (harena.length_code_le hcodes (by omega) hnode).trans hbound
  obtain ⟨d, hdone⟩ := deriveStage_of_fits htree harena hfits
  exact ⟨d.ctLen, d.ctCode, exec_derive_of_done hdone⟩
end

section
/-! How CTCHK ends, in the order of its tests, and what CTCLR leaves (spec/43_code_table.md R176 to
R180; spec/60_exceptions.md R241, R245). -/

namespace Sys2Proof.Machine

section
variable {hw : Hardware} {c : Arch}

/-! ### The tests of CTCHK -/

theorem entryMalformed_iff {x : Nat} : entryMalformed hw c x = true ↔
    hw.maxlen < (c.ctLen.read x).toNat ∨ 2 ^ (c.ctLen.read x).toNat ≤ (c.ctCode.read x).toNat := by
  simp [entryMalformed]

theorem find?_entryMalformed_none (h : ∀ x < hw.nSym, ¬ entryMalformed hw c x = true) :
    (List.range hw.nSym).find? (entryMalformed hw c) = none :=
  List.find?_eq_none.mpr fun x hx => h x (List.mem_range.mp hx)

theorem ascending_coded : (c.coded hw).Pairwise (· < ·) := List.pairwise_lt_range.filter _

theorem prefixVictim_none {x : Nat}
    (h : ∀ t ∈ c.coded hw, t ≠ x → ¬ c.codeword x <+: c.codeword t) :
    prefixVictim hw c x = none :=
  List.find?_eq_none.mpr fun t ht => by simpa using h t ht

theorem prefixVictim_some {x t : Nat} (h : prefixVictim hw c x = some t) :
    t ∈ c.coded hw ∧ t ≠ x ∧ c.codeword x <+: c.codeword t :=
  ⟨List.mem_of_find?_eq_some h, by simpa using List.find?_some h⟩

theorem prefixPair_some {x t : Nat} (h : prefixPair hw c = some (x, t)) :
    x ∈ c.coded hw ∧ t ∈ c.coded hw ∧ t ≠ x ∧ c.codeword x <+: c.codeword t := by
  obtain ⟨y, hy, hpair⟩ := List.exists_of_findSome?_eq_some h
  obtain ⟨u, hvictim, heq⟩ := Option.map_eq_some_iff.mp hpair
  cases heq
  exact ⟨hy, prefixVictim_some hvictim⟩

/-- The double loop finds the least symbol whose codeword begins another, and its least victim
(R176). -/
theorem prefixPair_of_least {x t : Nat} (hx : x ∈ c.coded hw) (ht : t ∈ c.coded hw) (hne : t ≠ x)
    (hpre : c.codeword x <+: c.codeword t)
    (hfirst : ∀ y ∈ c.coded hw, y < x → ∀ u ∈ c.coded hw, u ≠ y →
      ¬ c.codeword y <+: c.codeword u)
    (hleast : ∀ u ∈ c.coded hw, u < t → u ≠ x → ¬ c.codeword x <+: c.codeword u) :
    prefixPair hw c = some (x, t) := by
  have hvictim : prefixVictim hw c x = some t := by
    refine find?_of_least ascending_coded ht (by simpa using ⟨hne, hpre⟩) fun u hu hlt => ?_
    simpa using hleast u hu hlt
  refine findSome?_of_least ascending_coded hx (by simp [hvictim]) fun y hy hlt => ?_
  simp [prefixVictim_none (hfirst y hy hlt)]

/-! ### The ends of CTCHK -/

theorem ctchkStage_of_malformed {x : Nat} (hx : x < hw.nSym) (hbad : entryMalformed hw c x = true)
    (hleast : ∀ y < x, ¬ entryMalformed hw c y = true) :
    ctchkStage hw c = .raised .entry (BitVec.ofNat 32 x) c := by
  rw [ctchkStage, find?_of_least List.pairwise_lt_range (List.mem_range.mpr hx) hbad
    fun y _ => hleast y]

section
variable (hwell : ∀ x < hw.nSym, ¬ entryMalformed hw c x = true)
include hwell

theorem ctchkStage_of_empty (hempty : c.coded hw = []) :
    ctchkStage hw c = .raised .empty 0#32 c := by
  rw [ctchkStage, find?_entryMalformed_none hwell, hempty]
  rfl

theorem ctchkStage_of_prefixPair {x t : Nat} (hpair : prefixPair hw c = some (x, t)) :
    ctchkStage hw c = .raised .prefixClash (halves t x) c := by
  have hne : (c.coded hw).isEmpty = false :=
    List.isEmpty_eq_false_iff_exists_mem.mpr ⟨x, (prefixPair_some hpair).1⟩
  rw [ctchkStage, find?_entryMalformed_none hwell, hne, hpair]
  rfl

end

/-- CTCHK succeeds on a table that meets CTOK: each way to fail names a clause that does not hold
(R178). -/
theorem ctchkStage_of_ctOk (h : c.CtOk hw) :
    ctchkStage hw c = .done { c with ctValid := true } := by
  obtain ⟨x, hbad, -⟩ | ⟨-, hempty, -⟩ | ⟨x, t, -, -, hpair, -⟩ | ⟨-, -, -, hdone⟩ :=
    ctchkStage_cases hw c
  · have hx := List.mem_range.mp (List.mem_of_find?_eq_some hbad)
    have hlen := h.lengths x hx
    have hcode := h.codes x hx
    have := entryMalformed_iff.mp (List.find?_some hbad)
    omega
  · obtain ⟨x, hx⟩ := h.nonempty
    exact absurd (mem_coded.mpr hx) (by simp [hempty])
  · obtain ⟨hx, ht, hne, hpre⟩ := prefixPair_some hpair
    obtain ⟨hxsym, hxpos⟩ := mem_coded.mp hx
    obtain ⟨htsym, htpos⟩ := mem_coded.mp ht
    exact absurd hpre (h.prefixFree x hxsym t htsym hne.symm hxpos htpos)
  · exact hdone

theorem ctOk_of_ctchkStage_done {d : Arch} (h : ctchkStage hw c = .done d) : c.CtOk hw := by
  have hd := ctchkStage_ctOk h
  obtain ⟨-, -, -, rfl⟩ := ctchkStage_done h
  exact { hd with }

end

/-! ### Codewords and their numbers -/

/-- The first bits of a sequence are the value without its last bits. -/
theorem take_bitsSeq {n m : Nat} (v : Nat) (h : n ≤ m) :
    (bitsSeq v m).take n = bitsSeq (v >>> (m - n)) n := by
  refine List.ext_getElem (by simpa using h) fun i hi hi' => ?_
  have hbit : m - n + (n - 1 - i) = m - 1 - i := by
    rw [length_bitsSeq] at hi'
    omega
  simp [bitsSeq, Nat.testBit_shiftRight, hbit]

theorem bitsSeq_inj {v w n : Nat} (hv : v < 2 ^ n) (hw : w < 2 ^ n) :
    bitsSeq v n = bitsSeq w n ↔ v = w := by
  refine ⟨fun h => ?_, fun h => by rw [h]⟩
  rw [← bitsVal_bitsSeq v n hv, h, bitsVal_bitsSeq w n hw]

/-- One sequence begins another exactly if the other's value, without the bits that the first does
not have, is its value (R176). -/
theorem bitsSeq_prefix_iff {v n w m : Nat} (hv : v < 2 ^ n) (hw : w < 2 ^ m) :
    bitsSeq v n <+: bitsSeq w m ↔ n ≤ m ∧ w >>> (m - n) = v := by
  by_cases hle : n ≤ m
  · have hshift : w >>> (m - n) < 2 ^ n := by
      rw [Nat.shiftRight_eq_div_pow, Nat.div_lt_iff_lt_mul (Nat.two_pow_pos _), ← pow_add,
        Nat.add_sub_cancel' hle]
      exact hw
    rw [List.prefix_iff_eq_take, length_bitsSeq, take_bitsSeq w hle, bitsSeq_inj hv hshift]
    simp [hle, eq_comm]
  · refine iff_of_false (fun hpre => hle ?_) fun h => hle h.1
    simpa using hpre.length_le

/-! ### CTCLR -/

theorem read_clearBlock (m : Memory) {n x : Nat} (h : x < n) :
    (m.writeBlock 0 (List.replicate n 0#32)).read x = 0#32 := by
  rw [Memory.read_writeBlock, if_pos (by simpa using h)]
  simp [h]

theorem sameOutside_clearBlock (m : Memory) (n : Nat) :
    m.SameOutside (m.writeBlock 0 (List.replicate n 0#32)) 0 n := by
  simpa using m.sameOutside_writeBlock 0 (List.replicate n 0#32)

end Sys2Proof.Machine

open Sys2Proof Sys2Proof.Machine

/-- Settles O39: CTCHK is done exactly on a table that meets CTOK, and R42 excludes CT_VALID on any
other table. -/
theorem ctchkDecidesCtOk : Obligations.CtchkDecidesCtOk := by
  intro s
  refine ⟨fun hok => ?_, fun hnot => ⟨?_, fun hinv => ?_⟩⟩
  · rw [exec_ctchk, ctchkStage_of_ctOk hok]
    rfl
  · rw [exec_ctchk]
    obtain ⟨d, hdone, -⟩ | ⟨e, info, he, hcommit⟩ :=
      ctchkStage_raisesPrecisely.commit_cases s.hw s.arch
    · exact absurd (ctOk_of_ctchkStage_done hdone) hnot
    · rw [hcommit]
      exact ⟨e, info, he, rfl⟩
  · exact Bool.eq_false_iff.mpr fun hvalid => hnot (hinv.table hvalid)

/-- Settles O40, test by test. -/
theorem ctchkReportsTheFirstFault : Obligations.CtchkReportsTheFirstFault := by
  intro s malformed present clash
  refine ⟨fun x hx hbad hleast => ?_, fun hwell hempty => ?_,
    fun hwell x t hclash hfirst hleast => ?_⟩
  · rw [exec_ctchk, ctchkStage_of_malformed hx (entryMalformed_iff.mpr hbad)
      fun y hy => mt entryMalformed_iff.mp (hleast y hy)]
    rfl
  · rw [exec_ctchk, ctchkStage_of_empty (fun y hy => mt entryMalformed_iff.mp (hwell y hy))
      (List.eq_nil_iff_forall_not_mem.mpr fun y => mt mem_coded.mp (hempty y))]
    rfl
  · obtain ⟨hx, ht, hne, hpre⟩ := hclash
    have hpair : prefixPair s.hw s.arch = some (x, t) :=
      prefixPair_of_least (mem_coded.mpr hx) (mem_coded.mpr ht) hne hpre
        (fun y hy hlt u hu huy hyu => hfirst y hlt u ⟨mem_coded.mp hy, mem_coded.mp hu, huy, hyu⟩)
        (fun u hu hlt hux hxu => hleast u hlt ⟨hx, mem_coded.mp hu, hux, hxu⟩)
    rw [exec_ctchk,
      ctchkStage_of_prefixPair (fun y hy => mt entryMalformed_iff.mp (hwell y hy)) hpair]
    rfl

/-- Settles O41: a codeword is the bit sequence of its stored number. -/
theorem prefixTestInNumbers : Obligations.PrefixTestInNumbers :=
  fun _ _ _ => bitsSeq_prefix_iff

/-- Settles O42, by the two blocks of zeros that CTCLR writes. -/
theorem ctclrClearsTheTable : Obligations.CtclrClearsTheTable := by
  intro s
  refine ⟨_, _, ?_, fun x hx => ⟨read_clearBlock _ hx, read_clearBlock _ hx⟩,
    sameOutside_clearBlock _ _, sameOutside_clearBlock _ _⟩
  rw [exec_ctclr, ctclrStage_eq]
  rfl
end

section
/-! BUILD is FREQ, TREE and DERIVE run one after the other (spec/44_construction.md R190). -/

namespace Sys2Proof.Machine

/-! ### The stages do not read the result of the command before -/

theorem walkDown_record (hw : Hardware) (c : Arch) (e : ErrCode) (info : Word) (count : Nat)
    (codes : Codes) : walkDown hw (c.record e info) count codes = walkDown hw c count codes := by
  induction count generalizing codes with
  | zero => rfl
  | succ count ih => exact ih _

theorem treeCodes_record (hw : Hardware) (c : Arch) (e : ErrCode) (info : Word) :
    treeCodes hw (c.record e info) = treeCodes hw c := by
  rw [treeCodes, treeCodes, Arch.record_root, walkDown_record]

/-- How TREE ends does not depend on ERR and ERRINFO. -/
theorem treeStage_commit_record (hw : Hardware) (c : Arch) (e : ErrCode) (info : Word) :
    (treeStage hw (c.record e info)).commit = (treeStage hw c).commit := by
  have hmerge : mergeAll hw (c.record e info) = mergeAll hw c := rfl
  rw [treeStage, treeStage, hmerge]
  obtain ⟨nodes, _ | ⟨last, rest⟩⟩ := mergeAll hw c <;> rfl

/-- How DERIVE ends does not depend on ERR and ERRINFO. -/
theorem deriveStage_commit_record (hw : Hardware) (c : Arch) (e : ErrCode) (info : Word) :
    (deriveStage hw (c.record e info)).commit = (deriveStage hw c).commit := by
  have hleaves : treeLeaves hw (c.record e info) = treeLeaves hw c := rfl
  rw [deriveStage, deriveStage, Arch.record_treeValid, treeCodes_record, hleaves]
  split
  next => rfl
  next =>
    dsimp only
    split <;> rfl

/-! ### BUILD as three commands -/

section
variable {hw : Hardware} {c : Arch}

/-- BUILD ends as the first of the three commands that raises, or as the last. -/
theorem buildStage_commit {c₁ c₂ : Arch} (h₁ : (freqStage hw c).commit = c₁)
    (h₂ : (treeStage hw c₁).commit = c₂) : (buildStage hw c).commit =
      if c₁.err ≠ .ok then c₁ else if c₂.err ≠ .ok then c₂
      else (deriveStage hw c₂).commit := by
  obtain ⟨e, info, hf, hb⟩ | ⟨d₁, e, info, hf, ht, hb⟩ | ⟨d₁, d₂, hf, ht, hb⟩ :=
    buildStage_cases hw c
  all_goals
    rw [hf] at h₁
    subst h₁
  · obtain ⟨rfl, -⟩ := freqStage_raised hf
    rw [hb]
    rfl
  · obtain ⟨rfl, -⟩ := treeStage_raised ht
    rw [Result.commit_done, treeStage_commit_record, ht] at h₂
    rw [hb, ← h₂]
    rfl
  · rw [Result.commit_done, treeStage_commit_record, ht] at h₂
    rw [hb, ← h₂, Result.commit_done d₂, deriveStage_commit_record]
    rfl

theorem treeValid_of_treeStage_ok (hok : (treeStage hw c).commit.err = .ok) :
    (treeStage hw c).commit.treeValid = true := by
  rw [treeStage_raisesPrecisely.commit_treeValid fun hd => (treeStage_flags hd).2, if_pos hok]

/-- With TREE_VALID 1 DERIVE does not miss a tree, and if it succeeds both flags are 1. -/
theorem deriveStage_of_treeValid (htree : c.treeValid = true) :
    (deriveStage hw c).commit.err ≠ .noTree ∧ ((deriveStage hw c).commit.err = .ok →
      (deriveStage hw c).commit.treeValid = true ∧ (deriveStage hw c).commit.ctValid = true) := by
  cases h : deriveStage hw c with
  | raised e info d =>
    obtain ⟨rfl, -⟩ := deriveStage_raised htree h
    exact ⟨nofun, nofun⟩
  | done d =>
    obtain ⟨hct, ht⟩ := deriveStage_flags h
    exact ⟨nofun, fun _ => ⟨ht.trans htree, hct⟩⟩

end

end Sys2Proof.Machine

open Sys2Proof Sys2Proof.Machine

/-- Settles O43: the three commands are run on the states that the ones before them leave, and BUILD
commits what they commit. -/
theorem buildIsItsThreeStages : Obligations.BuildIsItsThreeStages := by
  intro s
  refine ⟨_, _, _, exec_freq s, exec_tree _, exec_derive _, ?_,
    fun _ htree => deriveStage_of_treeValid (treeValid_of_treeStage_ok htree)⟩
  rw [exec_build, buildStage_commit rfl rfl]
  rfl
end

section
/-! How BUILD ends on each text, and what a successful one promises to ENCODE
(spec/44_construction.md R190 to R194). -/

namespace Sys2Proof.Machine

/-! ### A text that FREQ or TREE refuses -/

theorem buildStage_of_tooLong {hw : Hardware} {c : Arch} (hlong : hw.textCap < c.textLen.toNat) :
    buildStage hw c = .raised .length c.textLen c := by
  rw [buildStage, freqStage_of_tooLong hlong]
  rfl

/-- The empty text leaves an empty map, from which TREE builds nothing (R192). -/
theorem buildStage_of_noText {hw : Hardware} {c : Arch} (hnone : c.textLen = 0#32) :
    ∃ m, buildStage hw c = .raised .empty 0#32 { c with freq := m, treeValid := false } ∧
      (∀ x < hw.nSym, m.read x = 0#32) ∧ c.freq.SameOutside m 0 hw.nSym := by
  have hlen : c.textLen.toNat = 0 := by rw [hnone]; rfl
  have htext : c.currentText = [] := List.length_eq_zero_iff.mp ((length_currentText c).trans hlen)
  obtain ⟨m, hdone, hcounts, hframe⟩ := freqStage_of_fits (hw := hw) (c := c) (by omega)
  have hzero : ∀ x < hw.nSym, (m.read x).toNat = 0 := by simpa [htext] using hcounts
  refine ⟨m, ?_, fun x hx => BitVec.eq_of_toNat_eq (hzero x hx), hframe⟩
  rw [buildStage, hdone, Result.andThen_done, treeStage_of_empty (counted_eq_nil_iff.mpr hzero),
    Result.andThen_raised]

/-- A BUILD that succeeds had a text, and one that fits. -/
theorem text_of_buildStage_ok {hw : Hardware} {c : Arch}
    (hok : (buildStage hw c).commit.err = .ok) :
    c.textLen ≠ 0#32 ∧ c.textLen.toNat ≤ hw.textCap := by
  constructor
  · intro hnone
    obtain ⟨m, hb, -⟩ := buildStage_of_noText (hw := hw) hnone
    rw [hb] at hok
    cases hok
  · by_contra hlong
    rw [buildStage_of_tooLong (by omega)] at hok
    cases hok

/-! ### The tree of the text -/

/-- `d` is what FREQ and TREE leave of `c` when both succeed: the counts of the text and their tree,
nothing else changed. -/
structure Arch.TreeOfText (hw : Hardware) (c d : Arch) : Prop where
  frame : d = { c with freq := d.freq, nodeW := d.nodeW, nodeLR := d.nodeLR, root := d.root,
                       nleaf := d.nleaf, treeValid := true }
  counts : ∀ x < hw.nSym, (d.freq.read x).toNat = c.currentText.count x
  leaves : ∀ x, x ∈ d.counted hw ↔ x ∈ c.currentText
  arena : d.ArenaOk hw
  freqOutside : c.freq.SameOutside d.freq 0 hw.nSym
  nodeWOutside : c.nodeW.SameOutside d.nodeW 0 hw.arenaDepth
  nodeLROutside : c.nodeLR.SameOutside d.nodeLR 0 hw.arenaDepth

/-- The counted symbols are those of the text, which are all in the alphabet (R33, R140). -/
theorem mem_counted_of_counts {hw : Hardware} {c d : Arch} (htext : c.text.Ok hw.textCap hw.symw)
    (hcounts : ∀ x < hw.nSym, (d.freq.read x).toNat = c.currentText.count x) (x : Nat) :
    x ∈ d.counted hw ↔ x ∈ c.currentText := by
  rw [mem_counted]
  constructor
  · rintro ⟨hx, hpos⟩
    rwa [hcounts x hx, List.count_pos_iff] at hpos
  · intro hmem
    have hx := lt_nSym_of_mem_currentText htext hmem
    exact ⟨hx, by rwa [hcounts x hx, List.count_pos_iff]⟩

/-- On a text that fits and is not empty FREQ and TREE succeed, and DERIVE ends BUILD. -/
theorem buildStage_of_text {hw : Hardware} {c : Arch} (hmem : c.MemoriesOk hw)
    (hsome : c.textLen ≠ 0#32) (hfits : c.textLen.toNat ≤ hw.textCap) :
    ∃ d, c.TreeOfText hw d ∧ buildStage hw c = deriveStage hw d := by
  obtain ⟨m, hfreq, hcounts, hfreqOut⟩ := freqStage_of_fits hfits
  have hleaves := mem_counted_of_counts (d := { c with freq := m, treeValid := false }) hmem.text
    hcounts
  obtain ⟨x, hx⟩ : ∃ x, x ∈ c.currentText := by
    refine List.exists_mem_of_length_pos ?_
    rw [length_currentText]
    exact Nat.pos_of_ne_zero fun hzero => hsome (BitVec.eq_of_toNat_eq hzero)
  obtain ⟨d, htree⟩ := treeStage_of_nonempty (List.ne_nil_of_mem ((hleaves x).mpr hx))
  obtain ⟨hframe, hweights, hchildren⟩ := treeStage_frame htree
  have hmap : d.freq = m := by rw [hframe]
  refine ⟨d, {
    frame := by rw [hframe]
    counts := by rwa [hmap]
    leaves := mem_counted_of_counts hmem.text (by rwa [hmap])
    arena := treeStage_arenaOk (freqStage_memoriesOk hfreq hmem).freq htree
    freqOutside := by rwa [hmap]
    nodeWOutside := hweights
    nodeLROutside := hchildren }, ?_⟩
  rw [buildStage, hfreq, Result.andThen_done, htree, Result.andThen_done]

theorem Arch.TreeOfText.treeValid {hw : Hardware} {c d : Arch} (h : c.TreeOfText hw d) :
    d.treeValid = true := by rw [h.frame]

/-- The tree has a leaf for each different symbol of the text. -/
theorem Arch.TreeOfText.nleaf_eq {hw : Hardware} {c d : Arch} (h : c.TreeOfText hw d) :
    d.nleaf.toNat = c.currentText.dedup.length := by
  have hperm : (d.counted hw).Perm c.currentText.dedup :=
    (List.perm_ext_iff_of_nodup (nodup_counted hw d) (List.nodup_dedup _)).mpr fun x => by
      rw [h.leaves, List.mem_dedup]
  rw [h.arena.leafCount.1, hperm.length_eq]

/-! ### How DERIVE ends on a good tree -/

section
variable {hw : Hardware} {c : Arch} (harena : c.ArenaOk hw)
include harena

/-- The path of a leaf has one edge, the lone leaf's, or at most `NLEAF - 1` (R172, R173). -/
theorem Arch.ArenaOk.length_leafCode_le {code : Nat → Bits} (hp : c.PathCodes hw code) {x : Nat}
    (hx : x ∈ c.counted hw) : (code x).length ≤ max 1 (c.nleaf.toNat - 1) := by
  have hnode : c.IsNode hw x := .inl (mem_counted.mp hx)
  by_cases hlone : c.root.toNat < hw.nSym
  · rw [harena.eq_root_of_lone hlone hnode, hp.loneLeaf hlone]
    exact le_max_left _ _
  · exact (harena.length_code_le hp (by omega) hnode).trans (le_max_right _ _)

/-- The length of a leaf's path fits the half word of ERRINFO that reports it (R241). -/
theorem Arch.ArenaOk.length_leafCode_lt {code : Nat → Bits} (hp : c.PathCodes hw code) {x : Nat}
    (hx : x ∈ c.counted hw) : (code x).length < 2 ^ 16 := by
  have hpath := harena.length_leafCode_le hp hx
  have hleaves := length_counted_le hw c
  have hsize := hw.nSym_le
  rw [harena.leafCount.1] at hpath
  omega

/-- DERIVE succeeds, or it reports the least symbol whose path does not fit (R173). -/
theorem deriveStage_ends (htree : c.treeValid = true) :
    (∃ d, deriveStage hw c = .done d) ∨
    ∃ x ∈ c.counted hw, hw.maxlen < (codeOf (treeCodes hw c) x).length ∧
      (∀ y ∈ c.counted hw, y < x → (codeOf (treeCodes hw c) y).length ≤ hw.maxlen) ∧
      deriveStage hw c = .raised .depth (halves (codeOf (treeCodes hw c) x).length x) c := by
  by_cases hfits : ∀ x ∈ c.counted hw, (codeOf (treeCodes hw c) x).length ≤ hw.maxlen
  · exact .inl (deriveStage_of_fits htree harena hfits)
  · push Not at hfits
    obtain ⟨hx, hdeep⟩ := Nat.find_spec hfits
    have hleast : ∀ y ∈ c.counted hw, y < Nat.find hfits →
        (codeOf (treeCodes hw c) y).length ≤ hw.maxlen :=
      fun y hy hlt => not_lt.mp fun hdeep => Nat.find_min hfits hlt ⟨hy, hdeep⟩
    exact .inr ⟨_, hx, hdeep, hleast, deriveStage_of_tooDeep htree harena hx hdeep hleast⟩

end

/-! ### ENCODE on a text with codewords -/

/-- ENCODE succeeds if every symbol of the text has a codeword and the output fits BITS (R200). -/
theorem encodeStage_of_coded {hw : Hardware} {c : Arch} (hvalid : c.ctValid = true)
    (hfits : c.textLen.toNat ≤ hw.textCap)
    (hcoded : ∀ x ∈ c.currentText, 0 < (c.ctLen.read x).toNat)
    (hout : encodedLength c ≤ 8 * hw.bitsCap) : ∃ d, encodeStage hw c = .done d := by
  obtain ⟨hno, -⟩ | ⟨-, hlong, -⟩ | ⟨i, -, -, hfind, -⟩ | ⟨-, -, -, hover, -⟩ |
    ⟨-, -, -, -, hdone⟩ := encodeStage_cases hw c
  · exact absurd hvalid (by simp [hno])
  · omega
  · have hzero : (c.ctLen.read (c.symbolAt i)).toNat = 0 := by simpa using List.find?_some hfind
    have hpos := hcoded _ (List.mem_map_of_mem (List.mem_of_find?_eq_some hfind))
    omega
  · omega
  · exact ⟨_, hdone⟩

end Sys2Proof.Machine

open Sys2Proof Sys2Proof.Machine

/-- Settles O44: a text that FREQ refuses, a text that TREE refuses, and any other, on which only
DERIVE can fail, with the table untouched. -/
theorem failedBuildCases : Obligations.FailedBuildCases := by
  refine ⟨fun s hlong => ?_, fun s hnone => ?_, fun s hmem hsome hfits => ?_⟩
  · rw [exec_build, buildStage_of_tooLong hlong]
    rfl
  · obtain ⟨m, hb, hzero, hframe⟩ := buildStage_of_noText (hw := s.hw) hnone
    refine ⟨m, ?_, hzero, hframe⟩
    rw [exec_build, hb]
    rfl
  · obtain ⟨d, htext, hb⟩ := buildStage_of_text hmem hsome hfits
    refine ⟨_, exec_build s, fun herr => ?_⟩
    rw [hb] at herr ⊢
    obtain ⟨_, hdone⟩ | ⟨x, hx, hdeep, hleast, hraised⟩ :=
      deriveStage_ends htext.arena htext.treeValid
    · rw [hdone] at herr
      exact absurd rfl herr
    have hcodes := htext.arena.pathCodes_treeCodes
    rw [hraised]
    refine ⟨?_, htext.counts, { htext.arena with }, htext.freqOutside, htext.nodeWOutside,
      htext.nodeLROutside, codeOf (treeCodes s.hw d), x, { hcodes with }, (htext.leaves x).mp hx,
      hdeep, htext.arena.length_leafCode_lt hcodes hx,
      fun y hy => hleast y ((htext.leaves y).mpr hy), rfl⟩
    rw [htext.frame]
    rfl

/-- Settles O45: with at most `MAXLEN + 1` leaves every path of the text's tree fits, so DERIVE
succeeds. -/
theorem buildSucceeds : Obligations.BuildSucceeds := by
  intro s hmem hsome hfits hfew
  obtain ⟨d, htext, hb⟩ := buildStage_of_text hmem hsome hfits
  have hpaths : ∀ x ∈ d.counted s.hw, (codeOf (treeCodes s.hw d) x).length ≤ s.hw.maxlen := by
    intro x hx
    have hpath := htext.arena.length_leafCode_le htext.arena.pathCodes_treeCodes hx
    obtain ⟨-, -, -, -, hmaxlen, -⟩ := s.hw.ok
    rw [htext.nleaf_eq] at hpath
    omega
  obtain ⟨t, hdone⟩ := deriveStage_of_fits htext.treeValid htext.arena hpaths
  have hctOk := deriveStage_ctOk htext.arena hdone
  obtain ⟨hframe, hlen, hcode⟩ := deriveStage_frame hdone
  rw [htext.frame] at hlen hcode
  refine ⟨t.record .ok 0#32, by rw [exec_build, hb, hdone]; rfl, ?_, ?_⟩
  · rw [hframe, htext.frame]
    rfl
  · rw [hframe]
    exact ⟨htext.counts, { htext.arena with }, { hctOk with }, htext.freqOutside,
      htext.nodeWOutside, htext.nodeLROutside, hlen, hcode⟩

/-- Settles O46: DERIVE gives codewords to the leaves of the text's tree, which are the symbols of
the text, and ENCODE asks for no other. -/
theorem alphabetCompleteness : Obligations.AlphabetCompleteness := by
  intro s c hmem hexec hok
  rw [exec_build] at hexec
  obtain rfl := State.finished_inj (Host.Outcome.next.inj hexec)
  obtain ⟨hsome, hfits⟩ := text_of_buildStage_ok hok
  obtain ⟨d, htext, hb⟩ := buildStage_of_text hmem hsome hfits
  rw [hb] at hok ⊢
  obtain ⟨t, hdone⟩ := deriveStage_raisesPrecisely.done_of_commit_ok hok
  rw [hdone]
  have hcoded : ∀ x < s.hw.nSym, 0 < (t.ctLen.read x).toNat ↔ x ∈ s.arch.currentText :=
    fun x hx => (deriveStage_present htext.arena hdone hx).trans (htext.leaves x)
  refine ⟨hcoded, fun u hhw hvalid hlen hcode hufits hdrawn hout => ?_⟩
  have hlen : u.arch.ctLen = t.ctLen := hlen
  have hucoded : ∀ x ∈ u.arch.currentText, 0 < (u.arch.ctLen.read x).toNat := by
    intro x hx
    have hsample := hdrawn x hx
    rw [hlen]
    exact (hcoded x (lt_nSym_of_mem_currentText hmem.text hsample)).mpr hsample
  obtain ⟨e, he⟩ := encodeStage_of_coded hvalid hufits hucoded (by rwa [encodedLength, hlen])
  exact ⟨_, exec_encode u, by rw [he]; rfl⟩
end

section
/-! When ENCODE succeeds, and with which error it ends otherwise, in the order of its tests
(spec/45_encode.md R201, R202, R204; spec/60_exceptions.md R245). -/

namespace Sys2Proof.Machine

/-! ### The first symbol without a codeword -/

theorem mem_currentText {c : Arch} {x : Nat} :
    x ∈ c.currentText ↔ ∃ i < c.textLen.toNat, c.symbolAt i = x := by
  simp [Arch.currentText]

/-- ENCODE finds nothing to refuse in a text whose symbols all have a codeword. -/
theorem firstUnencodable_eq_none_iff {c : Arch} :
    firstUnencodable c = none ↔ ∀ x ∈ c.currentText, 0 < (c.ctLen.read x).toNat := by
  simp [firstUnencodable, mem_currentText, Nat.pos_iff_ne_zero]

theorem firstUnencodable_of_least {c : Arch} {i : Nat} (hi : i < c.textLen.toNat)
    (hzero : c.ctLen.read (c.symbolAt i) = 0#32)
    (hleast : ∀ j < i, c.ctLen.read (c.symbolAt j) ≠ 0#32) : firstUnencodable c = some i := by
  refine find?_of_least List.pairwise_lt_range (List.mem_range.mpr hi) ?_ fun j _ hj hnone => ?_
  · simp [hzero]
  · exact hleast j hj (BitVec.eq_of_toNat_eq (by simpa using hnone))

/-! ### The ends of ENCODE -/

section
variable {hw : Hardware} {c : Arch} (hvalid : c.ctValid = true)
include hvalid

theorem encodeStage_of_tooLong (hlong : hw.textCap < c.textLen.toNat) :
    encodeStage hw c = .raised .length c.textLen c := by
  simp [encodeStage, hvalid, hlong]

variable (hfits : c.textLen.toNat ≤ hw.textCap)
include hfits

theorem encodeStage_of_uncoded {i : Nat} (hfind : firstUnencodable c = some i) :
    encodeStage hw c = .raised .symbol (halves i (c.symbolAt i)) c := by
  simp [encodeStage, hvalid, not_lt.mpr hfits, hfind]

theorem encodeStage_of_overflow (hcoded : ∀ x ∈ c.currentText, 0 < (c.ctLen.read x).toNat)
    (hover : 8 * hw.bitsCap < encodedLength c) :
    encodeStage hw c = .raised .overflow (BitVec.ofNat 32 (encodedLength c)) c := by
  simp [encodeStage, hvalid, not_lt.mpr hfits, firstUnencodable_eq_none_iff.mpr hcoded, hover]

end

/-- ENCODE succeeds exactly when it passes its four tests, and then writes the packed output and its
length (R200). -/
theorem encodeStage_eq_done_iff {hw : Hardware} {c d : Arch} :
    encodeStage hw c = .done d ↔
      c.ctValid = true ∧ c.textLen.toNat ≤ hw.textCap ∧
      (∀ x ∈ c.currentText, 0 < (c.ctLen.read x).toNat) ∧ encodedLength c ≤ 8 * hw.bitsCap ∧
      d = { c with
        bits := c.bits.writeBlock 0 (packBytes (byteCount (encodedLength c)) (encodedBits c))
        bitLen := BitVec.ofNat 32 (encodedLength c) } := by
  constructor
  · intro h
    obtain ⟨-, h'⟩ | ⟨-, -, h'⟩ | ⟨_, -, -, -, h'⟩ | ⟨-, -, -, -, h'⟩ |
      ⟨hvalid, hfits, hfind, hout, h'⟩ := encodeStage_cases hw c <;> rw [h'] at h <;> cases h
    exact ⟨hvalid, hfits, firstUnencodable_eq_none_iff.mp hfind, hout, rfl⟩
  · rintro ⟨hvalid, hfits, hcoded, hout, rfl⟩
    obtain ⟨d, hd⟩ := encodeStage_of_coded hvalid hfits hcoded hout
    rw [hd, (encodeStage_done hd).2]

/-! ### The detail of ERR_SYMBOL -/

theorem extractLsb'_halves_low (hi : Nat) (w : Word) :
    (halves hi w.toNat).extractLsb' 0 16 = w.extractLsb' 0 16 := by
  refine BitVec.eq_of_toNat_eq ((lowHalf_halves hi w.toNat).trans ?_)
  rw [BitVec.extractLsb'_toNat, Nat.shiftRight_zero]

end Sys2Proof.Machine

open Sys2Proof Sys2Proof.Machine

/-- Settles O48: each test that fails decides the end, given that those before it passed. -/
theorem encodeErrors : Obligations.EncodeErrors := by
  intro s
  refine ⟨exec_encode_of_noTable, fun hvalid hlong => ?_, fun hvalid hfits i hi hzero hleast => ?_,
    fun hvalid hfits hcoded hover => ?_, fun hmem i => s.arch.text.read_lt _ _ i hmem.text.2⟩
  · rw [exec_encode, encodeStage_of_tooLong hvalid hlong]
    rfl
  · have hfind := firstUnencodable_of_least hi hzero hleast
    have hcap := s.hw.textCap_le
    refine ⟨halves i (s.arch.symbolAt i), ?_, ?_, extractLsb'_halves_low i (s.arch.text.read i)⟩
    · rw [exec_encode, encodeStage_of_uncoded hvalid hfits hfind]
      rfl
    · exact (highHalf_halves i _).trans (Nat.mod_eq_of_lt (by omega))
  · rw [exec_encode, encodeStage_of_overflow hvalid hfits hcoded hover]
    rfl
end

section
/-! What a successful ENCODE leaves in BITS and BIT_LEN (spec/45_encode.md R203, R205). -/

namespace Sys2Proof.Machine

/-! ### The block that packs a sequence -/

/-- Byte `k` of a packed block packs the bits from `8k` on. -/
theorem read_writeBlock_packBytes (m : Memory) (q : Bits) {n k : Nat} (hk : k < n) :
    (m.writeBlock 0 (packBytes n q)).read k = packByte (q.drop (8 * k)) := by
  have hbyte : k < (packBytes n q).length := by rwa [length_packBytes]
  rw [← getElem_packBytes n q k hbyte, ← m.read_writeBlock_inside 0 _ k hbyte, Nat.zero_add]

/-- Stream bit `j` of a packed block is bit `j` of the sequence, 0 beyond its end (R100, R205). -/
theorem streamBit_writeBlock_packBytes (m : Memory) (q : Bits) {n j : Nat} (hj : j < 8 * n) :
    ((m.writeBlock 0 (packBytes n q)).read (j / 8)).getLsbD (7 - j % 8) = q[j]?.getD false := by
  have hbit : j % 8 < 8 := Nat.mod_lt _ (by decide)
  rw [read_writeBlock_packBytes m q (by omega), getLsbD_packByte _ _ hbit, List.getElem?_drop,
    Nat.div_add_mod]

theorem sameOutside_writeBlock_packBytes (m : Memory) (n : Nat) (q : Bits) :
    m.SameOutside (m.writeBlock 0 (packBytes n q)) 0 n := by
  simpa using m.sameOutside_writeBlock 0 (packBytes n q)

/-! ### The length of the output -/

/-- The output that fits BITS fits BIT_LEN. -/
theorem toNat_encodedLength {hw : Hardware} {c : Arch} (hout : encodedLength c ≤ 8 * hw.bitsCap) :
    (BitVec.ofNat 32 (encodedLength c)).toNat = encodedLength c := by
  have hcap := hw.bitsCap_le
  exact toNat_ofNat_of_lt (by omega)

end Sys2Proof.Machine

open Sys2Proof Sys2Proof.Machine

/-- Settles O47: ENCODE passes its tests, and the block it writes to BITS packs the codewords. -/
theorem encodePacksTheCodewords : Obligations.EncodePacksTheCodewords := by
  intro s hvalid hfits hcoded hout q
  have hlen : q.length = encodedLength s.arch := length_encodedBits s.arch
  have hdone := encodeStage_eq_done_iff.mpr ⟨hvalid, hfits, hcoded, hout, rfl⟩
  rw [← hlen] at hdone
  refine ⟨hlen, _, _, by rw [exec_encode, hdone]; rfl, hlen ▸ toNat_encodedLength hout,
    fun j hj => ?_, fun j hpad hj => ?_, fun k hk => ?_, sameOutside_writeBlock_packBytes _ _ _⟩
  · rw [streamBit_writeBlock_packBytes _ _ (by omega)]
    exact congrArg (·.getD false) (List.getElem?_eq_getElem hj)
  · rw [streamBit_writeBlock_packBytes _ _ hj]
    exact congrArg (·.getD false) (List.getElem?_eq_none hpad)
  · rw [read_writeBlock_packBytes _ _ hk]
    exact packByte_lt _
end

section
/-! ENCODE depends on the text and the table alone (spec/45_encode.md R206). -/

namespace Sys2Proof.Machine

/-! ### Two states with the same text and the same table -/

section
variable {c d : Arch} (hlen : c.textLen = d.textLen)
  (htext : ∀ i < c.textLen.toNat, c.text.read i = d.text.read i)
include hlen htext

theorem currentText_congr : c.currentText = d.currentText := by
  rw [Arch.currentText, Arch.currentText, ← hlen]
  exact List.map_congr_left fun i hi => congrArg _ (htext i (List.mem_range.mp hi))

variable (htable : ∀ x, c.ctLen.read x = d.ctLen.read x ∧ c.ctCode.read x = d.ctCode.read x)
include htable

theorem encodedLength_congr : encodedLength c = encodedLength d := by
  rw [encodedLength, encodedLength, currentText_congr hlen htext]
  exact congrArg List.sum (List.map_congr_left fun x _ => congrArg _ (htable x).1)

theorem encodedBits_congr : encodedBits c = encodedBits d := by
  have hcodeword : c.codeword = d.codeword := by
    funext x
    rw [Arch.codeword, Arch.codeword, (htable x).1, (htable x).2]
  rw [encodedBits, encodedBits, currentText_congr hlen htext, hcodeword]

/-- Where ENCODE succeeds in one of them it succeeds in the other, and writes the same stream over
whatever BITS holds there. -/
theorem encodeStage_done_congr {hw : Hardware} {c' : Arch} (hvalid : d.ctValid = true)
    (hc : encodeStage hw c = .done c') :
    ∃ d', encodeStage hw d = .done d' ∧ d'.bitLen = c'.bitLen ∧
      ∀ k, d'.bits.read k =
        if k < byteCount c'.bitLen.toNat then c'.bits.read k else d.bits.read k := by
  obtain ⟨-, hfits, hcoded, hout, rfl⟩ := encodeStage_eq_done_iff.mp hc
  have hbytes := toNat_encodedLength hout
  have hlength := encodedLength_congr hlen htext htable
  have hbits := encodedBits_congr hlen htext htable
  have hcoded' : ∀ x ∈ d.currentText, 0 < (d.ctLen.read x).toNat := fun x hx => by
    rw [← (htable x).1]
    exact hcoded x (currentText_congr hlen htext ▸ hx)
  refine ⟨_, encodeStage_eq_done_iff.mpr ⟨hvalid, hlen ▸ hfits, hcoded', hlength ▸ hout, rfl⟩,
    by rw [hlength], fun k => ?_⟩
  rw [← hlength, ← hbits, hbytes]
  split
  next hk => rw [read_writeBlock_packBytes _ _ hk, read_writeBlock_packBytes _ _ hk]
  next hk => exact sameOutside_writeBlock_packBytes _ _ _ k (by omega)

end

/-- The stage that ends an ENCODE that succeeds. -/
theorem encodeStage_of_exec_ok {s : State} {c : Arch}
    (hexec : exec .encode s = .next (s.finished c)) (hok : c.err = .ok) :
    ∃ d, encodeStage s.hw s.arch = .done d ∧ c = d.record .ok 0#32 := by
  rw [exec_encode] at hexec
  obtain rfl := State.finished_inj (Host.Outcome.next.inj hexec)
  obtain ⟨d, hd⟩ := encodeStage_raisesPrecisely.done_of_commit_ok hok
  exact ⟨d, hd, by rw [hd]; rfl⟩

theorem exec_encode_of_done {s : State} {d : Arch} (hd : encodeStage s.hw s.arch = .done d) :
    exec .encode s = .next (s.finished (d.record .ok 0#32)) := by
  rw [exec_encode, hd]
  rfl

/-- A second ENCODE, on the state that the first one left, succeeds and rewrites the same stream. -/
theorem encodeStage_again {hw : Hardware} {c d : Arch} (hd : encodeStage hw c = .done d) :
    ∃ e, encodeStage hw (d.record .ok 0#32) = .done e ∧ e.bitLen = d.bitLen ∧
      ∀ k, e.bits.read k = d.bits.read k := by
  have hcongr := encodeStage_done_congr (c := c) (d := d.record .ok 0#32)
  obtain ⟨hvalid, -, -, -, rfl⟩ := encodeStage_eq_done_iff.mp hd
  obtain ⟨e, he, hlen, hread⟩ := hcongr rfl (fun _ _ => rfl) (fun _ => ⟨rfl, rfl⟩) hvalid hd
  exact ⟨e, he, hlen, fun k => (hread k).trans (ite_self _)⟩

end Sys2Proof.Machine

open Sys2Proof Sys2Proof.Machine

/-- Settles O49: equal texts and tables have equal streams, and an ENCODE leaves its own text and
table to the next. -/
theorem encodeIsPure : Obligations.EncodeIsPure := by
  constructor
  · intro s u c hhw hvalid hlen htext htable hexec hok
    obtain ⟨c', hc, rfl⟩ := encodeStage_of_exec_ok hexec hok
    obtain ⟨d, hd, hbitLen, hread⟩ := encodeStage_done_congr hlen htext htable hvalid hc
    exact ⟨_, exec_encode_of_done (hhw ▸ hd), rfl, hbitLen, fun k hk => (hread k).trans (if_pos hk)⟩
  · intro s c hexec hok
    obtain ⟨d, hd, rfl⟩ := encodeStage_of_exec_ok hexec hok
    obtain ⟨e, he, hsame⟩ := encodeStage_again hd
    exact ⟨_, exec_encode_of_done he, rfl, hsame⟩
end

section
/-! The loop of DECODE splits the stream into codewords and a residue that completes none; and where
no codeword begins another there is no other such split (spec/46_decode.md R215 to R219, R221). -/

namespace Sys2Proof.Machine

/-! ### Splits of a stream -/

/-- No codeword begins `r`: read from an empty accumulator, it makes DECODE emit nothing (R219). -/
abbrev Arch.CompletesNone (hw : Hardware) (c : Arch) (r : Bits) : Prop :=
  ∀ x ∈ c.coded hw, ¬ c.codeword x <+: r

/-- `q` is the codewords of the present symbols `out`, in order, and a residue `r` that completes
none. -/
structure Arch.Splits (hw : Hardware) (c : Arch) (q : Bits) (out : List Nat) (r : Bits) : Prop where
  stream : q = out.flatMap c.codeword ++ r
  present : ∀ x ∈ out, x ∈ c.coded hw
  residue : c.CompletesNone hw r

/-- What decoding needs of the table: clauses (b) and (d) of CTOK, of the present symbols. -/
structure Arch.PrefixCode (hw : Hardware) (c : Arch) : Prop where
  codes : ∀ x ∈ c.coded hw, (c.ctCode.read x).toNat < 2 ^ (c.ctLen.read x).toNat
  prefixFree : ∀ x ∈ c.coded hw, ∀ y ∈ c.coded hw, c.codeword x <+: c.codeword y → x = y

theorem Arch.CtOk.prefixCode {hw : Hardware} {c : Arch} (h : c.CtOk hw) : c.PrefixCode hw where
  codes := fun x hx => h.codes x (mem_coded.mp hx).1
  prefixFree := by
    intro x hx y hy hpre
    obtain ⟨hxsym, hxpos⟩ := mem_coded.mp hx
    obtain ⟨hysym, hypos⟩ := mem_coded.mp hy
    by_contra hne
    exact h.prefixFree x hxsym y hysym hne hxpos hypos hpre

theorem length_codeword (c : Arch) (x : Nat) : (c.codeword x).length = (c.ctLen.read x).toNat :=
  length_bitsSeq _ _

section
variable {hw : Hardware} {c : Arch}

theorem codeword_ne_nil {x : Nat} (hx : x ∈ c.coded hw) : c.codeword x ≠ [] := by
  have hpos := (mem_coded.mp hx).2
  rwa [← length_codeword, List.length_pos_iff] at hpos

/-- Codewords are not empty, so nothing is completed by no bits. -/
theorem completesNone_nil : c.CompletesNone hw [] := fun _ hx hpre =>
  codeword_ne_nil hx (List.prefix_nil.mp hpre)

/-! ### The loop splits the stream -/

theorem mem_coded_of_matchSymbol {acc : Bits} {b : Bool} {x : Nat}
    (h : matchSymbol hw c (acc ++ [b]) = some x) : x ∈ c.coded hw := by
  obtain ⟨hx, hlen, -⟩ := matchSymbol_some h
  exact mem_coded.mpr ⟨hx, by simp [hlen]⟩

/-- DECODE finds no symbol only where none has the accumulator as its codeword (R218). -/
theorem codeword_ne_of_matchSymbol_none (hcode : c.PrefixCode hw) {acc : Bits}
    (h : matchSymbol hw c acc = none) {x : Nat} (hx : x ∈ c.coded hw) : c.codeword x ≠ acc := by
  rintro rfl
  have hval : bitsVal (c.codeword x) = (c.ctCode.read x).toNat :=
    bitsVal_bitsSeq _ _ (hcode.codes x hx)
  have hno := List.find?_eq_none.mp h x (List.mem_range.mpr (mem_coded.mp hx).1)
  simp [length_codeword, hval] at hno

/-- The bits in the accumulator and those still to come are split by what the loop emits from here
on and its residue, as long as the accumulator completes nothing. -/
theorem decodeBits_splits_acc (hcode : c.PrefixCode hw) (q acc : Bits)
    (hacc : c.CompletesNone hw acc) :
    c.Splits hw (acc ++ q) (decodeBits hw c q acc).1 (decodeBits hw c q acc).2 := by
  fun_induction decodeBits hw c q acc with
  | case1 acc => exact ⟨by simp, nofun, hacc⟩
  | case2 b rest acc x hx tail ih =>
    obtain ⟨hstream, hpresent, hresidue⟩ := ih completesNone_nil
    refine ⟨?_, List.forall_mem_cons.mpr ⟨mem_coded_of_matchSymbol hx, hpresent⟩, hresidue⟩
    rw [List.flatMap_cons, codeword_of_matchSymbol hx, List.append_assoc, ← hstream]
    simp
  | case3 b rest acc hnone ih =>
    rw [List.append_cons]
    refine ih fun x hx hpre => ?_
    obtain heq | hpre := List.prefix_concat_iff.mp hpre
    · exact codeword_ne_of_matchSymbol_none hcode hnone hx heq
    · exact hacc x hx hpre

theorem decodeBits_splits (hcode : c.PrefixCode hw) (q : Bits) :
    c.Splits hw q (decodeBits hw c q []).1 (decodeBits hw c q []).2 :=
  decodeBits_splits_acc hcode q [] completesNone_nil

/-! ### A checked table splits a stream in one way -/

/-- Two codewords that begin one stream are the same symbol's. -/
theorem Arch.PrefixCode.eq_of_prefix_of_prefix (hcode : c.PrefixCode hw) {x y : Nat} {q : Bits}
    (hx : x ∈ c.coded hw) (hy : y ∈ c.coded hw) (hxq : c.codeword x <+: q)
    (hyq : c.codeword y <+: q) : x = y := by
  obtain hpre | hpre := List.prefix_or_prefix_of_prefix hxq hyq
  · exact hcode.prefixFree x hx y hy hpre
  · exact (hcode.prefixFree y hy x hx hpre).symm

theorem Arch.Splits.codeword_prefix {q r : Bits} {x : Nat} {xs : List Nat}
    (h : c.Splits hw q (x :: xs) r) : c.codeword x <+: q := by
  rw [h.stream, List.flatMap_cons, List.append_assoc]
  exact List.prefix_append _ _

theorem Arch.Splits.tail {q r : Bits} {x : Nat} {xs : List Nat}
    (h : c.Splits hw (c.codeword x ++ q) (x :: xs) r) : c.Splits hw q xs r where
  stream := by simpa using h.stream
  present := fun y hy => h.present y (List.mem_cons_of_mem x hy)
  residue := h.residue

theorem Arch.Splits.unique (hcode : c.PrefixCode hw) {q r r' : Bits} {out out' : List Nat}
    (h : c.Splits hw q out r) (h' : c.Splits hw q out' r') : out = out' ∧ r = r' := by
  induction out generalizing q out' with
  | nil =>
    obtain rfl : q = r := h.stream
    cases out' with
    | nil => exact ⟨rfl, h'.stream⟩
    | cons y ys =>
      exact absurd h'.codeword_prefix (h.residue y (h'.present y List.mem_cons_self))
  | cons x xs ih =>
    have hx := h.present x List.mem_cons_self
    cases out' with
    | nil =>
      obtain rfl : q = r' := h'.stream
      exact absurd h.codeword_prefix (h'.residue x hx)
    | cons y ys =>
      obtain rfl := hcode.eq_of_prefix_of_prefix hx (h'.present y List.mem_cons_self)
        h.codeword_prefix h'.codeword_prefix
      obtain ⟨rest, rfl⟩ := h.codeword_prefix
      obtain ⟨rfl, rfl⟩ := ih h.tail h'.tail
      exact ⟨rfl, rfl⟩

/-- A stream known to split is decoded to that split. -/
theorem Arch.Splits.decodeBits_eq (hcode : c.PrefixCode hw) {q r : Bits} {out : List Nat}
    (h : c.Splits hw q out r) : decodeBits hw c q [] = (out, r) := by
  obtain ⟨hout, hr⟩ := (decodeBits_splits hcode q).unique hcode h
  exact Prod.ext hout hr

end

/-! ### The sizes of the output -/

/-- Every symbol takes at least one bit, whatever the table (R221). -/
theorem length_decodeBits_le (hw : Hardware) (c : Arch) (q acc : Bits) :
    (decodeBits hw c q acc).1.length + (decodeBits hw c q acc).2.length ≤
      acc.length + q.length := by
  fun_induction decodeBits hw c q acc with
  | case1 acc => simp
  | case2 b rest acc x hx tail ih =>
    simp only [tail, List.length_cons, List.length_nil] at ih ⊢
    omega
  | case3 b rest acc hnone ih =>
    simp only [List.length_append, List.length_cons, List.length_nil] at ih ⊢
    omega

@[simp] theorem length_currentBits (c : Arch) : c.currentBits.length = c.bitLen.toNat := by
  simp [Arch.currentBits]

theorem length_le_of_decodeBits {hw : Hardware} {c : Arch} {out : List Nat} {r : Bits}
    (h : decodeBits hw c c.currentBits [] = (out, r)) :
    out.length + r.length ≤ c.bitLen.toNat := by
  simpa [h] using length_decodeBits_le hw c c.currentBits []

/-! ### The text that is written -/

theorem sameOutside_writeBlock_symbols (m : Memory) (out : List Nat) :
    m.SameOutside (m.writeBlock 0 (out.map (BitVec.ofNat 32))) 0 out.length := by
  simpa using m.sameOutside_writeBlock 0 (out.map (BitVec.ofNat 32))

theorem read_writeBlock_symbols (m : Memory) {out : List Nat} {i : Nat} (hi : i < out.length) :
    (m.writeBlock 0 (out.map (BitVec.ofNat 32))).read i = BitVec.ofNat 32 out[i] := by
  have hread := m.read_writeBlock_inside 0 (out.map (BitVec.ofNat 32)) i (by simpa using hi)
  rwa [Nat.zero_add, List.getElem_map] at hread

/-- The symbols that DECODE emits stand in TEXT as they are, since they are in the alphabet. -/
theorem toNat_read_decoded (m : Memory) {hw : Hardware} {c : Arch} {q acc r : Bits} {out : List Nat}
    (h : decodeBits hw c q acc = (out, r)) {i : Nat} (hi : i < out.length) :
    ((m.writeBlock 0 (out.map (BitVec.ofNat 32))).read i).toNat = out[i] := by
  have hsym := decodeBits_lt hw c q acc
  rw [h] at hsym
  have hlt := hsym _ (List.getElem_mem hi)
  have hsize := hw.nSym_le
  rw [read_writeBlock_symbols _ hi]
  exact toNat_ofNat_of_lt (by omega)

/-! ### The ends of DECODE -/

section
variable {s : State} (hvalid : s.arch.ctValid = true)
include hvalid

theorem exec_decode_of_tooLong (hlong : 8 * s.hw.bitsCap < s.arch.bitLen.toNat) :
    exec .decode s =
      .next (s.finished { s.arch with err := .length, errInfo := s.arch.bitLen }) := by
  rw [exec_decode, decodeStage, hvalid, if_pos hlong]
  rfl

variable (hlen : s.arch.bitLen.toNat ≤ 8 * s.hw.bitsCap) {out : List Nat} {r : Bits}
  (hbits : decodeBits s.hw s.arch s.arch.currentBits [] = (out, r))
include hlen hbits

theorem exec_decode_of_overflow (hover : s.hw.textCap < out.length) :
    exec .decode s = .next (s.finished
      { s.arch with err := .overflow, errInfo := BitVec.ofNat 32 out.length }) := by
  simp [exec_decode, decodeStage, hvalid, not_lt.mpr hlen, hbits, hover, Arch.record]

theorem exec_decode_of_fits (hfits : out.length ≤ s.hw.textCap) :
    exec .decode s = .next (s.finished { s.arch with
      text := s.arch.text.writeBlock 0 (out.map (BitVec.ofNat 32))
      textLen := BitVec.ofNat 32 out.length, resid := BitVec.ofNat 32 r.length
      err := .ok, errInfo := 0#32 }) := by
  simp [exec_decode, decodeStage, hvalid, not_lt.mpr hlen, hbits, not_lt.mpr hfits, Arch.record]

end

end Sys2Proof.Machine

open Sys2Proof Sys2Proof.Machine

/-- Settles O53: the two tests that come before the loop. -/
theorem decodePreconditions : Obligations.DecodePreconditions :=
  fun _ => ⟨exec_decode_of_noTable, exec_decode_of_tooLong⟩

/-- Settles O50: the loop splits the stream, and the symbols fit TEXT or not. -/
theorem decodeSplitsTheStream : Obligations.DecodeSplitsTheStream := by
  intro s hinv hvalid hlen
  rcases hbits : decodeBits s.hw s.arch s.arch.currentBits [] with ⟨out, r⟩
  have hsplits := decodeBits_splits (hinv.table hvalid).prefixCode s.arch.currentBits
  have hsize := length_le_of_decodeBits hbits
  rw [hbits] at hsplits
  refine ⟨out, r, hsplits.stream, fun x hx => mem_coded.mp (hsplits.present x hx),
    fun x hx hpos => hsplits.residue x (mem_coded.mpr ⟨hx, hpos⟩), by omega, fun hfits => ?_,
    exec_decode_of_overflow hvalid hlen hbits⟩
  exact ⟨_, exec_decode_of_fits hvalid hlen hbits hfits, fun i hi => toNat_read_decoded _ hbits hi,
    sameOutside_writeBlock_symbols _ _⟩

/-- Settles O51: a symbol takes at least one bit, so a stream no longer than TEXT cannot fill it. -/
theorem decodeCompletes : Obligations.DecodeCompletes := by
  intro s hvalid hlen hcap
  rcases hbits : decodeBits s.hw s.arch s.arch.currentBits [] with ⟨out, r⟩
  have hsize := length_le_of_decodeBits hbits
  have htextCap := s.hw.textCap_le
  refine ⟨_, _, _, exec_decode_of_fits hvalid hlen hbits (by omega), ?_, ?_, fun hempty => ?_⟩
  · rwa [toNat_ofNat_of_lt (by omega), toNat_ofNat_of_lt (by omega)]
  · rw [toNat_ofNat_of_lt (by omega)]
    exact sameOutside_writeBlock_symbols _ _
  · have hzero : s.arch.bitLen.toNat = 0 := by rw [hempty]; rfl
    obtain rfl : out = [] := List.length_eq_zero_iff.mp (by omega)
    obtain rfl : r = [] := List.length_eq_zero_iff.mp (by omega)
    exact ⟨Memory.writeBlock_nil _, rfl, rfl⟩
end

section
/-! Streams whose split is known: under the lone-leaf table, and after ENCODE
(spec/46_decode.md R220, R222). -/

namespace Sys2Proof.Machine

/-! ### The lone-leaf table -/

/-- `x` is the only present symbol, with the codeword `[1]` (R172). -/
structure Arch.LoneCodeword (hw : Hardware) (c : Arch) (x : Nat) : Prop where
  coded : ∀ y, y ∈ c.coded hw ↔ y = x
  codeword : c.codeword x = [true]
  code : (c.ctCode.read x).toNat < 2 ^ (c.ctLen.read x).toNat

theorem loneCodeword_of_table {hw : Hardware} {c : Arch} {x : Nat} (hx : x < hw.nSym)
    (hlen : c.ctLen.read x = 1#32) (hcode : c.ctCode.read x = 1#32)
    (hrest : ∀ y < hw.nSym, y ≠ x → c.ctLen.read y = 0#32) : c.LoneCodeword hw x where
  coded := by
    intro y
    rw [mem_coded]
    constructor
    · rintro ⟨hy, hpos⟩
      by_contra hne
      simp [hrest y hy hne] at hpos
    · rintro rfl
      exact ⟨hx, by simp [hlen]⟩
  codeword := by
    rw [Arch.codeword, hlen, hcode]
    decide
  code := by
    rw [hlen, hcode]
    decide

section
variable {hw : Hardware} {c : Arch} {x : Nat} (h : c.LoneCodeword hw x)
include h

theorem Arch.LoneCodeword.prefixCode : c.PrefixCode hw where
  codes := by
    intro y hy
    obtain rfl := (h.coded y).mp hy
    exact h.code
  prefixFree := fun y hy z hz _ => ((h.coded y).mp hy).trans ((h.coded z).mp hz).symm

/-- The leading ones are the codewords, and from the first 0 nothing resolves (R220). -/
theorem Arch.LoneCodeword.splits (q : Bits) :
    c.Splits hw q (List.replicate (q.takeWhile id).length x) (q.dropWhile id) where
  stream := by
    have hones : q.takeWhile id = List.replicate (q.takeWhile id).length true :=
      List.eq_replicate_of_mem fun b hb => List.mem_takeWhile_imp hb
    rw [List.flatMap_replicate, h.codeword, List.flatten_replicate_singleton, ← hones,
      List.takeWhile_append_dropWhile]
  present := fun y hy => (h.coded y).mpr (List.eq_of_mem_replicate hy)
  residue := by
    intro y hy hpre
    obtain rfl := (h.coded y).mp hy
    rw [h.codeword] at hpre
    obtain ⟨rest, hrest⟩ := hpre
    have hhead := List.head?_dropWhile_not id q
    rw [← hrest] at hhead
    exact absurd hhead (by simp)

end

/-! ### The stream that ENCODE packed -/

theorem codeword_congr {c d : Arch} (hlen : d.ctLen = c.ctLen) (hcode : d.ctCode = c.ctCode) :
    d.codeword = c.codeword := by
  funext x
  rw [Arch.codeword, Arch.codeword, hlen, hcode]

theorem coded_congr (hw : Hardware) {c d : Arch} (hlen : d.ctLen = c.ctLen) :
    d.coded hw = c.coded hw := by
  rw [Arch.coded, Arch.coded, hlen]

theorem Arch.PrefixCode.congr {hw : Hardware} {c d : Arch} (h : c.PrefixCode hw)
    (hlen : d.ctLen = c.ctLen) (hcode : d.ctCode = c.ctCode) : d.PrefixCode hw where
  codes := by
    rw [coded_congr hw hlen, hlen, hcode]
    exact h.codes
  prefixFree := by
    rw [coded_congr hw hlen, codeword_congr hlen hcode]
    exact h.prefixFree

theorem getElem_currentBits (c : Arch) {j : Nat} (hj : j < c.currentBits.length) :
    c.currentBits[j] = c.streamBit j := by
  simp [Arch.currentBits]

/-- The stream read from BITS where a sequence was packed is that sequence (R100, R205). -/
theorem currentBits_of_packed {c : Arch} {m : Memory} {q : Bits}
    (hbits : c.bits = m.writeBlock 0 (packBytes (byteCount q.length) q))
    (hlen : c.bitLen.toNat = q.length) : c.currentBits = q := by
  refine List.ext_getElem (by rw [length_currentBits, hlen]) fun j _ hj => ?_
  have hbyte : j < 8 * byteCount q.length := by
    rw [byteCount]
    omega
  rw [getElem_currentBits, Arch.streamBit, hbits, streamBit_writeBlock_packBytes _ _ hbyte,
    List.getElem?_eq_getElem hj]
  rfl

/-- The output of ENCODE splits into the codewords of the text, without a residue. -/
theorem splits_encodedBits {hw : Hardware} {c d : Arch} (htext : c.text.Ok hw.textCap hw.symw)
    (hcoded : ∀ x ∈ c.currentText, 0 < (c.ctLen.read x).toNat) (hlen : d.ctLen = c.ctLen)
    (hcode : d.ctCode = c.ctCode) : d.Splits hw (encodedBits c) c.currentText [] where
  stream := by rw [List.append_nil, codeword_congr hlen hcode, encodedBits]
  present := by
    intro x hx
    rw [coded_congr hw hlen]
    exact mem_coded.mpr ⟨lt_nSym_of_mem_currentText htext hx, hcoded x hx⟩
  residue := completesNone_nil

/-- On the stream that ENCODE left, and with its table, the loop gives back the text (R222). -/
theorem decodeBits_of_encodeStage_done {hw : Hardware} {c d u : Arch} (hcode : c.PrefixCode hw)
    (htext : c.text.Ok hw.textCap hw.symw) (hd : encodeStage hw c = .done d)
    (hctLen : u.ctLen = d.ctLen) (hctCode : u.ctCode = d.ctCode) (hbits : u.bits = d.bits)
    (hbitLen : u.bitLen = d.bitLen) : u.bitLen.toNat ≤ 8 * hw.bitsCap ∧
      decodeBits hw u u.currentBits [] = (c.currentText, []) := by
  obtain ⟨-, -, hcoded, hout, rfl⟩ := encodeStage_eq_done_iff.mp hd
  have hlen : u.bitLen.toNat = encodedLength c := by
    rw [hbitLen]
    exact toNat_encodedLength hout
  have hstream : u.currentBits = encodedBits c :=
    currentBits_of_packed (by rw [length_encodedBits, hbits]) (by rw [length_encodedBits, hlen])
  rw [hlen, hstream]
  exact ⟨hout, (splits_encodedBits htext hcoded hctLen hctCode).decodeBits_eq
    (hcode.congr hctLen hctCode)⟩

end Sys2Proof.Machine

open Sys2Proof Sys2Proof.Machine

/-- Settles O52: the stream splits after its leading ones. -/
theorem loneCodewordDecode : Obligations.LoneCodewordDecode := by
  intro s x hx hvalid hlenx hcodex hrest hlen hcap n
  have hlone := loneCodeword_of_table hx hlenx hcodex hrest
  have hbits := (hlone.splits s.arch.currentBits).decodeBits_eq hlone.prefixCode
  have hsum := congrArg List.length (s.arch.currentBits.takeWhile_append_dropWhile (p := id))
  rw [List.length_append, length_currentBits] at hsum
  have hexec := exec_decode_of_fits hvalid hlen hbits (by rw [List.length_replicate]; omega)
  rw [List.length_replicate, show (s.arch.currentBits.dropWhile id).length =
    s.arch.bitLen.toNat - n by omega] at hexec
  refine ⟨_, hexec, fun i hi => ?_, ?_⟩
  · rw [toNat_read_decoded _ hbits (by rwa [List.length_replicate]), List.getElem_replicate]
  · simpa using sameOutside_writeBlock_symbols s.arch.text (List.replicate n x)

/-- Settles O55: the stream that ENCODE packed splits into the codewords of the text, and a checked
table splits it in no other way. -/
theorem roundTrip : Obligations.RoundTrip := by
  intro s c hinv hexec hok u hhw hvalid hctLen hctCode hbits hbitLen
  obtain ⟨d, hd, rfl⟩ := encodeStage_of_exec_ok hexec hok
  obtain ⟨hsvalid, hfits, -⟩ := encodeStage_eq_done_iff.mp hd
  obtain ⟨hlen, hdecoded⟩ := decodeBits_of_encodeStage_done (hinv.table hsvalid).prefixCode
    hinv.memories.text hd hctLen hctCode hbits hbitLen
  rw [← hhw] at hlen hdecoded hfits
  have hexec' := exec_decode_of_fits hvalid hlen hdecoded (by rwa [length_currentText])
  rw [length_currentText, BitVec.ofNat_toNat, BitVec.setWidth_eq] at hexec'
  refine ⟨_, hexec', fun i hi => ?_, ?_⟩
  · refine BitVec.eq_of_toNat_eq ?_
    rw [toNat_read_decoded _ hdecoded (by rwa [length_currentText])]
    simp [Arch.currentText, Arch.symbolAt]
  · simpa using sameOutside_writeBlock_symbols u.arch.text s.arch.currentText
end

section
/-! DECODE depends on the stream bits and the table alone (spec/46_decode.md R217, R224). -/

namespace Sys2Proof.Machine

section
variable {hw : Hardware} {c d : Arch}

/-- Pad bits and later bytes are not in the stream (R217). -/
theorem currentBits_congr (hlen : c.bitLen = d.bitLen)
    (hbits : ∀ j < c.bitLen.toNat, c.streamBit j = d.streamBit j) :
    c.currentBits = d.currentBits := by
  rw [Arch.currentBits, Arch.currentBits, ← hlen]
  exact List.map_congr_left fun j hj => hbits j (List.mem_range.mp hj)

variable (htable : ∀ x, c.ctLen.read x = d.ctLen.read x ∧ c.ctCode.read x = d.ctCode.read x)
include htable

theorem matchSymbol_congr : matchSymbol hw c = matchSymbol hw d := by
  funext acc
  simp only [matchSymbol, (htable _).1, (htable _).2]

theorem decodeBits_congr (q acc : Bits) : decodeBits hw c q acc = decodeBits hw d q acc := by
  fun_induction decodeBits hw c q acc with
  | case1 acc => rfl
  | case2 b rest acc x hx tail ih =>
    rw [matchSymbol_congr htable] at hx
    simp only [decodeBits, hx, tail, ih]
  | case3 b rest acc hnone ih =>
    rw [matchSymbol_congr htable] at hnone
    simp only [decodeBits, hnone, ih]

end

end Sys2Proof.Machine

open Sys2Proof Sys2Proof.Machine

/-- Settles O54: each test has the same outcome in both states, and the loop the same output. -/
theorem decodeReadsTheStreamOnly : Obligations.DecodeReadsTheStreamOnly := by
  intro s u hhw hvalid hlen hstream htable
  rcases hs : decodeBits s.hw s.arch s.arch.currentBits [] with ⟨out, r⟩
  have hu : decodeBits u.hw u.arch u.arch.currentBits [] = (out, r) := by
    rw [← hs, ← hhw, ← currentBits_congr hlen hstream, decodeBits_congr htable]
  have hsize := length_le_of_decodeBits hs
  cases hv : s.arch.ctValid with
  | false =>
    exact ⟨_, _, exec_decode_of_noTable hv, exec_decode_of_noTable (hvalid ▸ hv), rfl, rfl, nofun⟩
  | true =>
    have hvu : u.arch.ctValid = true := hvalid ▸ hv
    obtain hlong | hfit := lt_or_ge (8 * s.hw.bitsCap) s.arch.bitLen.toNat
    · exact ⟨_, _, exec_decode_of_tooLong hv hlong,
        exec_decode_of_tooLong hvu (hhw ▸ hlen ▸ hlong), rfl, hlen.symm, nofun⟩
    have hfitu : u.arch.bitLen.toNat ≤ 8 * u.hw.bitsCap := hhw ▸ hlen ▸ hfit
    obtain hover | hcap := lt_or_ge s.hw.textCap out.length
    · exact ⟨_, _, exec_decode_of_overflow hv hfit hs hover,
        exec_decode_of_overflow hvu hfitu hu (hhw ▸ hover), rfl, rfl, nofun⟩
    refine ⟨_, _, exec_decode_of_fits hv hfit hs hcap,
      exec_decode_of_fits hvu hfitu hu (hhw ▸ hcap), rfl, rfl, fun _ => ⟨rfl, rfl, ?_⟩⟩
    dsimp only
    rw [toNat_ofNat_of_lt (by omega)]
    refine ⟨fun i hi => ?_, fun i hi => ⟨?_, ?_⟩⟩
    · rw [read_writeBlock_symbols _ hi, read_writeBlock_symbols _ hi]
    · exact sameOutside_writeBlock_symbols _ _ i (by omega)
    · exact sameOutside_writeBlock_symbols _ _ i (by omega)
end

section
/-! Decoding and encoding undo each other, and the transaction that carries an encoded instruction
runs it (spec/30_encoding.md R90, R93; spec/40_host_access.md R120, R124). -/

namespace Sys2Proof

/-- Every term is well-formed: no operand can exceed its field (R90, R92). -/
theorem Instr.wf_eq_true (i : Instr) : i.wf = true := by
  cases i <;> rfl

/-- A triple is made of its three fields (R90). -/
theorem triple_fields (t : Triple) :
    triple (t.getLsbD 52) (t.extractLsb' 32 20) (t.extractLsb' 0 32) = t := by
  apply BitVec.eq_of_toNat_eq
  have hkind : (t.getLsbD 52).toNat = t.toNat / 2 ^ 52 % 2 := Nat.toNat_testBit t.toNat 52
  rw [toNat_triple, hkind, BitVec.extractLsb'_toNat, BitVec.extractLsb'_toNat,
    Nat.shiftRight_eq_div_pow, Nat.shiftRight_zero]
  have := t.isLt
  omega

/-- Masking a read triple with the bits of its address field clears its data. -/
theorem triple_read_and_mask (a : Addr) (v : Word) :
    triple false a v &&& 0x0FFFFF00000000#53 = triple false a 0#32 := by
  have hmask : 0x0FFFFF00000000#53 = triple false (BitVec.allOnes 20) 0#32 := by decide
  rw [hmask, triple, triple, triple, BitVec.and_append, BitVec.and_append, BitVec.and_self,
    BitVec.and_allOnes, BitVec.and_zero]

end Sys2Proof

namespace Sys2Proof.Machine

/-! ### Command words -/

/-- The encoder writes every command of R93 as the word of its row. -/
theorem encode_of_mem_commandWords : ∀ p ∈ commandWords, encode p.2 = .cmd p.1 := by decide

/-- A command has a row in the table of R93. -/
theorem exists_word_of_mem_commands {i : Instr} (h : i ∈ commands) :
    ∃ w, (w, i) ∈ commandWords := by
  obtain ⟨⟨w, _⟩, hrow, rfl⟩ := List.mem_map.mp h
  exact ⟨w, hrow⟩

/-- An instruction that is no command is encoded as a triple that decodes to it. -/
theorem encode_of_notMem_commands {i : Instr} (h : i ∉ commands) :
    ∃ t, encode i = .bus t ∧ decodeBus t = i := by
  cases i with
  | rd a => exact ⟨_, rfl, decodeBus_read a 0#32⟩
  | wr a v => exact ⟨_, rfl, decodeBus_write a v⟩
  | _ => exact absurd (by decide) h

/-! ### Triples -/

theorem encode_decodeBus_of_kind_write {t : Triple} (h : t.getLsbD 52 = true) :
    encode (decodeBus t) = .bus t := by
  rw [decodeBus_of_kind_write h, encode, ← h, triple_fields]

theorem encode_decodeBus_of_kind_read {t : Triple} (h : t.getLsbD 52 = false) :
    encode (decodeBus t) = .bus (t &&& 0x0FFFFF00000000#53) := by
  have hfields := triple_fields t
  rw [h] at hfields
  rw [decodeBus_of_kind_read h, encode, ← triple_read_and_mask _ (t.extractLsb' 0 32), hfields]

/-! ### Carriers -/

/-- The transaction that carries what decodes to `i` runs `i`: a command word through CMD, a triple
by itself. -/
theorem exec_carrier {e : Encoded} {i : Instr} (h : decode e = .ok i) (s : State) :
    exec (decodeBus (carrier e)) s = exec i s := by
  cases e with
  | cmd w =>
    calc exec (decodeBus (carrier (.cmd w))) s
        = exec (.wr cmdAddr w) s := by rw [carrier, decodeBus_write]
      _ = dispatchCommand w s := exec_wr_cmd w s
      _ = exec i s := dispatchCommand_of_decodeCommand h s
  | bus t =>
    cases h
    rfl

/-- A table number that stands for an encoded instruction travels as that does. -/
theorem carrierOfTable_of_encodedOfTable {nbits w : Nat} {e : Encoded}
    (h : encodedOfTable nbits w = .ok e) : carrierOfTable nbits w = carrier e := by
  by_cases hcmd : nbits ≤ 32
  · rw [encodedOfTable, if_pos hcmd] at h
    rw [carrierOfTable, if_pos hcmd]
    split at h <;> cases h
    rfl
  · rw [encodedOfTable, if_neg hcmd] at h
    rw [carrierOfTable, if_neg hcmd]
    split at h <;> cases h
    rfl

/-- A table number that decodes stands for an encoded instruction that decodes. -/
theorem exists_encoded_of_decodeTableWord {nbits w : Nat} {i : Instr}
    (h : decodeTableWord nbits w = some i) :
    ∃ e, encodedOfTable nbits w = .ok e ∧ decode e = .ok i := by
  unfold decodeTableWord at h
  cases he : encodedOfTable nbits w with
  | error r => simp [he] at h
  | ok e =>
    refine ⟨e, rfl, ?_⟩
    cases hd : decode e with
    | error r => simp [he, hd] at h
    | ok j => simpa [he, hd] using h

theorem step_offer (s : State) (t : Triple) : step (s.offer t) = exec (decodeBus t) s :=
  step_of_transaction (State.offer_requests s t)

end Sys2Proof.Machine

open Sys2Proof Sys2Proof.Machine

/-- Settles O2: a command and its word stand in one row of R93, which both coders read; any other
instruction is a transaction made of its own fields. -/
theorem decodeOfEncodeAgrees : Obligations.DecodeOfEncodeAgrees := by
  intro i _
  by_cases hi : i ∈ commands
  · obtain ⟨w, hrow⟩ := exists_word_of_mem_commands hi
    have hencode : encode i = .cmd w := encode_of_mem_commandWords (w, i) hrow
    have hdecode : decodeCommand w = .ok i := decodeCommand_of_mem_commandWords (w, i) hrow
    rw [hencode]
    exact ⟨hdecode, fun _ => ⟨w, rfl, hrow, decodeBus_write cmdAddr w⟩, fun hno => absurd hi hno⟩
  · obtain ⟨t, hencode, hdecode⟩ := encode_of_notMem_commands hi
    rw [hencode]
    exact ⟨congrArg Except.ok hdecode, fun hyes => absurd hyes hi, fun _ => hdecode⟩

/-- Settles O3: a word that decodes stands in the table of R93, and a triple is made of its fields,
of which a read keeps the address. -/
theorem encodeOfDecodeAgrees : Obligations.EncodeOfDecodeAgrees := by
  refine ⟨fun w i h => ?_, fun t i hkind h => ?_, fun t i hkind h => ?_⟩
  · exact encode_of_mem_commandWords (w, i) (mem_commandWords_of_decodeCommand h)
  · cases h
    exact encode_decodeBus_of_kind_write hkind
  · cases h
    exact encode_decodeBus_of_kind_read hkind

/-- Settles O6: a transaction at the head of the port is the next input a step takes. -/
theorem stepRunsTheDecodedTransaction : Obligations.StepRunsTheDecodedTransaction :=
  fun _ _ _ h => step_of_transaction h

/-- Settles O7: both ways to place an instruction put its carrier at the head of the port. -/
theorem stepRunsEveryInstruction : Obligations.StepRunsEveryInstruction := by
  refine fun s i => ⟨fun rest h => ?_, fun nbits w h => ?_⟩
  · obtain ⟨hdecode, -⟩ := decodeOfEncodeAgrees i i.wf_eq_true
    rw [step_of_transaction h, exec_carrier hdecode]
  · obtain ⟨e, hencoded, hdecode⟩ := exists_encoded_of_decodeTableWord h
    rw [State.withFetchWord, carrierOfTable_of_encodedOfTable hencoded, step_offer,
      exec_carrier hdecode]

/-- Settles O1: each sample is a row of R93, or a triple of the fields named. -/
theorem sampleWordsDecode : Obligations.SampleWordsDecode := by
  unfold Obligations.SampleWordsDecode
  decide
end

section
/-! NOP and the two resets, and what a failing command changes (spec/47_control.md R231, R232;
spec/60_exceptions.md R246; spec/70_reset_and_hazards.md R270). -/

namespace Sys2Proof.Machine

/-- A stage that raises precisely changes ERR and ERRINFO only when it fails (R246). -/
theorem RaisesPrecisely.commit_frame {stage : Hardware → Arch → Result} (hs : RaisesPrecisely stage)
    {hw : Hardware} {c : Arch} (herr : (stage hw c).commit.err ≠ .ok) :
    (stage hw c).commit =
      { c with err := (stage hw c).commit.err, errInfo := (stage hw c).commit.errInfo } := by
  obtain ⟨d, -, hcommit⟩ | ⟨e, info, -, hcommit⟩ := hs.commit_cases hw c
  · rw [hcommit] at herr
    exact absurd rfl herr
  · rw [hcommit]
    rfl

theorem nopStage_raisesPrecisely : RaisesPrecisely nopStage := fun _ _ => trivial

theorem resetStage_raisesPrecisely : RaisesPrecisely resetStage := fun _ _ => trivial

theorem ctclrStage_raisesPrecisely : RaisesPrecisely ctclrStage := fun _ _ => trivial

/-- After reset nothing is listed, both flags are 0, and ROOT and NLEAF are 0 (R44). -/
theorem State.inv_resetOf (hw : Hardware) : (State.resetOf hw).Inv where
  memories := ⟨Memory.ok_empty _ _, Memory.ok_empty _ _, Memory.ok_empty _ _, Memory.ok_empty _ _,
    Memory.ok_empty _ _, Memory.ok_empty _ _, Memory.ok_empty _ _⟩
  registers := ⟨Nat.two_pow_pos _, Nat.two_pow_pos _⟩
  table := nofun
  arena := nofun

end Sys2Proof.Machine

open Sys2Proof Sys2Proof.Machine

/-- Settles O25: a primitive command's stage raises precisely, and a BUILD ends as the first of its
three stages that fails, run on what the ones before it left. -/
theorem errorsArePrecise : Obligations.ErrorsArePrecise := by
  constructor
  · intro s i hi hbuild
    cases i with
    | nop => exact ⟨_, exec_nop s, nopStage_raisesPrecisely.commit_frame⟩
    | freq => exact ⟨_, exec_freq s, freqStage_raisesPrecisely.commit_frame⟩
    | tree => exact ⟨_, exec_tree s, treeStage_raisesPrecisely.commit_frame⟩
    | derive => exact ⟨_, exec_derive s, deriveStage_raisesPrecisely.commit_frame⟩
    | build => exact absurd rfl hbuild
    | encode => exact ⟨_, exec_encode s, encodeStage_raisesPrecisely.commit_frame⟩
    | decode => exact ⟨_, exec_decode s, decodeStage_raisesPrecisely.commit_frame⟩
    | ctclr => exact ⟨_, exec_ctclr s, ctclrStage_raisesPrecisely.commit_frame⟩
    | ctchk => exact ⟨_, exec_ctchk s, ctchkStage_raisesPrecisely.commit_frame⟩
    | reset => exact ⟨_, exec_reset s, resetStage_raisesPrecisely.commit_frame⟩
    | rd a =>
      obtain ⟨w, hw⟩ := (Laws.Format.rd a).2.mp hi
      cases hw
    | wr a v =>
      obtain ⟨w, hw⟩ := (Laws.Format.wr a v).2.mp hi
      cases hw
  · intro s
    refine ⟨_, exec_build s, fun herr => ?_⟩
    have hends := buildStage_commit (hw := s.hw) (c := s.arch) rfl rfl
    by_cases hfreq : (freqStage s.hw s.arch).commit.err = .ok
    · refine .inr ⟨_, exec_freq s, hfreq, ?_⟩
      rw [if_neg (not_not.mpr hfreq)] at hends
      by_cases htree : (treeStage s.hw (freqStage s.hw s.arch).commit).commit.err = .ok
      · rw [if_neg (not_not.mpr htree)] at hends
        rw [hends] at herr ⊢
        exact .inr ⟨_, exec_tree _, htree, deriveStage_raisesPrecisely.commit_frame herr⟩
      · rw [if_pos htree] at hends
        rw [hends]
        exact .inl (treeStage_raisesPrecisely.commit_frame htree)
    · rw [if_pos hfreq] at hends
      rw [hends]
      exact .inl (freqStage_raisesPrecisely.commit_frame hfreq)

/-- Settles O26: the stage of NOP does nothing, and its end records OK and 0. -/
theorem nopClearsTheResult : Obligations.NopClearsTheResult := exec_nop

/-- Settles O9: the event at the head of the port leaves the reset state, and the rest of the
port as it was. -/
theorem hardwareResetEvent : Obligations.HardwareResetEvent :=
  fun _ _ h => step_of_hardwareReset h

/-- Settles O27: RESET commits the reset state, and so does the reset event. -/
theorem resetCommandIsHardwareReset : Obligations.ResetCommandIsHardwareReset :=
  fun s => ⟨exec_reset s, fun _ => step_of_hardwareReset rfl⟩

/-- Settles O56: with nothing listed and both flags 0, every clause of the invariant holds. -/
theorem resetMeetsTheInvariant : Obligations.ResetMeetsTheInvariant :=
  ⟨rfl, State.inv_resetOf⟩
end
